-- ==== Sys2Proof/Word.lean ====
section
/-! DEFINITION. The word types of the block (00_scope R11, R12). -/

namespace Sys2Proof

/-- A 32-bit data word: a register, a bus word or a memory word (R11). -/
abbrev Word := BitVec 32

/-- One byte lane of a word (20_memory R58). -/
abbrev Byte := BitVec 8

/-- A 32-bit word read as an IEEE 754 binary32 number (R12). -/
abbrev F32 := BitVec 32

end Sys2Proof
end

