-- ==== Sys2Proof/Machine/Reject.lean ====
section
/-! DEFINITION. The rejection codes of 60_exceptions R124. -/

namespace Sys2Proof.Machine

/-- Why a command is rejected: the rows 0x01 to 0x08 of R124. A rejection is no stop: the command completes
with STATUS.ERR and STATUS.ERRCODE set (R123). -/
inductive Reject where
  /-- OPC is reserved (30_encoding R78). -/
  | badOpcode
  /-- A field rule fails (30_encoding R79). -/
  | badField
  /-- `LEN > N_MAX`. -/
  | lenRange
  /-- A validated F32 parameter is not finite. -/
  | paramNonfinite
  /-- WAVESHAPE with `P0 < 0`. -/
  | negGain
  /-- COMPRESS with `P1 <= 0`. -/
  | ratioNonpos
  /-- The capacity exceeds DL_DEPTH. -/
  | capRange
  /-- A derived constant that must be finite is not. -/
  | derivedNonfinite
deriving DecidableEq, Repr

/-- The value STATUS.ERRCODE shows for a rejection (R124). -/
def rejectCode : Reject → BitVec 8
  | .badOpcode => 0x01#8
  | .badField => 0x02#8
  | .lenRange => 0x03#8
  | .paramNonfinite => 0x04#8
  | .negGain => 0x05#8
  | .ratioNonpos => 0x06#8
  | .capRange => 0x07#8
  | .derivedNonfinite => 0x08#8

end Sys2Proof.Machine
end

