-- ==== Sys2Proof/Syntax.lean ====
section
/-! DEFINITION. The commands: one constructor for each row of spec/opcode_table.json (30_encoding R75, R76). -/

namespace Sys2Proof

/-- A command word, its fields read. Data operands are in registers (30_encoding R74), so only WAVESHAPE and
EQ7 carry fields. -/
inductive Instr where
  /-- 0x00 NOP (45_control R118). -/
  | nop
  /-- 0x01 DL_CREATE (40_delay_line R94). -/
  | dlCreate
  /-- 0x02 DL_CREATE_MS (40_delay_line R95). -/
  | dlCreateMs
  /-- 0x03 DL_CREATE_FRAC (40_delay_line R96). -/
  | dlCreateFrac
  /-- 0x04 DL_READ (40_delay_line R97). -/
  | dlRead
  /-- 0x05 DL_WRITE (40_delay_line R98). -/
  | dlWrite
  /-- 0x06 DL_STEP (40_delay_line R99). -/
  | dlStep
  /-- 0x08 OSC_VALUE (41_oscillator R108). -/
  | oscValue
  /-- 0x10 DELAY (40_delay_line R100). -/
  | delay
  /-- 0x11 REVERB (40_delay_line R103). -/
  | reverb
  /-- 0x12 FLANGER_MOD (40_delay_line R104). -/
  | flangerMod
  /-- 0x13 FLANGER_MANUAL (40_delay_line R105). -/
  | flangerManual
  /-- 0x20 TREMOLO (41_oscillator R109). -/
  | tremolo
  /-- 0x21 CHORUS (41_oscillator R110). -/
  | chorus
  /-- 0x22 WAHWAH (41_oscillator R111). -/
  | wahwah
  /-- 0x30 WAVESHAPE (42_waveshaper R113): KSEL and the stage enables TONE, LVL, MIX. -/
  | waveshape (ksel : BitVec 2) (tone lvl mix : Bool)
  /-- 0x38 COMPRESS (43_compressor R115). -/
  | compress
  /-- 0x40 EQ7 (44_band_gain R117): NB, the number of band slots. -/
  | eq7 (nb : BitVec 3)
  /-- 0x48 TUNER (45_control R119). -/
  | tuner
deriving DecidableEq, Repr

end Sys2Proof
end

