-- ==== Sys2Proof/WellFormed.lean ====
section
/-! DEFINITION. Which commands a command word can encode (30_encoding R79, 42_waveshaper R112). -/

namespace Sys2Proof

/-- KSEL = 3 selects no divisor (R112) and its words are rejected (R79); every other field value is legal. -/
def Instr.wellFormed : Instr → Bool
  | .waveshape ksel _ _ _ => ksel != 3#2
  | .nop | .dlCreate | .dlCreateMs | .dlCreateFrac | .dlRead | .dlWrite | .dlStep | .oscValue
  | .delay | .reverb | .flangerMod | .flangerManual | .tremolo | .chorus | .wahwah
  | .compress | .eq7 _ | .tuner => true

end Sys2Proof
end

