-- ==== Sys2Proof/Decode.lean ====
section
/-! DEFINITION. The command word: its fields, its decoder and its encoder (30_encoding R72 to R79). -/

namespace Sys2Proof

open Sys2Proof.Machine

/-- OPC, bits 7:0 (R72). -/
def opcField (w : Word) : BitVec 8 := w.extractLsb' 0 8

/-- NB, bits 10:8 (R72). -/
def nbField (w : Word) : BitVec 3 := w.extractLsb' 8 3

/-- Bit 11, reserved (R72). -/
def reserved11 (w : Word) : BitVec 1 := w.extractLsb' 11 1

/-- KSEL, bits 13:12 (R72). -/
def kselField (w : Word) : BitVec 2 := w.extractLsb' 12 2

/-- Bits 15:14, reserved (R72). -/
def reserved15 (w : Word) : BitVec 2 := w.extractLsb' 14 2

/-- TONE, bit 16 (R72). -/
def toneField (w : Word) : Bool := w.getLsbD 16

/-- LVL, bit 17 (R72). -/
def lvlField (w : Word) : Bool := w.getLsbD 17

/-- MIX, bit 18 (R72). -/
def mixField (w : Word) : Bool := w.getLsbD 18

/-- Bits 31:19, reserved (R72). -/
def reserved31 (w : Word) : BitVec 13 := w.extractLsb' 19 13

/-- The opcode map (R76): the command OPC selects, with the word's own fields; none where OPC is reserved. -/
def selectInstr (w : Word) : Option Instr :=
  match (opcField w).toNat with
  | 0x00 => some .nop
  | 0x01 => some .dlCreate
  | 0x02 => some .dlCreateMs
  | 0x03 => some .dlCreateFrac
  | 0x04 => some .dlRead
  | 0x05 => some .dlWrite
  | 0x06 => some .dlStep
  | 0x08 => some .oscValue
  | 0x10 => some .delay
  | 0x11 => some .reverb
  | 0x12 => some .flangerMod
  | 0x13 => some .flangerManual
  | 0x20 => some .tremolo
  | 0x21 => some .chorus
  | 0x22 => some .wahwah
  | 0x30 => some (.waveshape (kselField w) (toneField w) (lvlField w) (mixField w))
  | 0x38 => some .compress
  | 0x40 => some (.eq7 (nbField w))
  | 0x48 => some .tuner
  | _ => none

/-- NB is used by EQ7 alone (R72). -/
def usesNb : Instr → Bool
  | .eq7 _ => true
  | .nop | .dlCreate | .dlCreateMs | .dlCreateFrac | .dlRead | .dlWrite | .dlStep | .oscValue
  | .delay | .reverb | .flangerMod | .flangerManual | .tremolo | .chorus | .wahwah
  | .waveshape _ _ _ _ | .compress | .tuner => false

/-- KSEL, TONE, LVL and MIX are used by WAVESHAPE alone (R72). -/
def usesStages : Instr → Bool
  | .waveshape _ _ _ _ => true
  | .nop | .dlCreate | .dlCreateMs | .dlCreateFrac | .dlRead | .dlWrite | .dlStep | .oscValue
  | .delay | .reverb | .flangerMod | .flangerManual | .tremolo | .chorus | .wahwah
  | .compress | .eq7 _ | .tuner => false

/-- The field rules of R79 for the command `i` that OPC selects: reserved bits 0, fields the opcode does not
use 0, and KSEL not 3. -/
def fieldsOk (i : Instr) (w : Word) : Bool :=
  reserved11 w == 0#1 && reserved15 w == 0#2 && reserved31 w == 0#13
    && (usesNb i || nbField w == 0#3)
    && (usesStages i || (kselField w == 0#2 && !toneField w && !lvlField w && !mixField w))
    && i.wellFormed

/-- Steps 1 and 2 of validation (R82): BAD_OPCODE before BAD_FIELD, else the command. -/
def decode (w : Word) : Except Reject Instr :=
  match selectInstr w with
  | none => .error .badOpcode
  | some i => if fieldsOk i w then .ok i else .error .badField

/-- The OPC of a command (R76). -/
def opcodeOf : Instr → BitVec 8
  | .nop => 0x00#8
  | .dlCreate => 0x01#8
  | .dlCreateMs => 0x02#8
  | .dlCreateFrac => 0x03#8
  | .dlRead => 0x04#8
  | .dlWrite => 0x05#8
  | .dlStep => 0x06#8
  | .oscValue => 0x08#8
  | .delay => 0x10#8
  | .reverb => 0x11#8
  | .flangerMod => 0x12#8
  | .flangerManual => 0x13#8
  | .tremolo => 0x20#8
  | .chorus => 0x21#8
  | .wahwah => 0x22#8
  | .waveshape _ _ _ _ => 0x30#8
  | .compress => 0x38#8
  | .eq7 _ => 0x40#8
  | .tuner => 0x48#8

/-- A word from its fields, the reserved bits 0 (R72). -/
def packFields (opc : BitVec 8) (nb : BitVec 3) (ksel : BitVec 2) (tone lvl mix : Bool) : Word :=
  0#13 ++ BitVec.ofBool mix ++ BitVec.ofBool lvl ++ BitVec.ofBool tone ++ 0#2 ++ ksel ++ 0#1 ++ nb ++ opc

/-- The word of a command: its OPC with its fields and every other bit 0 (R87). -/
def encode (i : Instr) : Word :=
  match i with
  | .waveshape ksel tone lvl mix => packFields (opcodeOf i) 0#3 ksel tone lvl mix
  | .eq7 nb => packFields (opcodeOf i) nb 0#2 false false false
  | .nop | .dlCreate | .dlCreateMs | .dlCreateFrac | .dlRead | .dlWrite | .dlStep | .oscValue
  | .delay | .reverb | .flangerMod | .flangerManual | .tremolo | .chorus | .wahwah
  | .compress | .tuner => packFields (opcodeOf i) 0#3 0#2 false false false

/-- The command word of an instruction whose bits are `w`, `nbits` of them given and the rest 0: a command
is one 32-bit word (R72, R73). -/
def tableWord (nbits w : Nat) : Word := BitVec.ofNat 32 (w % 2 ^ nbits)

/-- What the decoder reads from an instruction whose bits are `w` (`nbits` of them). -/
def decodeTableWord (nbits w : Nat) : Option Instr :=
  match decode (tableWord nbits w) with
  | .ok i => some i
  | .error _ => none

end Sys2Proof
end

