-- ==== Sys2Proof/Machine/Float.lean ====
section
/-! DEFINITION. Binary32 arithmetic: 00_scope R12 to R18. Every finite F32 is a whole multiple of 2^-149,
so each operation is computed exactly on integers and rounded once. -/

namespace Sys2Proof.Machine

/-- The canonical NaN of R14. -/
def canonicalNaN : F32 := 0x7FC00000#32

/-- `+0.0`. -/
def fZero : F32 := 0x00000000#32

/-- `-0.0`. -/
def fNegZero : F32 := 0x80000000#32

/-- `f:0.5`. -/
def fHalf : F32 := 0x3F000000#32

/-- `f:1.0`. -/
def fOne : F32 := 0x3F800000#32

/-- `f:-1.0`. -/
def fNegOne : F32 := 0xBF800000#32

/-- `f:10.0`. -/
def fTen : F32 := 0x41200000#32

/-- `f:15.0`. -/
def fFifteen : F32 := 0x41700000#32

/-- `f:20.0`. -/
def fTwenty : F32 := 0x41A00000#32

/-- `f:30.0`. -/
def fThirty : F32 := 0x41F00000#32

/-- `f:1000.0`. -/
def fThousand : F32 := 0x447A0000#32

/-- `+Inf`. -/
def fInf : F32 := 0x7F800000#32

/-- The biased exponent, bits 30:23 (R12). -/
def expBits (v : F32) : Nat := (v.extractLsb' 23 8).toNat

/-- The fraction, bits 22:0 (R12). -/
def fracBits (v : F32) : Nat := (v.extractLsb' 0 23).toNat

/-- Bits 30:0: among values that are not NaNs these order by magnitude. -/
def magBits (v : F32) : Nat := (v.extractLsb' 0 31).toNat

/-- The sign, bit 31 (R12). -/
def signBit (v : F32) : Bool := v.msb

/-- R15: `v[30:23] != 0xFF`. -/
def isFinite (v : F32) : Bool := expBits v != 0xFF

/-- Exponent all ones and a fraction that is not 0. -/
def isNaN (v : F32) : Bool := expBits v == 0xFF && fracBits v != 0

/-- Exponent all ones and fraction 0. -/
def isInf (v : F32) : Bool := expBits v == 0xFF && fracBits v == 0

/-- `+0.0` or `-0.0`. -/
def isZero (v : F32) : Bool := magBits v == 0

/-- R15: bit 31 cleared. -/
def fabs (v : F32) : F32 := v &&& 0x7FFFFFFF#32

/-- R15: bit 31 inverted. -/
def fneg (v : F32) : F32 := v ^^^ 0x80000000#32

/-- The magnitude of a finite F32 in units of 2^-149; exponent field 0 holds the subnormals. -/
def fMag (v : F32) : Nat :=
  if expBits v = 0 then fracBits v else (2 ^ 23 + fracBits v) <<< (expBits v - 1)

/-- The value of a finite F32 in units of 2^-149. -/
def fVal (v : F32) : Int := if signBit v then -(fMag v : Int) else (fMag v : Int)

/-- 1.0 in units of 2^-149. -/
def fUnit : Nat := 2 ^ 149

/-- The integer nearest to `num / d`, ties to even. -/
def roundEven (num d : Nat) : Nat :=
  let m := num / d
  let r := num % d
  if d < 2 * r ∨ (2 * r = d ∧ m % 2 = 1) then m + 1 else m

/-- How many low bits of the integer part `q` fall outside a 24-bit significand. -/
def quantumExp (q : Nat) : Nat := Nat.log2 q + 1 - 24

/-- Bits 30:0 of the F32 nearest to `num / den` units of 2^-149, ties to even (R13): the quantum is
`2^k` units, the rounded quotient keeps at most 24 bits, its carry moves into the exponent field, and a magnitude
that reaches 2^128 becomes infinity. -/
def roundMag (num den : Nat) : Nat :=
  let k := quantumExp (num / den)
  min (k * 2 ^ 23 + roundEven num (den <<< k)) 0x7F800000

/-- An F32 from its sign and its bits 30:0. -/
def packSign (sign : Bool) (mag : Nat) : F32 :=
  BitVec.ofNat 32 (if sign then 2 ^ 31 + mag else mag)

/-- R13: one rounding of the exact signed value `num / den` units of 2^-149. -/
def roundSigned (sign : Bool) (num den : Nat) : F32 := packSign sign (roundMag num den)

/-- R13, R14: binary32 addition. An exact zero sum is `-0.0` only when both operands are `-0.0`. -/
def fadd (a b : F32) : F32 :=
  if isNaN a || isNaN b then canonicalNaN
  else if isInf a then
    if isInf b && signBit a != signBit b then canonicalNaN else a
  else if isInf b then b
  else
    let z := fVal a + fVal b
    if z = 0 then packSign (signBit a && signBit b) 0
    else roundSigned (decide (z < 0)) z.natAbs 1

/-- R13, R14: binary32 subtraction. -/
def fsub (a b : F32) : F32 := fadd a (fneg b)

/-- R13, R14: binary32 multiplication. -/
def fmul (a b : F32) : F32 :=
  let sign := signBit a != signBit b
  if isNaN a || isNaN b then canonicalNaN
  else if isInf a || isInf b then
    if isZero a || isZero b then canonicalNaN else packSign sign 0x7F800000
  else roundSigned sign (fMag a * fMag b) fUnit

/-- R13, R14: binary32 division. -/
def fdiv (a b : F32) : F32 :=
  let sign := signBit a != signBit b
  if isNaN a || isNaN b then canonicalNaN
  else if isInf a then
    if isInf b then canonicalNaN else packSign sign 0x7F800000
  else if isInf b then packSign sign 0
  else if isZero b then
    if isZero a then canonicalNaN else packSign sign 0x7F800000
  else roundSigned sign (fMag a * fUnit) (fMag b)

/-- An integer that orders the values that are not NaNs, the infinities included, and gives both zeros 0. -/
def fKey (v : F32) : Int := if signBit v then -(magBits v : Int) else (magBits v : Int)

/-- R15: the ordered comparison `a < b`. -/
def flt (a b : F32) : Bool := !isNaN a && !isNaN b && decide (fKey a < fKey b)

/-- R15: the ordered comparison `a <= b`. -/
def fle (a b : F32) : Bool := !isNaN a && !isNaN b && decide (fKey a ≤ fKey b)

/-- R16: a u32 to the nearest F32, ties to even. -/
def u32tof (n : Word) : F32 := roundSigned false (n.toNat * fUnit) 1

/-- R17: the nearest integer to a finite F32, halves away from zero. -/
def roundHA (v : F32) : Int :=
  let m := (2 * fMag v + fUnit) / (2 * fUnit)
  if signBit v then -(m : Int) else (m : Int)

/-- R18: the hard clip to [-1, 1]. -/
def clip (v : F32) : F32 :=
  if flt fOne v then fOne else if flt v fNegOne then fNegOne else v

end Sys2Proof.Machine
end

