-- ==== Sys2Proof/Config.lean ====
section
/-! DEFINITION. What an implementation fixes and what the spec leaves open: 00_scope section 3, 93 section 1.
Every open value is an opaque constant: nothing in Lean can compute it. -/

namespace Sys2Proof.Config

open Sys2Proof.Machine

/-- R5, R40: the sample rate 44100.0. -/
def fs : F32 := 0x472C4400#32

/-- R21: the F32 nearest to 2π. -/
def twoPi : F32 := 0x40C90FDB#32

/-- R6: DL_DEPTH less one; any value below 2^24 (log 5). -/
opaque dlDepthLessOne : Fin (2 ^ 24)

/-- R7: N_MAX less one; any value below 2^20 (log 5). -/
opaque nMaxLessOne : Fin (2 ^ 20)

/-- R6: the OPEN parameter `DL_DEPTH`, `1 <= DL_DEPTH <= 2^24`. -/
def dlDepth : Nat := dlDepthLessOne.val + 1

/-- R7: the OPEN parameter `N_MAX`, `1 <= N_MAX <= 2^20`. -/
def nMax : Nat := nMaxLessOne.val + 1

/-- R142, 93 U7 and U8: the draws, any 32-bit patterns, one for each read of an unwritten word (log 3). -/
opaque freeWord : Nat → Word

/-- R86, 93 U11: how many host events reach the block between one acceptance and the completion (log 2). -/
opaque busyEvents : Nat → Nat

/-- Shows that a function with the properties of R19 exists; no rule uses it. -/
def sinWitness (v : F32) : F32 :=
  if isFinite v then (if v = fNegZero then fNegZero else fZero) else canonicalNaN

theorem sinWitness_bounded (v : F32) (hv : isFinite v = true) :
    isFinite (sinWitness v) = true ∧ fle fNegOne (sinWitness v) = true ∧ fle (sinWitness v) fOne = true := by
  unfold sinWitness
  rw [if_pos hv]
  split <;> decide

theorem sinWitness_nonfinite (v : F32) (hv : isFinite v = false) : isNaN (sinWitness v) = true := by
  unfold sinWitness
  rw [if_neg (by simp [hv])]
  decide

/-- Shows that a function with the properties of R20 exists; no rule uses it. -/
def pow10Witness (v : F32) : F32 :=
  if fle fOne v then fTen else if fle fZero v then fOne else 0x3DCCCCCD#32

theorem pow10Witness_positive (v : F32) (_ : isFinite v = true) :
    signBit (pow10Witness v) = false ∧ isNaN (pow10Witness v) = false := by
  unfold pow10Witness
  split
  · decide
  · split <;> decide

theorem fle_trans (a b c : F32) (h1 : fle a b = true) (h2 : fle b c = true) : fle a c = true := by
  simp only [fle, Bool.and_eq_true, decide_eq_true_eq] at *
  exact ⟨⟨h1.1.1, h2.1.2⟩, le_trans h1.2 h2.2⟩

theorem pow10Witness_monotone (u v : F32) (h : fle u v = true) :
    fle (pow10Witness u) (pow10Witness v) = true := by
  have t1 := fun h' => fle_trans fOne u v h' h
  have t0 := fun h' => fle_trans fZero u v h' h
  have o := fle_trans fZero fOne v (by decide)
  unfold pow10Witness
  by_cases h1 : fle fOne u = true
  · rw [if_pos h1, if_pos (t1 h1)]; decide
  · rw [if_neg h1]
    by_cases h0 : fle fZero u = true
    · rw [if_pos h0]
      split
      · decide
      · rw [if_pos (t0 h0)]; decide
    · rw [if_neg h0]
      split
      · decide
      · split <;> decide

/-- R19: a function with the properties a model may assume of `sin` and no others (log 6). The default values
only show that there is one. -/
structure SinFn where
  /-- The function. -/
  f : F32 → F32 := sinWitness
  /-- `SIN(+0.0) = +0.0`. -/
  posZero : f fZero = fZero := by decide
  /-- `SIN(-0.0) = -0.0`. -/
  negZero : f fNegZero = fNegZero := by decide
  /-- For finite `v`, `SIN(v)` is finite and between -1.0 and 1.0. -/
  bounded : ∀ v, isFinite v = true →
    isFinite (f v) = true ∧ fle fNegOne (f v) = true ∧ fle (f v) fOne = true := by exact sinWitness_bounded
  /-- `SIN(v)` is a NaN when `v` is a NaN or infinite. -/
  nonfinite : ∀ v, isFinite v = false → isNaN (f v) = true := by exact sinWitness_nonfinite
deriving Inhabited

/-- R20: a function with the properties a model may assume of `10^x` and no others (log 6). The default values
only show that there is one. -/
structure Pow10Fn where
  /-- The function. -/
  f : F32 → F32 := pow10Witness
  /-- `POW10(+0.0) = f:1.0`. -/
  posZero : f fZero = fOne := by decide
  /-- `POW10(-0.0) = f:1.0`. -/
  negZero : f fNegZero = fOne := by decide
  /-- `POW10(f:1.0) = f:10.0`. -/
  one : f fOne = fTen := by decide
  /-- `POW10(f:-1.0)` is an F32 within one unit in the last place of 0.1. The unit there is 2^-27 and 0.1 is
  13421772.8 of it, so these are the two F32 around 0.1. -/
  negOne : f fNegOne = 0x3DCCCCCC#32 ∨ f fNegOne = 0x3DCCCCCD#32 := by decide
  /-- For finite `v`, `+0.0`, a positive finite F32 or `+Inf`, and never a NaN. -/
  positive : ∀ v, isFinite v = true → signBit (f v) = false ∧ isNaN (f v) = false := by exact pow10Witness_positive
  /-- Non-decreasing. -/
  monotone : ∀ u v, fle u v = true → fle (f u) (f v) = true := by exact pow10Witness_monotone
deriving Inhabited

/-- R8, R19: the configuration function SIN. -/
opaque sinFn : SinFn

/-- R8, R20: the configuration function POW10. -/
opaque pow10Fn : Pow10Fn

end Sys2Proof.Config
end

