-- ==== Sys2Proof/Machine/State.lean ====
section
/-! DEFINITION. The state of the block (10_state), what can stop it, and the state after reset (10_state section 7). -/

namespace Sys2Proof.Machine

/-- STATUS (10_state R32). Its reserved bits read 0 and are not stored. -/
structure Status where
  /-- Bit 0: 1 from the acceptance of a command to its completion. -/
  busy : Bool
  /-- Bit 1: the last accepted command has completed, rejected or not. -/
  done : Bool
  /-- Bit 2: the last accepted command was rejected. -/
  err : Bool
  /-- Bit 3, sticky: a command has written a NaN or an infinity. -/
  nonfinite : Bool
  /-- Bits 15:8: the rejection code while ERR = 1. -/
  errcode : BitVec 8
deriving DecidableEq, Repr

/-- IRQEN (10_state R33). Bits 31:3 read 0 and are not stored. -/
structure IrqEnable where
  /-- Bit 0, DONE_IE. -/
  doneIe : Bool
  /-- Bit 1, ERR_IE. -/
  errIe : Bool
  /-- Bit 2, NF_IE. -/
  nfIe : Bool
deriving DecidableEq, Repr

/-- The derived constants a running command holds (10_state R30, 30_encoding R83); those it does not compute
are +0.0, and all are +0.0 while no command runs (log 7). -/
structure Derived where
  /-- `f:1.0 - mix` of DL_STEP, DELAY, REVERB and WAVESHAPE. -/
  omix : F32 := 0#32
  /-- `maxFreq - minFreq` of WAHWAH. -/
  span : F32 := 0#32
  /-- The divisor `Kf` of WAVESHAPE. -/
  kf : F32 := 0#32
  /-- `tone / f:10.0` of WAVESHAPE. -/
  ts : F32 := 0#32
  /-- `level / f:10.0` of WAVESHAPE. -/
  ls : F32 := 0#32
  /-- The linear threshold of COMPRESS. -/
  t : F32 := 0#32
  /-- `level / f:10.0` of COMPRESS. -/
  lv : F32 := 0#32
  /-- The gain of EQ7. -/
  gain : F32 := 0#32
deriving DecidableEq, Repr

/-- The size of a host access (20_memory R54). -/
inductive AccessSize where
  | byte
  | half
  | word
deriving DecidableEq, Repr

/-- What the host can do to the block: a bus access at a byte offset from the block's base (20_memory R53, R61),
or a reset (70_reset_and_hazards R137). -/
inductive HostEvent where
  | read (addr : BitVec 24) (size : AccessSize)
  | write (addr : BitVec 24) (size : AccessSize) (data : Word)
  | reset
deriving DecidableEq, Repr

/-- The response to a bus access (20_memory R53). -/
inductive Response where
  /-- A write's OKAY. -/
  | okay
  /-- A read's OKAY with its data. -/
  | data (v : Word)
  /-- ERROR: no state of the block has changed. -/
  | error
deriving DecidableEq, Repr

/-- The state of the block, and below it the model's own fields. -/
structure State where
  /-- CMD: the last accepted command word (R31). -/
  cmd : Word
  /-- STATUS (R32). -/
  status : Status
  /-- IRQEN (R33). -/
  irqen : IrqEnable
  /-- LEN: the frame length N (R34). -/
  len : Word
  /-- ARG (R35). -/
  arg : Word
  /-- ARG2 (R36). -/
  arg2 : Word
  /-- VAL (R37). -/
  val : Word
  /-- RESULT (R38). -/
  result : Word
  /-- CAP: the capacity of the delay line (R39). -/
  cap : Word
  /-- DLDEPTH: the parameter DL_DEPTH, never written (R41, log 5). -/
  dlDepth : Word
  /-- NMAX: the parameter N_MAX, never written (R42, log 5). -/
  nMax : Word
  /-- P0 to P7 (R43). -/
  p : Vector Word 8
  /-- BAND0 to BAND6 (R44). -/
  band : Vector Word 7
  /-- IN_RAM (R45). -/
  inRam : List Host.Cell
  /-- OUT_RAM (R46). -/
  outRam : List Host.Cell
  /-- DL_RAM (R47). -/
  dlRam : List Host.Cell
  /-- The sample counter of a running frame command (R29); 0 while none runs (log 7). -/
  sample : Word
  /-- The derived constants of a running command (R30). -/
  derived : Derived
  /-- `nf` of a running command (30_encoding R81); false while none runs (log 7). -/
  nf : Bool
  /-- The model's: how many more host events reach the block before the accepted command completes (log 2). -/
  busyLeft : Nat
  /-- The model's: how many free values have been drawn (log 3). -/
  draws : Nat
  /-- The model's: what the host will do, the next event first (log 1). -/
  hostQueue : List HostEvent
  /-- The model's: the bus responses given, the latest first (log 1). -/
  responses : List Response
deriving DecidableEq, Repr

/-- The spec gives the block nothing that stops it: a bad command is a rejection and a bad access an ERROR
response, both next states (60_exceptions R123, R129; log 9). So no fault exists and none is raised. -/
inductive Fault where
deriving DecidableEq, Repr

/-- Why the model gives no next state. -/
inductive Refusal where
  /-- Raised by an arm of `exec` whose command has no meaning yet; safe, since the model stops. No arm does so. -/
  | notModelled (mnemonic : String)
deriving DecidableEq, Repr

/-- The state after reset (10_state section 7, 70_reset_and_hazards R137). IN, OUT and DL hold no listed byte;
`sample`, `derived`, `nf` and the model's own fields are at the values of logs 1, 2, 3 and 7. -/
def State.reset : State where
  cmd := 0#32
  status := { busy := false, done := false, err := false, nonfinite := false, errcode := 0#8 }
  irqen := { doneIe := false, errIe := false, nfIe := false }
  len := 0#32
  arg := 0#32
  arg2 := 0#32
  val := 0#32
  result := 0#32
  cap := 1#32
  dlDepth := BitVec.ofNat 32 Config.dlDepth
  nMax := BitVec.ofNat 32 Config.nMax
  p := Vector.replicate 8 0#32
  band := Vector.replicate 7 0#32
  inRam := []
  outRam := []
  dlRam := []
  sample := 0#32
  derived := {}
  nf := false
  busyLeft := 0
  draws := 0
  hostQueue := []
  responses := []

end Sys2Proof.Machine
end

