-- ==== Sys2Proof/Machine/Flags.lean ====
section
/-! DEFINITION. STATUS, IRQEN and the interrupt line: every rule by which a flag is read or changed
(10_state R32, R33, R50; 30_encoding R80, R85; 60_exceptions R127, R128). -/

namespace Sys2Proof.Machine

/-- STATUS as the host reads it; bits 7:4 and 31:16 are 0 (R32). -/
def statusWord (st : Status) : Word :=
  0#16 ++ st.errcode ++ 0#4 ++ BitVec.ofBool st.nonfinite ++ BitVec.ofBool st.err ++ BitVec.ofBool st.done
    ++ BitVec.ofBool st.busy

/-- A host write to STATUS: each W1C field written with 1 is cleared, and ERRCODE with ERR (R32). -/
def clearStatus (v : Word) (st : Status) : Status :=
  { st with
    done := st.done && !v.getLsbD 1
    err := st.err && !v.getLsbD 2
    nonfinite := st.nonfinite && !v.getLsbD 3
    errcode := if v.getLsbD 2 then 0#8 else st.errcode }

/-- IRQEN as the host reads it (R33). -/
def irqenWord (e : IrqEnable) : Word :=
  0#29 ++ BitVec.ofBool e.nfIe ++ BitVec.ofBool e.errIe ++ BitVec.ofBool e.doneIe

/-- IRQEN after a host write (R33). -/
def irqenOf (v : Word) : IrqEnable :=
  { doneIe := v.getLsbD 0, errIe := v.getLsbD 1, nfIe := v.getLsbD 2 }

/-- STATUS at acceptance: BUSY set, DONE, ERR and ERRCODE cleared, NONFINITE kept (30_encoding R80). -/
def acceptStatus (st : Status) : Status :=
  { st with busy := true, done := false, err := false, errcode := 0#8 }

/-- STATUS at completion (30_encoding R85). -/
def completeStatus (e : Option Reject) (nf : Bool) (st : Status) : Status :=
  { busy := false
    done := true
    err := st.err || e.isSome
    errcode := match e with
      | some r => rejectCode r
      | none => st.errcode
    nonfinite := st.nonfinite || nf }

/-- The interrupt output (60_exceptions R128). -/
def State.irq (s : State) : Bool :=
  (s.status.done && s.irqen.doneIe) || (s.status.err && s.irqen.errIe) || (s.status.nonfinite && s.irqen.nfIe)

end Sys2Proof.Machine
end

