-- ==== Sys2Proof/Machine/Memory.lean ====
section
/-! DEFINITION. The three sample memories as sparse byte lists, and their word accesses (20_memory R52, R58, R59). -/

namespace Sys2Proof.Machine

/-- The block's own memories (R52). -/
inductive Ram where
  /-- IN_RAM (10_state R45). -/
  | input
  /-- OUT_RAM (10_state R46). -/
  | output
  /-- DL_RAM (10_state R47). -/
  | line
deriving DecidableEq, Repr

/-- What a byte that the list does not hold reads as. IN and OUT words not written since reset have no value of
their own (R45, R46): a read of one is a draw (log 3). A DL byte is 0, as 93 U9 allows (log 4). -/
def unlisted : Ram → Option Byte
  | .input | .output => none
  | .line => some 0#8

/-- The byte the list holds at an address. -/
def Memory.find : List Host.Cell → Nat → Option Byte
  | [], _ => none
  | c :: m, a => if c.1 = a then some c.2 else Memory.find m a

/-- The list with one byte set, addresses kept rising. -/
def Memory.insert : List Host.Cell → Nat → Byte → List Host.Cell
  | [], a, b => [(a, b)]
  | c :: m, a, b =>
    if a < c.1 then (a, b) :: c :: m
    else if a = c.1 then (a, b) :: m
    else c :: Memory.insert m a b

/-- The list without the byte at an address. -/
def Memory.erase (m : List Host.Cell) (a : Nat) : List Host.Cell := m.filter (fun c => c.1 != a)

/-- One byte of a memory; none where nothing has written it and it has no value. -/
def Memory.loadByte (r : Ram) (m : List Host.Cell) (a : Nat) : Option Byte :=
  match Memory.find m a with
  | some b => some b
  | none => unlisted r

/-- One byte written; the byte an unlisted address reads as is not listed. -/
def Memory.storeByte (r : Ram) (m : List Host.Cell) (a : Nat) (b : Byte) : List Host.Cell :=
  if unlisted r = some b then Memory.erase m a else Memory.insert m a b

/-- Byte lane `n` of a word: lane 0 carries bits 7:0, lane 3 bits 31:24 (R58). -/
def byteLane (v : Word) (n : Nat) : Byte := v.extractLsb' (8 * n) 8

/-- The word its four byte lanes make (R58). -/
def joinLanes (b0 b1 b2 b3 : Byte) : Word := b3 ++ b2 ++ b1 ++ b0

/-- Word `k` of a memory, whole (R59): it stands at bytes `4k` to `4k + 3`. -/
def Memory.loadWord (r : Ram) (m : List Host.Cell) (k : Nat) : Option Word :=
  match Memory.loadByte r m (4 * k), Memory.loadByte r m (4 * k + 1),
      Memory.loadByte r m (4 * k + 2), Memory.loadByte r m (4 * k + 3) with
  | some b0, some b1, some b2, some b3 => some (joinLanes b0 b1 b2 b3)
  | _, _, _, _ => none

/-- Word `k` of a memory written whole (R59). -/
def Memory.storeWord (r : Ram) (m : List Host.Cell) (k : Nat) (v : Word) : List Host.Cell :=
  let m := Memory.storeByte r m (4 * k) (byteLane v 0)
  let m := Memory.storeByte r m (4 * k + 1) (byteLane v 1)
  let m := Memory.storeByte r m (4 * k + 2) (byteLane v 2)
  Memory.storeByte r m (4 * k + 3) (byteLane v 3)

/-- Words 0 to `c - 1` of DL_RAM set to +0.0, which is what an unlisted one reads as (40_delay_line R89). -/
def Memory.zeroWords (m : List Host.Cell) (c : Nat) : List Host.Cell :=
  m.filter (fun cell => decide (4 * c ≤ cell.1))

/-- The canonical form: addresses strictly rising, and no byte listed that an unlisted address reads as. -/
abbrev Memory.wf (r : Ram) (m : List Host.Cell) : Prop :=
  m.Pairwise (fun a b => a.1 < b.1) ∧ ∀ c ∈ m, unlisted r ≠ some c.2

/-- Every listed byte belongs to one of the first `n` words. -/
abbrev Memory.within (n : Nat) (m : List Host.Cell) : Prop := ∀ c ∈ m, c.1 < 4 * n

end Sys2Proof.Machine
end

