-- ==== Sys2Proof/Machine/Ops.lean ====
section
/-! DEFINITION. The operations every command is made of: memory accesses, the delay line, the frame loop, and the
life of a command with its rejection (30_encoding R80 to R85, 40_delay_line R89 to R92). -/

namespace Sys2Proof.Machine

/-- A free value: any word, a new one each time (R142, log 3). -/
def drawWord (s : State) : Word × State :=
  (Config.freeWord s.draws, { s with draws := s.draws + 1 })

/-- `IN[k]`; a word the host has not written since reset is a draw (10_state R45, R142). -/
def readIn (k : Nat) (s : State) : Word × State :=
  match Memory.loadWord .input s.inRam k with
  | some v => (v, s)
  | none => drawWord s

/-- `OUT[k]`; a word no command has written since reset is a draw (10_state R46, 93 U8). -/
def readOut (k : Nat) (s : State) : Word × State :=
  match Memory.loadWord .output s.outRam k with
  | some v => (v, s)
  | none => drawWord s

/-- The running command has written the F32 `v`: `nf` if it is not finite (60_exceptions R127). -/
def noteF32 (v : F32) (s : State) : State := { s with nf := s.nf || !isFinite v }

/-- `OUT[k] <- v`. -/
def writeOut (k : Nat) (v : F32) (s : State) : State :=
  noteF32 v { s with outRam := Memory.storeWord .output s.outRam k v }

/-- `RESULT <- v` for an F32 (10_state R38, R127). -/
def setResultF32 (v : F32) (s : State) : State := noteF32 v { s with result := v }

/-- `RESULT <- c` for a u32 capacity, which `nf` does not look at (R127). -/
def setResultU32 (c : Word) (s : State) : State := { s with result := c }

/-- The word of the delay line that sample index `i` goes to, `i mod CAP` (10_state R48). -/
def dlIndex (i : Word) (s : State) : Nat := i.toNat % s.cap.toNat

/-- `dlread(i)` (40_delay_line R90). -/
def dlRead (i : Word) (s : State) : F32 := (Memory.loadWord .line s.dlRam (dlIndex i s)).getD fZero

/-- `dlwrite(i, v)` (40_delay_line R91). -/
def dlWrite (i : Word) (v : F32) (s : State) : State :=
  noteF32 v { s with dlRam := Memory.storeWord .line s.dlRam (dlIndex i s) v }

/-- `create(c)` (40_delay_line R89). -/
def createLine (c : Word) (s : State) : State :=
  { s with cap := c, dlRam := Memory.zeroWords s.dlRam c.toNat }

/-- `delayed` at index `i`: +0.0 below CAP, else the line (40_delay_line R92). -/
def delayedAt (i : Word) (s : State) : F32 := if i.toNat < s.cap.toNat then fZero else dlRead i s

/-- `delay_body(i, x, mix, omix, fb)` (40_delay_line R92): the output and the state after the write. -/
def delayBody (i : Word) (x mix omix fb : F32) (s : State) : F32 × State :=
  let delayed := delayedAt i s
  (fadd (fmul x omix) (fmul delayed mix), dlWrite i (fadd x (fmul delayed fb)) s)

/-- One per-sample body and the counter's move to the next index (10_state R29). -/
def sampleStep (body : State → State) (s : State) : State :=
  let s := body s
  { s with sample := s.sample + 1#32 }

/-- The first `n` per-sample bodies, in strictly increasing index order (20_memory R64). -/
def frameLoop (body : State → State) : Nat → State → State
  | 0, s => s
  | n + 1, s => sampleStep body (frameLoop body n s)

/-- The frame template without `create`: N = LEN bodies, the counter from 0 (30_encoding R84). -/
def runFrame (body : State → State) (s : State) : State :=
  frameLoop body s.len.toNat { s with sample := 0#32 }

/-- What validation hands to the execution: the capacity of a creating command and the derived constants
(10_state R30, 30_encoding R82, R83). -/
structure Plan where
  /-- The capacity; unused by a command that creates no line. -/
  cap : Word := 1#32
  /-- The derived constants; +0.0 where the command has none. -/
  derived : Derived := {}
deriving DecidableEq, Repr

/-- A host write of `w` to CMD while BUSY = 0 (30_encoding R80): the command is accepted. How many host events
fall before it completes is drawn (R86, log 2). -/
def accept (w : Word) (s : State) : State :=
  { s with
    cmd := w
    status := acceptStatus s.status
    busyLeft := Config.busyEvents s.draws
    draws := s.draws + 1 }

/-- The running command starts: `nf <- false`, no constants held, the counter at 0 (30_encoding R81). -/
def beginRun (s : State) : State := { s with nf := false, sample := 0#32, derived := {} }

/-- Completion, and with `some e` the rejection `raise Reject(e)`: the ONE operation by which a command is
rejected (30_encoding R85, 60_exceptions R123). STATUS alone shows it; what the command held is gone (R30). -/
def complete (e : Option Reject) (s : State) : State :=
  { s with
    status := completeStatus e s.nf s.status
    nf := false
    sample := 0#32
    derived := {}
    busyLeft := 0 }

/-- `run(w)` for a word that decodes (30_encoding R81): validate, then reject or execute, then complete. -/
def runCommand (validate : State → Except Reject Plan) (execute : Plan → State → State) (s : State) :
    Host.Outcome State Fault Refusal :=
  let s := beginRun s
  match validate s with
  | .error e => .next (complete (some e) s)
  | .ok plan => .next (complete none (execute plan { s with derived := plan.derived }))

/-- `run(w)` for a word that decoding rejects: BAD_OPCODE or BAD_FIELD (30_encoding R78, R79, R81). -/
def rejectWord (e : Reject) (s : State) : Host.Outcome State Fault Refusal :=
  .next (complete (some e) (beginRun s))

end Sys2Proof.Machine
end

