-- ==== Sys2Proof/Machine/Bus.lean ====
section
/-! DEFINITION. The host's side: the register map, the windows, bus accesses, reset, and what happens next
(10_state section 3, 20_memory R53 to R61, 30_encoding R86, 70_reset_and_hazards R137 to R143). -/

namespace Sys2Proof.Machine

/-- The registers of the map (10_state section 3). -/
inductive Reg where
  | cmd | status | irqen | len | arg | arg2 | val | result | cap | fs | dlDepth | nMax
  | p (k : Fin 8)
  | band (k : Fin 7)
deriving DecidableEq, Repr

/-- What an aligned bus address names (20_memory R61). -/
inductive Target where
  | reg (r : Reg)
  | input (k : Nat)
  | output (k : Nat)
  | reserved
deriving DecidableEq, Repr

/-- The register at word offset `n` of the register file, byte offset `4n` (10_state section 3). -/
def regAt (n : Nat) : Option Reg :=
  match n with
  | 0 => some .cmd
  | 1 => some .status
  | 2 => some .irqen
  | 3 => some .len
  | 4 => some .arg
  | 5 => some .arg2
  | 6 => some .val
  | 7 => some .result
  | 8 => some .cap
  | 9 => some .fs
  | 10 => some .dlDepth
  | 11 => some .nMax
  | 16 => some (.p 0)
  | 17 => some (.p 1)
  | 18 => some (.p 2)
  | 19 => some (.p 3)
  | 20 => some (.p 4)
  | 21 => some (.p 5)
  | 22 => some (.p 6)
  | 23 => some (.p 7)
  | 24 => some (.band 0)
  | 25 => some (.band 1)
  | 26 => some (.band 2)
  | 27 => some (.band 3)
  | 28 => some (.band 4)
  | 29 => some (.band 5)
  | 30 => some (.band 6)
  | _ => none

/-- What an aligned byte address names: registers, the IN window at 0x400000, the OUT window at 0x800000, words
below N_MAX of each, all else reserved (20_memory R56, R61). -/
def targetAt (nMax : Word) (addr : BitVec 24) : Target :=
  let a := addr.toNat
  if a < 0x400000 then
    match regAt (a / 4) with
    | some r => .reg r
    | none => .reserved
  else if a < 0x800000 then
    (if (a - 0x400000) / 4 < nMax.toNat then .input ((a - 0x400000) / 4) else .reserved)
  else if a < 0xC00000 then
    (if (a - 0x800000) / 4 < nMax.toNat then .output ((a - 0x800000) / 4) else .reserved)
  else .reserved

/-- A whole aligned word access; no other exists (20_memory R54). -/
def wholeWord (addr : BitVec 24) (size : AccessSize) : Bool :=
  size == .word && addr.toNat % 4 == 0

/-- A register as the host reads it (10_state R31 to R44). -/
def readReg (r : Reg) (s : State) : Word :=
  match r with
  | .cmd => s.cmd
  | .status => statusWord s.status
  | .irqen => irqenWord s.irqen
  | .len => s.len
  | .arg => s.arg
  | .arg2 => s.arg2
  | .val => s.val
  | .result => s.result
  | .cap => s.cap
  | .fs => Config.fs
  | .dlDepth => s.dlDepth
  | .nMax => s.nMax
  | .p k => s.p[k]
  | .band k => s.band[k]

/-- A host write to a register while BUSY = 0; none where the register is read-only (20_memory R55). A write to
CMD issues a command and a write to STATUS clears W1C fields; no other has a side effect (R60). -/
def writeReg (r : Reg) (v : Word) (s : State) : Option State :=
  match r with
  | .cmd => some (accept v s)
  | .status => some { s with status := clearStatus v s.status }
  | .irqen => some { s with irqen := irqenOf v }
  | .len => some { s with len := v }
  | .arg => some { s with arg := v }
  | .arg2 => some { s with arg2 := v }
  | .val => some { s with val := v }
  | .result => none
  | .cap => none
  | .fs => none
  | .dlDepth => none
  | .nMax => none
  | .p k => some { s with p := s.p.set k v }
  | .band k => some { s with band := s.band.set k v }

/-- The registers a read of which answers OKAY while BUSY = 1 (20_memory R57). -/
def busyReadable : Reg → Bool
  | .status | .fs | .dlDepth | .nMax => true
  | .cmd | .irqen | .len | .arg | .arg2 | .val | .result | .cap | .p _ | .band _ => false

/-- A bus read: the response and the state after it (20_memory R53 to R57). A read has no side effect on the
block (R60); only a word nothing has written draws a value (R142). -/
def busRead (addr : BitVec 24) (size : AccessSize) (s : State) : Response × State :=
  if wholeWord addr size then
    match targetAt s.nMax addr with
    | .reg r => if s.status.busy && !busyReadable r then (.error, s) else (.data (readReg r s), s)
    | .input k =>
      if s.status.busy then (.error, s) else let (v, s) := readIn k s; (.data v, s)
    | .output k =>
      if s.status.busy then (.error, s) else let (v, s) := readOut k s; (.data v, s)
    | .reserved => (.error, s)
  else (.error, s)

/-- A bus write: the response and the state after it (20_memory R53 to R57). -/
def busWrite (addr : BitVec 24) (size : AccessSize) (v : Word) (s : State) : Response × State :=
  if wholeWord addr size && !s.status.busy then
    match targetAt s.nMax addr with
    | .reg r =>
      match writeReg r v s with
      | some s => (.okay, s)
      | none => (.error, s)
    | .input k => (.okay, { s with inRam := Memory.storeWord .input s.inRam k v })
    | .output _ => (.error, s)
    | .reserved => (.error, s)
  else (.error, s)

/-- Reset (70_reset_and_hazards R137, R139): the reset state, a running command abandoned. The parameters are the
implementation's, and the host's events, the responses given and the count of draws are outside the block. -/
def resetBlock (s : State) : State :=
  { State.reset with
    dlDepth := s.dlDepth
    nMax := s.nMax
    draws := s.draws
    hostQueue := s.hostQueue
    responses := s.responses }

/-- The block answers a bus access. -/
def respond (rs : Response × State) : State := { rs.2 with responses := rs.1 :: rs.2.responses }

/-- One host event (20_memory R53, 70_reset_and_hazards R137). -/
def hostEvent (e : HostEvent) (s : State) : State :=
  match e with
  | .read addr size => respond (busRead addr size s)
  | .write addr size v => respond (busWrite addr size v s)
  | .reset => resetBlock s

/-- What happens next. -/
inductive Action where
  /-- Nothing runs and the host does nothing: the block holds its state (60_exceptions R136). -/
  | idle
  /-- The host's next event, `rest` the events after it and `left` the rest of the busy window. -/
  | serve (e : HostEvent) (rest : List HostEvent) (left : Nat)
  /-- The accepted command runs. -/
  | run (w : Word)
deriving DecidableEq, Repr

/-- While BUSY = 1 host events reach the block until the drawn number of them is used up or the host has none, then
the command runs, as one transition (30_encoding R86, log 2). Otherwise the host's next event is served. -/
def nextAction (s : State) : Action :=
  if s.status.busy then
    match s.busyLeft, s.hostQueue with
    | n + 1, e :: rest => .serve e rest n
    | _, _ => .run s.cmd
  else
    match s.hostQueue with
    | [] => .idle
    | e :: rest => .serve e rest s.busyLeft

/-- Serve one host event, taken from the queue. -/
def serve (e : HostEvent) (rest : List HostEvent) (left : Nat) (s : State) : State :=
  hostEvent e { s with hostQueue := rest, busyLeft := left }

/-- The state in which the host's write of `w` to CMD has been accepted and no further host event comes before
the command runs (30_encoding R80, log 8). -/
def acceptedAtOnce (w : Word) (s : State) : State :=
  { s with cmd := w, status := acceptStatus s.status, busyLeft := 0 }

end Sys2Proof.Machine
end

