-- ==== Sys2Proof/Machine/Operands.lean ====
section
/-! DEFINITION. How commands take their operands: capacities, the oscillator, the configuration functions, the
waveshaper's divisor and the validation checks (00_scope R19 to R26, 30_encoding R82). -/

namespace Sys2Proof.Machine

/-- `SIN(v)` (00_scope R19). At the zeros its value is known and is computed; elsewhere it is the opaque function. -/
def fsin (v : F32) : F32 := if isZero v then v else Config.sinFn.f v

/-- `POW10(v)` (00_scope R20). At the zeros and at 1.0 its value is known and is computed; elsewhere it is the
opaque function. -/
def fpow10 (v : F32) : F32 :=
  if isZero v then fOne else if v = fOne then fTen else Config.pow10Fn.f v

/-- The argument of SIN in `osc` (00_scope R22): `((TWO_PI · u32tof(i)) · rate) / FS`. -/
def oscPhase (i : Word) (rate : F32) : F32 :=
  fdiv (fmul (fmul Config.twoPi (u32tof i)) rate) Config.fs

/-- `osc(i, rate)` (00_scope R22); it keeps no state (41_oscillator R106). -/
def osc (i : Word) (rate : F32) : F32 := fsin (oscPhase i rate)

/-- `capClamp(c)` (00_scope R25), with DL_DEPTH given. -/
def capClamp (depth : Word) (c : F32) : Except Reject Word :=
  if isNaN c then .error .paramNonfinite
  else if isInf c then (if signBit c then .ok 1#32 else .error .capRange)
  else
    let n := roundHA c
    if n < 1 then .ok 1#32
    else if (depth.toNat : Int) < n then .error .capRange
    else .ok (BitVec.ofNat 32 n.toNat)

/-- `capMs(t)` (00_scope R23). -/
def capMs (depth : Word) (t : F32) : Except Reject Word := capClamp depth (fmul (fdiv t fThousand) Config.fs)

/-- `capFrac(s)` (00_scope R24). -/
def capFrac (depth : Word) (size : F32) : Except Reject Word := capClamp depth (fmul size Config.fs)

/-- `capArg(a)` (00_scope R26). -/
def capArg (depth : Word) (a : Word) : Except Reject Word :=
  if a = 0#32 then .ok 1#32 else if depth.toNat < a.toNat then .error .capRange else .ok a

/-- The divisor KSEL selects (42_waveshaper R112); 3 is reserved. -/
def divisorK (ksel : BitVec 2) : Except Reject F32 :=
  match ksel.toNat with
  | 0 => .ok fTen
  | 1 => .ok fTwenty
  | 2 => .ok fThirty
  | _ => .error .badField

/-- The EQ7 sum (44_band_gain R117): each band over 15, added in slot order from +0.0. -/
def bandSum (bands : List F32) : F32 := bands.foldl (fun acc b => fadd acc (fdiv b fFifteen)) fZero

/-- Validation step 3 (30_encoding R82): `LEN > N_MAX`. -/
def checkLen (s : State) : Except Reject Unit :=
  if s.nMax.toNat < s.len.toNat then .error .lenRange else .ok ()

/-- Validation step 4 (30_encoding R82): the validated parameters, in the order R75 lists them. -/
def checkFinite (params : List F32) : Except Reject Unit :=
  if params.all isFinite then .ok () else .error .paramNonfinite

/-- Validation step 5 (30_encoding R82): a sign check that fails where `bad`. -/
def checkSign (bad : Bool) (e : Reject) : Except Reject Unit := if bad then .error e else .ok ()

/-- Validation step 7 (30_encoding R82, R83): the derived constants that must be finite. -/
def checkDerived (constants : List F32) : Except Reject Unit :=
  if constants.all isFinite then .ok () else .error .derivedNonfinite

/-- The operands a stage reads when it is enabled (42_waveshaper R113). -/
def ifEnabled (b : Bool) (v : F32) : List F32 := if b then [v] else []

end Sys2Proof.Machine
end

