-- ==== Sys2Proof/Machine/BandGain.lean ====
section
/-! DEFINITION. EQ7 (44_band_gain). -/

namespace Sys2Proof.Machine

/-- The slots present, BAND0 to BAND(nb-1) (R117). -/
def bandsPresent (nb : BitVec 3) (s : State) : List F32 := s.band.toList.take nb.toNat

/-- Validation of EQ7 (R117): slots at nb and above are not read. -/
def checkEq7 (nb : BitVec 3) (s : State) : Except Reject Plan := do
  checkLen s
  checkFinite (bandsPresent nb s)
  let gain := fadd fOne (bandSum (bandsPresent nb s))
  checkDerived [gain]
  return { derived := { gain := gain } }

/-- One sample of EQ7 (R117). -/
def eq7Body (s : State) : State :=
  let i := s.sample
  let (x, s) := readIn i.toNat s
  writeOut i.toNat (fmul x s.derived.gain) s

/-- EQ7 (R117). -/
def execEq7 (nb : BitVec 3) (s : State) : Host.Outcome State Fault Refusal :=
  runCommand (checkEq7 nb) (fun _ => runFrame eq7Body) s

end Sys2Proof.Machine
end

