-- ==== Sys2Proof/Machine/Compressor.lean ====
section
/-! DEFINITION. COMPRESS (43_compressor). -/

namespace Sys2Proof.Machine

/-- Validation of COMPRESS (R115): P0 = thresholdDb, P1 = ratio, P2 = level. P3 and P4 are not read, and the
threshold need not be finite. -/
def checkCompress (s : State) : Except Reject Plan := do
  checkLen s
  checkFinite [s.p[0], s.p[1], s.p[2]]
  checkSign (fle s.p[1] fZero) .ratioNonpos
  let t := fpow10 (fdiv s.p[0] fTwenty)
  let lv := fdiv s.p[2] fTen
  checkDerived [lv]
  return { derived := { t := t, lv := lv } }

/-- One sample through the threshold, the ratio and the level (R115). -/
def compressSample (t lv ratio x : F32) : F32 :=
  let a := fabs x
  if flt t a then
    let c := fadd t (fdiv (fsub a t) ratio)
    let c := if signBit x then fneg c else c
    fmul c lv
  else fmul x lv

/-- One sample of COMPRESS (R115). -/
def compressBody (s : State) : State :=
  let i := s.sample
  let (x, s) := readIn i.toNat s
  writeOut i.toNat (compressSample s.derived.t s.derived.lv s.p[1] x) s

/-- COMPRESS (R115). -/
def execCompress (s : State) : Host.Outcome State Fault Refusal :=
  runCommand checkCompress (fun _ => runFrame compressBody) s

end Sys2Proof.Machine
end

