-- ==== Sys2Proof/Machine/Control.lean ====
section
/-! DEFINITION. NOP and TUNER (45_control). -/

namespace Sys2Proof.Machine

/-- NOP (45_control R118): nothing is read or checked; the command completes. -/
def execNop (s : State) : Host.Outcome State Fault Refusal :=
  runCommand (fun _ => .ok {}) (fun _ s => s) s

/-- Validation of TUNER (45_control R119). -/
def checkTuner (s : State) : Except Reject Plan := do
  checkLen s
  return {}

/-- One sample of TUNER: +0.0, IN not read (R119). -/
def tunerBody (s : State) : State := writeOut s.sample.toNat fZero s

/-- TUNER (45_control R119). -/
def execTuner (s : State) : Host.Outcome State Fault Refusal :=
  runCommand checkTuner (fun _ => runFrame tunerBody) s

end Sys2Proof.Machine
end

