-- ==== Sys2Proof/Machine/DelayLine.lean ====
section
/-! DEFINITION. The delay-line commands (40_delay_line). -/

namespace Sys2Proof.Machine

/-- Validation of DL_CREATE (R94): the capacity is ARG. -/
def checkDlCreate (s : State) : Except Reject Plan := do
  let c ← capArg s.dlDepth s.arg
  return { cap := c }

/-- Validation of DL_CREATE_MS (R95): P0 = timeMs. -/
def checkDlCreateMs (s : State) : Except Reject Plan := do
  checkFinite [s.p[0]]
  let c ← capMs s.dlDepth s.p[0]
  return { cap := c }

/-- Validation of DL_CREATE_FRAC (R96): P0 = size. -/
def checkDlCreateFrac (s : State) : Except Reject Plan := do
  checkFinite [s.p[0]]
  let c ← capFrac s.dlDepth s.p[0]
  return { cap := c }

/-- What the three create commands do: the line and RESULT (R94, R95, R96). -/
def createAndReport (plan : Plan) (s : State) : State := setResultU32 plan.cap (createLine plan.cap s)

/-- DL_CREATE (R94). -/
def execDlCreate (s : State) : Host.Outcome State Fault Refusal := runCommand checkDlCreate createAndReport s

/-- DL_CREATE_MS (R95). -/
def execDlCreateMs (s : State) : Host.Outcome State Fault Refusal := runCommand checkDlCreateMs createAndReport s

/-- DL_CREATE_FRAC (R96). -/
def execDlCreateFrac (s : State) : Host.Outcome State Fault Refusal :=
  runCommand checkDlCreateFrac createAndReport s

/-- DL_READ (R97): no check, and no `i < CAP` guard. -/
def execDlRead (s : State) : Host.Outcome State Fault Refusal :=
  runCommand (fun _ => .ok {}) (fun _ s => setResultF32 (dlRead s.arg s) s) s

/-- DL_WRITE (R98): VAL is a sample and is not checked. -/
def execDlWrite (s : State) : Host.Outcome State Fault Refusal :=
  runCommand (fun _ => .ok {}) (fun _ s => dlWrite s.arg s.val s) s

/-- Validation of DL_STEP (R99): P1 = mix, P2 = feedback; `omix` is derived (R83). -/
def checkDlStep (s : State) : Except Reject Plan := do
  checkFinite [s.p[1], s.p[2]]
  let omix := fsub fOne s.p[1]
  checkDerived [omix]
  return { derived := { omix := omix } }

/-- DL_STEP's one index of the Delay recurrence (R99). -/
def stepLine (s : State) : State :=
  let (y, s) := delayBody s.arg s.val s.p[1] s.derived.omix s.p[2] s
  setResultF32 y s

/-- DL_STEP (R99). -/
def execDlStep (s : State) : Host.Outcome State Fault Refusal := runCommand checkDlStep (fun _ => stepLine) s

/-- One sample of DELAY and of REVERB (R100, R103): P1 = mix, P2 = feedback or decay. -/
def delayFrameBody (s : State) : State :=
  let (x, s) := readIn s.sample.toNat s
  let (y, s) := delayBody s.sample x s.p[1] s.derived.omix s.p[2] s
  writeOut s.sample.toNat y s

/-- The frame of DELAY and of REVERB: the line first, then the bodies (R100, R103, 30_encoding R84). -/
def runDelayFrame (plan : Plan) (s : State) : State := runFrame delayFrameBody (createLine plan.cap s)

/-- Validation of DELAY (R100): P0 = timeMs. -/
def checkDelay (s : State) : Except Reject Plan := do
  checkLen s
  checkFinite [s.p[0], s.p[1], s.p[2]]
  let c ← capMs s.dlDepth s.p[0]
  let omix := fsub fOne s.p[1]
  checkDerived [omix]
  return { cap := c, derived := { omix := omix } }

/-- DELAY (R100). -/
def execDelay (s : State) : Host.Outcome State Fault Refusal := runCommand checkDelay runDelayFrame s

/-- Validation of REVERB (R103): P0 = size. -/
def checkReverb (s : State) : Except Reject Plan := do
  checkLen s
  checkFinite [s.p[0], s.p[1], s.p[2]]
  let c ← capFrac s.dlDepth s.p[0]
  let omix := fsub fOne s.p[1]
  checkDerived [omix]
  return { cap := c, derived := { omix := omix } }

/-- REVERB (R103). -/
def execReverb (s : State) : Host.Outcome State Fault Refusal := runCommand checkReverb runDelayFrame s

/-- Validation of FLANGER_MOD and of FLANGER_MANUAL (R104, R105): the capacity is ARG; ARG2 is not checked. -/
def checkFlanger (s : State) : Except Reject Plan := do
  checkLen s
  checkFinite [s.p[0], s.p[1], s.p[2]]
  let c ← capArg s.dlDepth s.arg
  return { cap := c }

/-- The flangers' modulated mix `m = P1 · osc(i, P0)` (R104, R105). -/
def flangerMix (s : State) : F32 := fmul s.p[1] (osc s.sample s.p[0])

/-- One sample of FLANGER_MOD (R104). -/
def flangerModBody (s : State) : State :=
  let i := s.sample
  let (x, s) := readIn i.toNat s
  let m := flangerMix s
  let delayed := delayedAt i s
  let s := writeOut i.toNat (fadd (fmul x (fsub fOne m)) (fmul delayed m)) s
  dlWrite i (fadd x (fmul delayed s.p[2])) s

/-- FLANGER_MOD (R104). -/
def execFlangerMod (s : State) : Host.Outcome State Fault Refusal :=
  runCommand checkFlanger (fun plan s => runFrame flangerModBody (createLine plan.cap s)) s

/-- FLANGER_MANUAL's input tap: `IN[i - d]` for `i >= d`, else +0.0 (R105). -/
def readTap (i d : Word) (s : State) : F32 × State :=
  if d.toNat ≤ i.toNat then readIn (i.toNat - d.toNat) s else (fZero, s)

/-- One sample of FLANGER_MANUAL (R105): the input-array path and the delay-line path share no value. -/
def flangerManualBody (s : State) : State :=
  let i := s.sample
  let (x, s) := readIn i.toNat s
  let m := flangerMix s
  let (tap, s) := readTap i s.arg2 s
  let s := writeOut i.toNat (fadd (fmul x (fsub fOne m)) (fmul tap m)) s
  let delayed := delayedAt i s
  dlWrite i (fadd x (fmul delayed s.p[2])) s

/-- FLANGER_MANUAL (R105). -/
def execFlangerManual (s : State) : Host.Outcome State Fault Refusal :=
  runCommand checkFlanger (fun plan s => runFrame flangerManualBody (createLine plan.cap s)) s

end Sys2Proof.Machine
end

