-- ==== Sys2Proof/Machine/Oscillator.lean ====
section
/-! DEFINITION. The oscillator commands (41_oscillator). -/

namespace Sys2Proof.Machine

/-- Validation of OSC_VALUE (R108): P0 = rate. -/
def checkOscValue (s : State) : Except Reject Plan := do
  checkFinite [s.p[0]]
  return {}

/-- OSC_VALUE (R108): `RESULT <- osc(ARG, P0)`. -/
def execOscValue (s : State) : Host.Outcome State Fault Refusal :=
  runCommand checkOscValue (fun _ s => setResultF32 (osc s.arg s.p[0]) s) s

/-- Validation of TREMOLO (R109): P0 = rate, P1 = depth. -/
def checkTremolo (s : State) : Except Reject Plan := do
  checkLen s
  checkFinite [s.p[0], s.p[1]]
  return {}

/-- One sample of TREMOLO (R109). -/
def tremoloBody (s : State) : State :=
  let i := s.sample
  let v := osc i s.p[0]
  let mod := fadd fOne (fmul s.p[1] v)
  let (x, s) := readIn i.toNat s
  writeOut i.toNat (fmul x mod) s

/-- TREMOLO (R109). -/
def execTremolo (s : State) : Host.Outcome State Fault Refusal :=
  runCommand checkTremolo (fun _ => runFrame tremoloBody) s

/-- Validation of CHORUS (R110): P0 = rate, P1 = intensity, P2 = width. -/
def checkChorus (s : State) : Except Reject Plan := do
  checkLen s
  checkFinite [s.p[0], s.p[1], s.p[2]]
  return {}

/-- One sample of CHORUS (R110). -/
def chorusBody (s : State) : State :=
  let i := s.sample
  let (x, s) := readIn i.toNat s
  let v := osc i s.p[0]
  let mod := fmul s.p[1] v
  writeOut i.toNat (fadd x (fmul (fmul s.p[2] mod) x)) s

/-- CHORUS (R110). -/
def execChorus (s : State) : Host.Outcome State Fault Refusal :=
  runCommand checkChorus (fun _ => runFrame chorusBody) s

/-- Validation of WAHWAH (R111): P0 = rate, P1 = minFreq, P2 = maxFreq, P3 = q; `span` is derived (R83). -/
def checkWahwah (s : State) : Except Reject Plan := do
  checkLen s
  checkFinite [s.p[0], s.p[1], s.p[2], s.p[3]]
  let span := fsub s.p[2] s.p[1]
  checkDerived [span]
  return { derived := { span := span } }

/-- The argument of WAHWAH's second oscillation at index `i`, which has no 2π (R111). -/
def wahwahArg (i : Word) (rate minFreq span : F32) : F32 :=
  let v := osc i rate
  let sweep := fadd fHalf (fmul fHalf v)
  let modFreq := fadd minFreq (fmul span sweep)
  fdiv (fmul modFreq (u32tof i)) Config.fs

/-- One sample of WAHWAH (R111). -/
def wahwahBody (s : State) : State :=
  let i := s.sample
  let arg := wahwahArg i s.p[0] s.p[1] s.derived.span
  let (x, s) := readIn i.toNat s
  writeOut i.toNat (fmul (fmul x (fsin arg)) s.p[3]) s

/-- WAHWAH (R111). -/
def execWahwah (s : State) : Host.Outcome State Fault Refusal :=
  runCommand checkWahwah (fun _ => runFrame wahwahBody) s

end Sys2Proof.Machine
end

