-- ==== Sys2Proof/Machine/Waveshaper.lean ====
section
/-! DEFINITION. WAVESHAPE (42_waveshaper). -/

namespace Sys2Proof.Machine

/-- Validation of WAVESHAPE (R113): P0 = driveOrGain; P1 = tone, P2 = level, P3 = mix where their stage is
enabled. KSEL = 3 is a field error, checked first (R79). -/
def checkWaveshape (ksel : BitVec 2) (tone lvl mix : Bool) (s : State) : Except Reject Plan := do
  let kf ← divisorK ksel
  checkLen s
  checkFinite ([s.p[0]] ++ ifEnabled tone s.p[1] ++ ifEnabled lvl s.p[2] ++ ifEnabled mix s.p[3])
  checkSign (flt s.p[0] fZero) .negGain
  let ts := fdiv s.p[1] fTen
  let ls := fdiv s.p[2] fTen
  let omix := fsub fOne s.p[3]
  checkDerived ([kf] ++ ifEnabled tone ts ++ ifEnabled lvl ls ++ ifEnabled mix omix)
  return { derived :=
    { kf := kf
      ts := if tone then ts else fZero
      ls := if lvl then ls else fZero
      omix := if mix then omix else fZero } }

/-- The five stages on one sample (R113). -/
def shapeSample (tone lvl mix : Bool) (drive wet : F32) (d : Derived) (x : F32) : F32 :=
  let s := clip (fdiv (fmul x drive) d.kf)
  let s := if tone then fmul s d.ts else s
  let s := if lvl then fmul s d.ls else s
  if mix then fadd (fmul s wet) (fmul x d.omix) else s

/-- One sample of WAVESHAPE (R113). -/
def waveshapeBody (tone lvl mix : Bool) (s : State) : State :=
  let i := s.sample
  let (x, s) := readIn i.toNat s
  writeOut i.toNat (shapeSample tone lvl mix s.p[0] s.p[3] s.derived x) s

/-- WAVESHAPE (R113). -/
def execWaveshape (ksel : BitVec 2) (tone lvl mix : Bool) (s : State) : Host.Outcome State Fault Refusal :=
  runCommand (checkWaveshape ksel tone lvl mix) (fun _ => runFrame (waveshapeBody tone lvl mix)) s

end Sys2Proof.Machine
end

