-- ==== Sys2Proof/Machine/Dispatch.lean ====
section
/-! DEFINITION. The meaning of each command (30_encoding R76, R81): one arm per constructor of Instr. -/

namespace Sys2Proof.Machine

def exec (i : Instr) (s : State) : Host.Outcome State Fault Refusal :=
  match i with
  | .nop => Sys2Proof.Machine.execNop s
  | .dlCreate => Sys2Proof.Machine.execDlCreate s
  | .dlCreateMs => Sys2Proof.Machine.execDlCreateMs s
  | .dlCreateFrac => Sys2Proof.Machine.execDlCreateFrac s
  | .dlRead => Sys2Proof.Machine.execDlRead s
  | .dlWrite => Sys2Proof.Machine.execDlWrite s
  | .dlStep => Sys2Proof.Machine.execDlStep s
  | .oscValue => Sys2Proof.Machine.execOscValue s
  | .delay => Sys2Proof.Machine.execDelay s
  | .reverb => Sys2Proof.Machine.execReverb s
  | .flangerMod => Sys2Proof.Machine.execFlangerMod s
  | .flangerManual => Sys2Proof.Machine.execFlangerManual s
  | .tremolo => Sys2Proof.Machine.execTremolo s
  | .chorus => Sys2Proof.Machine.execChorus s
  | .wahwah => Sys2Proof.Machine.execWahwah s
  | .waveshape ksel tone lvl mix => Sys2Proof.Machine.execWaveshape ksel tone lvl mix s
  | .compress => Sys2Proof.Machine.execCompress s
  | .eq7 nb => Sys2Proof.Machine.execEq7 nb s
  | .tuner => Sys2Proof.Machine.execTuner s

end Sys2Proof.Machine
end

