-- ==== Sys2Proof/Machine/Run.lean ====
section
/-! DEFINITION. Running an accepted command word (30_encoding R81). -/

namespace Sys2Proof.Machine

/-- `run(w)` (30_encoding R81): decoding rejects the word (R82 steps 1 and 2) or gives the command to run. -/
def runWord (w : Word) (s : State) : Host.Outcome State Fault Refusal :=
  match decode w with
  | .ok i => exec i s
  | .error e => rejectWord e s

end Sys2Proof.Machine
end

