-- ==== Sys2Proof/Machine/Step.lean ====
section
/-! DEFINITION. One step of the block and its host. -/

namespace Sys2Proof.Machine

/-- One transition: a host event is served, an accepted command runs, or the block holds its state. -/
def step (s : State) : Host.Outcome State Fault Refusal :=
  match nextAction s with
  | .idle => .next s
  | .serve e rest left => .next (serve e rest left s)
  | .run w => runWord w s

/-- The state whose next step runs the command word with these bits: it stands in CMD, accepted (log 8). -/
def State.withFetchWord (s : State) (nbits w : Nat) : State := acceptedAtOnce (tableWord nbits w) s

end Sys2Proof.Machine
end

