-- ==== Sys2Proof/Safety.lean ====
section
/-! DEFINITION. What a good state is, in the terms the statements use. -/

namespace Sys2Proof.Machine

/-- The parameters are in the ranges of 00_scope R6 and R7. -/
def State.paramsOk (s : State) : Prop :=
  1 ≤ s.dlDepth.toNat ∧ s.dlDepth.toNat ≤ 2 ^ 24 ∧ 1 ≤ s.nMax.toNat ∧ s.nMax.toNat ≤ 2 ^ 20

/-- `1 <= CAP <= DL_DEPTH` (10_state R39). -/
def State.capOk (s : State) : Prop := 1 ≤ s.cap.toNat ∧ s.cap.toNat ≤ s.dlDepth.toNat

/-- Each memory is in canonical form and holds no word beyond its size (10_state R45 to R47). -/
def State.ramsOk (s : State) : Prop :=
  Memory.wf .input s.inRam ∧ Memory.within s.nMax.toNat s.inRam ∧
  Memory.wf .output s.outRam ∧ Memory.within s.nMax.toNat s.outRam ∧
  Memory.wf .line s.dlRam ∧ Memory.within s.dlDepth.toNat s.dlRam

/-- STATUS is consistent: ERRCODE is a code of 60_exceptions R124, 0 exactly while ERR = 0, ERR comes with no
running command, and no completion is shown while BUSY = 1 (10_state R32, 30_encoding R80, R85). -/
def State.statusOk (s : State) : Prop :=
  s.status.errcode.toNat ≤ 8 ∧ (s.status.err = false ↔ s.status.errcode = 0#8) ∧
  (s.status.busy = true → s.status.done = false ∧ s.status.err = false)

/-- Nothing of a command outlives it: the counter, `nf` and the derived constants are held only while it runs
(10_state R29, R30), which is inside one transition (log 2). -/
def State.idleInside (s : State) : Prop := s.sample = 0#32 ∧ s.nf = false ∧ s.derived = {}

/-- The invariant every step keeps. -/
def State.Inv (s : State) : Prop := s.paramsOk ∧ s.capOk ∧ s.ramsOk ∧ s.statusOk ∧ s.idleInside

/-- No step from here is a stop. -/
def State.runsOn (s : State) : Prop := ∃ t, step s = .next t

end Sys2Proof.Machine
end

