-- ==== Sys2Proof/Certificates/Slice0/Obligations.lean ====
section
/-! DEFINITION. The statements for the provers, and the words they use. -/

namespace Sys2Proof.Statements

open Sys2Proof.Machine

/-! ### The tables of 30_encoding, as the statements use them -/

/-- The frame commands (R76, R77). -/
def isFrame : Instr → Bool
  | .delay | .reverb | .flangerMod | .flangerManual | .tremolo | .chorus | .wahwah
  | .waveshape _ _ _ _ | .compress | .eq7 _ | .tuner => true
  | .nop | .dlCreate | .dlCreateMs | .dlCreateFrac | .dlRead | .dlWrite | .dlStep | .oscValue => false

/-- The creating commands: CAP in the Writes column of R75. -/
def creates : Instr → Bool
  | .dlCreate | .dlCreateMs | .dlCreateFrac | .delay | .reverb | .flangerMod | .flangerManual => true
  | .nop | .dlRead | .dlWrite | .dlStep | .oscValue | .tremolo | .chorus | .wahwah
  | .waveshape _ _ _ _ | .compress | .eq7 _ | .tuner => false

/-- The commands with DL in the Writes column of R75. -/
def writesLine : Instr → Bool
  | .dlCreate | .dlCreateMs | .dlCreateFrac | .dlWrite | .dlStep
  | .delay | .reverb | .flangerMod | .flangerManual => true
  | .nop | .dlRead | .oscValue | .tremolo | .chorus | .wahwah
  | .waveshape _ _ _ _ | .compress | .eq7 _ | .tuner => false

/-- The commands with RESULT in the Writes column of R75. -/
def writesResult : Instr → Bool
  | .dlCreate | .dlCreateMs | .dlCreateFrac | .dlRead | .dlStep | .oscValue => true
  | .nop | .dlWrite | .delay | .reverb | .flangerMod | .flangerManual | .tremolo | .chorus | .wahwah
  | .waveshape _ _ _ _ | .compress | .eq7 _ | .tuner => false

/-- The Validated column of R75. -/
def validated (i : Instr) (s : State) : List F32 :=
  match i with
  | .nop | .dlCreate | .dlRead | .dlWrite | .tuner => []
  | .dlCreateMs | .dlCreateFrac | .oscValue => [s.p[0]]
  | .dlStep => [s.p[1], s.p[2]]
  | .tremolo => [s.p[0], s.p[1]]
  | .delay | .reverb | .flangerMod | .flangerManual | .chorus | .compress => [s.p[0], s.p[1], s.p[2]]
  | .wahwah => [s.p[0], s.p[1], s.p[2], s.p[3]]
  | .waveshape _ tone lvl mix =>
    [s.p[0]] ++ (if tone then [s.p[1]] else []) ++ (if lvl then [s.p[2]] else []) ++ (if mix then [s.p[3]] else [])
  | .eq7 nb => s.band.toList.take nb.toNat

/-- The sign checks: step 5 of R82. -/
def signFailure (i : Instr) (s : State) : Option Reject :=
  match i with
  | .waveshape _ _ _ _ => if flt s.p[0] fZero then some .negGain else none
  | .compress => if fle s.p[1] fZero then some .ratioNonpos else none
  | .nop | .dlCreate | .dlCreateMs | .dlCreateFrac | .dlRead | .dlWrite | .dlStep | .oscValue
  | .delay | .reverb | .flangerMod | .flangerManual | .tremolo | .chorus | .wahwah | .eq7 _ | .tuner => none

/-- The capacity a creating command asks for: step 6 of R82. -/
def capacityOf (i : Instr) (s : State) : Except Reject Word :=
  match i with
  | .dlCreate | .flangerMod | .flangerManual => capArg s.dlDepth s.arg
  | .dlCreateMs | .delay => capMs s.dlDepth s.p[0]
  | .dlCreateFrac | .reverb => capFrac s.dlDepth s.p[0]
  | .nop | .dlRead | .dlWrite | .dlStep | .oscValue | .tremolo | .chorus | .wahwah
  | .waveshape _ _ _ _ | .compress | .eq7 _ | .tuner => .ok 1#32

/-- WAHWAH's is the only derived constant that can fail to be finite: step 7 of R82, R83. -/
def derivedFailure (i : Instr) (s : State) : Bool :=
  match i with
  | .wahwah => !isFinite (fsub s.p[2] s.p[1])
  | .nop | .dlCreate | .dlCreateMs | .dlCreateFrac | .dlRead | .dlWrite | .dlStep | .oscValue
  | .delay | .reverb | .flangerMod | .flangerManual | .tremolo | .chorus
  | .waveshape _ _ _ _ | .compress | .eq7 _ | .tuner => false

/-- `validate` of R82 from step 2 on, read off the tables: the code of the first check that fails. -/
def firstFailure (i : Instr) (s : State) : Option Reject :=
  if i.wellFormed = false then some .badField
  else if isFrame i = true ∧ s.nMax.toNat < s.len.toNat then some .lenRange
  else if (validated i s).all isFinite = false then some .paramNonfinite
  else match signFailure i s with
    | some e => some e
    | none =>
      match capacityOf i s with
      | .error e => some e
      | .ok _ => if derivedFailure i s then some .derivedNonfinite else none

/-! ### What commands leave -/

/-- STATUS after a command that is not rejected (R85). -/
def finished (s : State) (nf : Bool) : Status :=
  { s.status with busy := false, done := true, nonfinite := s.status.nonfinite || nf }

/-- The code of each rejection, as the table of R124 has it. -/
def codeOf : Reject → BitVec 8
  | .badOpcode => 0x01#8
  | .badField => 0x02#8
  | .lenRange => 0x03#8
  | .paramNonfinite => 0x04#8
  | .negGain => 0x05#8
  | .ratioNonpos => 0x06#8
  | .capRange => 0x07#8
  | .derivedNonfinite => 0x08#8

/-- The state after a rejection: STATUS alone differs, and nothing of the command is held (R85, R123). -/
def rejected (e : Reject) (s : State) : State :=
  { s with
    status := { busy := false, done := true, err := true, nonfinite := s.status.nonfinite, errcode := codeOf e }
    sample := 0#32, derived := {}, nf := false, busyLeft := 0 }

/-- `x i` is what the read of `IN[i]` gives in a frame: the word written there, or a draw (R63, R142). -/
def ReadsFrame (s t : State) (x : Nat → F32) : Prop :=
  (∀ i, i < s.len.toNat →
    match Memory.loadWord .input s.inRam i with
    | some v => x i = v
    | none => ∃ d, s.draws ≤ d ∧ d < t.draws ∧ x i = Config.freeWord d) ∧
  ((∀ i, i < s.len.toNat → (Memory.loadWord .input s.inRam i).isSome = true) → t.draws = s.draws)

/-- Some of the first `n` words is a NaN or infinite (R127). -/
def anyNonfinite (y : Nat → F32) (n : Nat) : Bool := (List.range n).any (fun i => !isFinite (y i))

/-- OUT after a frame: `OUT[i] = y i` for `i < N`, every other byte as before (10_state R46). -/
def OutHolds (s t : State) (y : Nat → F32) : Prop :=
  (∀ i, i < s.len.toNat → Memory.loadWord .output t.outRam i = some (y i)) ∧
  ∀ a, 4 * s.len.toNat ≤ a → Memory.loadByte .output t.outRam a = Memory.loadByte .output s.outRam a

/-- A frame command without a delay line has run: OUT and STATUS, and nothing else of the block (R46, R75, R146). -/
def FrameEnds (s t : State) (y : Nat → F32) : Prop :=
  t = { s with
        outRam := t.outRam, draws := t.draws, status := finished s (anyNonfinite y s.len.toNat)
        sample := 0#32, derived := {}, nf := false, busyLeft := 0 } ∧
  OutHolds s t y

/-- `delayed` at index `i` of a frame that created capacity `c` and wrote `w j` to the line at each `j` (R93). -/
def delayedIn (w : Nat → F32) (c i : Nat) : F32 := if i < c then fZero else w (i - c)

/-- The line after a frame of `n` bodies that created capacity `c`: word `k` holds the last of the `w i` with
`i mod c = k`, +0.0 where there is none; the words from `c` on are as before (R48, R64, R89). -/
def LineHolds (s t : State) (c n : Nat) (w : Nat → F32) : Prop :=
  (∀ k, k < c → Memory.loadWord .line t.dlRam k = some (if k < n then w (k + c * ((n - 1 - k) / c)) else fZero)) ∧
  ∀ a, 4 * c ≤ a → Memory.loadByte .line t.dlRam a = Memory.loadByte .line s.dlRam a

/-- A delay-line frame command has run: CAP, DL, OUT and STATUS, and nothing else of the block (R75). -/
def LineFrameEnds (s t : State) (c : Word) (y w : Nat → F32) : Prop :=
  t = { s with
        cap := c, outRam := t.outRam, dlRam := t.dlRam, draws := t.draws
        status := finished s (anyNonfinite y s.len.toNat || anyNonfinite w s.len.toNat)
        sample := 0#32, derived := {}, nf := false, busyLeft := 0 } ∧
  OutHolds s t y ∧ LineHolds s t c.toNat s.len.toNat w

/-- P0, P1 and P2 are finite. -/
def ThreeFinite (s : State) : Prop := isFinite s.p[0] = true ∧ isFinite s.p[1] = true ∧ isFinite s.p[2] = true

/-- DELAY or REVERB with capacity `c` runs the Delay recurrence (R92, R93, R100, R103). -/
def RunsDelayRecurrence (i : Instr) (s : State) (c : Word) : Prop :=
  ∃ t x w, exec i s = .next t ∧ ReadsFrame s t x ∧
    (∀ j, j < s.len.toNat → w j = fadd (x j) (fmul (delayedIn w c.toNat j) s.p[2])) ∧
    LineFrameEnds s t c
      (fun j => fadd (fmul (x j) (fsub fOne s.p[1])) (fmul (delayedIn w c.toNat j) s.p[1])) w

/-- A creating primitive with capacity `c` has run: CAP, RESULT, STATUS and the line of `c` zeros, and nothing else
of the block (R89, R94). -/
def CreatesLine (i : Instr) (s : State) (c : Word) : Prop :=
  ∃ t, exec i s = .next t ∧
    t = { s with
          cap := c, result := c, dlRam := t.dlRam, status := finished s false
          sample := 0#32, derived := {}, nf := false, busyLeft := 0 } ∧
    LineHolds s t c.toNat 0 (fun _ => fZero)

/-! ### Binary32 -/

/-- `r` has that sign, and the magnitude that one rounding of `num / den` units of 2^-149 gives (R13). -/
def RoundsOnce (r : F32) (neg : Bool) (num den : Nat) : Prop :=
  r.getLsbD 31 = neg ∧ (r.extractLsb' 0 31).toNat = roundMag num den

/-- Whether the signs of two operands differ. -/
def signsDiffer (a b : F32) : Bool := a.getLsbD 31 != b.getLsbD 31

/-- The infinity of a sign. -/
def infOf (neg : Bool) : F32 := if neg then 0xFF800000#32 else 0x7F800000#32

/-- The zero of a sign. -/
def zeroOf (neg : Bool) : F32 := if neg then 0x80000000#32 else 0x00000000#32

/-! ### The host's side -/

/-- The byte offset of a register (10_state section 3). -/
def regOffset : Reg → Nat
  | .cmd => 0x00
  | .status => 0x04
  | .irqen => 0x08
  | .len => 0x0C
  | .arg => 0x10
  | .arg2 => 0x14
  | .val => 0x18
  | .result => 0x1C
  | .cap => 0x20
  | .fs => 0x24
  | .dlDepth => 0x28
  | .nMax => 0x2C
  | .p k => 0x40 + 4 * k.val
  | .band k => 0x60 + 4 * k.val

/-- What the host reads at each register, from the state: STATUS by the bits of R32 and IRQEN by those of R33, FS the
constant of R40, every other register whole (R31, R34 to R39, R41 to R44). -/
def hostReads (s : State) : Reg → Word
  | .cmd => s.cmd
  | .status => BitVec.ofNat 32 (s.status.busy.toNat + 2 * s.status.done.toNat + 4 * s.status.err.toNat
      + 8 * s.status.nonfinite.toNat + 256 * s.status.errcode.toNat)
  | .irqen => BitVec.ofNat 32 (s.irqen.doneIe.toNat + 2 * s.irqen.errIe.toNat + 4 * s.irqen.nfIe.toNat)
  | .len => s.len
  | .arg => s.arg
  | .arg2 => s.arg2
  | .val => s.val
  | .result => s.result
  | .cap => s.cap
  | .fs => 0x472C4400#32
  | .dlDepth => s.dlDepth
  | .nMax => s.nMax
  | .p k => s.p[k]
  | .band k => s.band[k]

/-- A bus address from its number. -/
def at24 (n : Nat) : BitVec 24 := BitVec.ofNat 24 n

/-- The registers a host write only stores into (R60), STATUS and CMD apart. -/
def storesOnly : Reg → Bool
  | .irqen | .len | .arg | .arg2 | .val | .p _ | .band _ => true
  | .cmd | .status | .result | .cap | .fs | .dlDepth | .nMax => false

/-- The response while BUSY = 1: data for word reads of STATUS, FS, DLDEPTH and NMAX, else ERROR (R57). -/
def busyResponse (s : State) : HostEvent → Response
  | .read addr .word =>
    if addr = 0x000004#24 then .data (statusWord s.status)
    else if addr = 0x000024#24 then .data 0x472C4400#32
    else if addr = 0x000028#24 then .data s.dlDepth
    else if addr = 0x00002C#24 then .data s.nMax
    else .error
  | _ => .error

/-- One DL_STEP of a host that streams samples: ARG and VAL written, then the command (R99). -/
def streamStep (i : Nat) (v : F32) (s : State) : State :=
  match exec .dlStep { s with arg := BitVec.ofNat 32 i, val := v } with
  | .next t => t
  | .fault _ => s
  | .refused _ => s

/-- DL_STEP at indices 0 to `n - 1` (R99). -/
def streamSteps (x : Nat → F32) : Nat → State → State
  | 0, s => s
  | n + 1, s => streamStep n (x n) (streamSteps x n s)

end Sys2Proof.Statements

open Sys2Proof Sys2Proof.Machine Sys2Proof.Statements

/-! ### Decode and encode -/

/-- Decoding the word of a command gives the command back, with every field at every value (R72 to R79, R87). -/
def Obligations.DecodeOfEncodedCommand : Prop :=
  ∀ i : Instr, i.wellFormed = true → decode (encode i) = .ok i

/-- A word that decodes is exactly the word of its command: no other word means the same, and no reserved bit is
ignored (R79, R87). -/
def Obligations.EncodeOfDecodedWord : Prop :=
  ∀ (w : Word) (i : Instr), decode w = .ok i → i.wellFormed = true ∧ encode i = w

/-- Words written out from the encodings of 40 to 45 decode to the commands they stand for. -/
def Obligations.SpecWordsDecode : Prop :=
  decode 0x00000001#32 = .ok .dlCreate ∧ decode 0x00000008#32 = .ok .oscValue ∧
  decode 0x00000013#32 = .ok .flangerManual ∧ decode 0x00000038#32 = .ok .compress ∧
  decode 0x00031030#32 = .ok (.waveshape 1#2 true true false) ∧
  decode 0x00000340#32 = .ok (.eq7 3#3) ∧ decode 0x00000048#32 = .ok .tuner

/-- A word whose OPC is none of the 19 of R76 is BAD_OPCODE; one with a defined OPC is BAD_FIELD exactly when a
rule of R79 is broken. -/
def Obligations.UndecodableWordsByRule : Prop :=
  ∀ w : Word,
    let opc := (w.extractLsb' 0 8).toNat
    let defined := opc ∈ [0x00, 0x01, 0x02, 0x03, 0x04, 0x05, 0x06, 0x08, 0x10, 0x11, 0x12, 0x13,
      0x20, 0x21, 0x22, 0x30, 0x38, 0x40, 0x48]
    let reservedBit := w.getLsbD 11 = true ∨ w.extractLsb' 14 2 ≠ 0#2 ∨ w.extractLsb' 19 13 ≠ 0#13
    let strayNb := w.extractLsb' 8 3 ≠ 0#3 ∧ opc ≠ 0x40
    let strayStage := (w.extractLsb' 12 2 ≠ 0#2 ∨ w.extractLsb' 16 3 ≠ 0#3) ∧ opc ≠ 0x30
    let badKsel := opc = 0x30 ∧ w.extractLsb' 12 2 = 3#2
    (decode w = .error .badOpcode ↔ ¬defined) ∧
    (decode w = .error .badField ↔ defined ∧ (reservedBit ∨ strayNb ∨ strayStage ∨ badKsel))

/-! ### The step -/

/-- When an accepted command word is to run and decodes to `i`, the step is `exec` of `i` and nothing around it (R81).
The command runs when the drawn busy window is used up or the host does nothing more: the model's choice (log 2). -/
def Obligations.StepRunsTheDecodedCommand : Prop :=
  ∀ (s : State) (i : Instr), s.status.busy = true → (s.busyLeft = 0 ∨ s.hostQueue = []) →
    decode s.cmd = .ok i → step s = exec i s

/-- When the accepted command word is to run and does not decode, the step is a rejection with its code (R78, R79, R123,
R124). It is to run when the drawn busy window is used up or the host does nothing more: the model's choice (log 2). -/
def Obligations.StepRejectsUndecodableWord : Prop :=
  ∀ (s : State) (e : Reject), s.status.busy = true → (s.busyLeft = 0 ∨ s.hostQueue = []) →
    decode s.cmd = .error e → step s = .next (rejected e s)

/-- The block takes no trap and never stops: every state has a next state (R123, R129). -/
def Obligations.EveryStepHasANextState : Prop := ∀ s : State, s.runsOn

/-- The busy window of an accepted command ends: with no more steps than host events left in it and one more, BUSY is 0
again, and where no reset is among those events DONE is 1 and CMD still holds the word (R85, R86, R139, R149). That the window is a count of host
events is the model's choice (log 2). -/
def Obligations.AcceptedCommandCompletes : Prop :=
  ∀ s : State, s.status.busy = true →
    ∃ k t, k ≤ s.busyLeft + 1 ∧ Host.Core.run core k s = .next t ∧ t.status.busy = false ∧
      (HostEvent.reset ∉ s.hostQueue.take s.busyLeft → t.status.done = true ∧ t.cmd = s.cmd)

/-! ### Reset and invariants -/

/-- The registers the spec gives a reset value have it (10_state section 7): FS, DLDEPTH and NMAX read their constants,
DL[0] reads +0.0, and irq is low. -/
def Obligations.ResetValues : Prop :=
  State.reset.cmd = 0#32 ∧ State.reset.len = 0#32 ∧ State.reset.arg = 0#32 ∧ State.reset.arg2 = 0#32 ∧
  State.reset.val = 0#32 ∧ State.reset.result = 0#32 ∧ statusWord State.reset.status = 0#32 ∧
  irqenWord State.reset.irqen = 0#32 ∧ State.reset.cap = 1#32 ∧
  (∀ k : Fin 8, State.reset.p[k] = 0#32) ∧ (∀ k : Fin 7, State.reset.band[k] = 0#32) ∧
  dlRead 0#32 State.reset = fZero ∧ State.reset.irq = false ∧
  (busRead 0x000024#24 .word State.reset).1 = .data 0x472C4400#32 ∧
  (busRead 0x000028#24 .word State.reset).1 = .data (BitVec.ofNat 32 Config.dlDepth) ∧
  (busRead 0x00002C#24 .word State.reset).1 = .data (BitVec.ofNat 32 Config.nMax)

/-- The invariant of Sys2Proof/Safety.lean holds at reset. -/
def Obligations.InvariantHoldsAtReset : Prop := State.reset.Inv

/-- Every step keeps the invariant: `1 <= CAP <= DL_DEPTH`, memories in canonical form and within their sizes,
STATUS consistent, nothing of a command held outside it (R29, R30, R32, R39). -/
def Obligations.EveryStepKeepsTheInvariant : Prop :=
  ∀ s t : State, s.Inv → step s = .next t → t.Inv

/-- A reset that reaches the block, while a command is busy too, leaves the reset state; the parameters, the host's
later events, its past responses and the count of draws are not the block's to reset (R137, R139, log 11). -/
def Obligations.ResetAbandonsEverything : Prop :=
  ∀ (s : State) (rest : List HostEvent), s.hostQueue = .reset :: rest →
    (s.status.busy = true → s.busyLeft ≠ 0) →
    step s = .next { State.reset with
      dlDepth := s.dlDepth, nMax := s.nMax, draws := s.draws, hostQueue := rest, responses := s.responses }

/-! ### Memory and the delay line -/

/-- The canonical form is canonical: two memories in it that read alike at every byte are equal data. -/
def Obligations.EqualReadsMeanEqualMemories : Prop :=
  ∀ (r : Ram) (m m' : List Host.Cell), Memory.wf r m → Memory.wf r m' →
    (∀ a, Memory.loadByte r m a = Memory.loadByte r m' a) → m = m'

/-- `create(c)` is the loop of R89: CAP set, then +0.0 written to words 0 to `c - 1` one after another. -/
def Obligations.CreateIsTheLoopOfZeroWrites : Prop :=
  ∀ (s : State) (c : Word), Memory.wf .line s.dlRam →
    createLine c s = { s with
      cap := c
      dlRam := (List.range c.toNat).foldl (fun m k => Memory.storeWord .line m k fZero) s.dlRam }

/-- `dlwrite(i, v)` writes word `i mod CAP`, all its bits, and no other byte of DL_RAM; `dlread(j)` gives word
`j mod CAP` (R48, R90, R91). -/
def Obligations.DelayLineReadAndWrite : Prop :=
  ∀ (s : State) (i j : Word) (v : F32),
    some (dlRead j s) = Memory.loadWord .line s.dlRam (j.toNat % s.cap.toNat) ∧
    dlWrite i v s = { s with dlRam := (dlWrite i v s).dlRam, nf := s.nf || !isFinite v } ∧
    Memory.loadWord .line (dlWrite i v s).dlRam (i.toNat % s.cap.toNat) = some v ∧
    (∀ a, a < 4 * (i.toNat % s.cap.toNat) ∨ 4 * (i.toNat % s.cap.toNat) + 4 ≤ a →
      Memory.loadByte .line (dlWrite i v s).dlRam a = Memory.loadByte .line s.dlRam a)

/-! ### Binary32 -/

/-- One rounding gives the nearest F32 magnitude, the even one at a tie (R13), and infinity exactly from the middle between
the largest finite magnitude and 2^128 on: R13 states no overflow threshold, and this one is IEEE 754's (PRESUMED,
log 15). -/
def Obligations.RoundingGivesTheNearest : Prop :=
  ∀ num den : Nat, 0 < den →
    (roundMag num den = 0x7F800000 ↔ den * ((2 ^ 25 - 1) * 2 ^ 252) ≤ num) ∧
    (roundMag num den < 0x7F800000 → ∀ c : Nat, c < 0x7F800000 →
      let dist := fun b : Nat => ((fMag (BitVec.ofNat 32 b) : Int) * den - num).natAbs
      dist (roundMag num den) ≤ dist c ∧
      (dist (roundMag num den) = dist c → c ≠ roundMag num den → roundMag num den % 2 = 0))

/-- Each operation on finite operands is one rounding of the exact sum, difference, product or quotient, and a u32 is
rounded once (R13, R16); a NaN operand and an invalid operation give the canonical NaN (R14). The signs of zero results,
which operations on infinities and zeros are invalid, and what the others give are IEEE 754's (PRESUMED, log 15). -/
def Obligations.ArithmeticRoundsOnce : Prop :=
  (∀ a b : F32, isFinite a = true → isFinite b = true →
    (let z := fVal a + fVal b
     if z = 0 then fadd a b = zeroOf (a.getLsbD 31 && b.getLsbD 31)
     else RoundsOnce (fadd a b) (decide (z < 0)) z.natAbs 1) ∧
    (let z := fVal a - fVal b
     if z = 0 then fsub a b = zeroOf (a.getLsbD 31 && !b.getLsbD 31)
     else RoundsOnce (fsub a b) (decide (z < 0)) z.natAbs 1) ∧
    RoundsOnce (fmul a b) (signsDiffer a b) ((fVal a).natAbs * (fVal b).natAbs) (2 ^ 149) ∧
    (fVal b ≠ 0 → RoundsOnce (fdiv a b) (signsDiffer a b) ((fVal a).natAbs * 2 ^ 149) (fVal b).natAbs) ∧
    (fVal b = 0 → fVal a ≠ 0 → fdiv a b = infOf (signsDiffer a b)) ∧
    (fVal b = 0 → fVal a = 0 → fdiv a b = 0x7FC00000#32)) ∧
  (∀ n : Word, RoundsOnce (u32tof n) false (n.toNat * 2 ^ 149) 1) ∧
  (∀ a b : F32, isNaN a = true ∨ isNaN b = true →
    fadd a b = 0x7FC00000#32 ∧ fsub a b = 0x7FC00000#32 ∧ fmul a b = 0x7FC00000#32 ∧ fdiv a b = 0x7FC00000#32) ∧
  (∀ (n : Bool) (b : F32), isFinite b = true →
    fadd (infOf n) b = infOf n ∧ fadd b (infOf n) = infOf n ∧
    fsub (infOf n) b = infOf n ∧ fsub b (infOf n) = infOf (!n) ∧
    fmul (infOf n) b = (if fVal b = 0 then 0x7FC00000#32 else infOf (signsDiffer (infOf n) b)) ∧
    fmul b (infOf n) = (if fVal b = 0 then 0x7FC00000#32 else infOf (signsDiffer (infOf n) b)) ∧
    fdiv (infOf n) b = infOf (signsDiffer (infOf n) b) ∧ fdiv b (infOf n) = zeroOf (signsDiffer (infOf n) b)) ∧
  (∀ m n : Bool,
    fadd (infOf m) (infOf n) = (if m = n then infOf m else 0x7FC00000#32) ∧
    fsub (infOf m) (infOf n) = (if m = n then 0x7FC00000#32 else infOf m) ∧
    fmul (infOf m) (infOf n) = infOf (m != n) ∧ fdiv (infOf m) (infOf n) = 0x7FC00000#32)

/-- The ordered comparisons on every pair of values: finite numbers compare by value, -Inf is below and +Inf above every
finite number and each equals itself, and with a NaN every comparison is false; which words are finite and which are
NaNs, what a finite word's value is in units of 2^-149, and what `fabs` and `fneg` do to its bits (R12, R15). -/
def Obligations.ComparisonsFollowTheValues : Prop :=
  (∀ v : F32, let e := (v.extractLsb' 23 8).toNat; let f := (v.extractLsb' 0 23).toNat
    (isFinite v = true ↔ e ≠ 0xFF) ∧ (isNaN v = true ↔ e = 0xFF ∧ f ≠ 0) ∧
    (e ≠ 0xFF →
      fVal v = (if v.getLsbD 31 then -1 else 1) * ((if e = 0 then f else (2 ^ 23 + f) * 2 ^ (e - 1) : Nat) : Int)) ∧
    fabs v = 0#1 ++ v.extractLsb' 0 31 ∧ fneg v = ~~~(v.extractLsb' 31 1) ++ v.extractLsb' 0 31) ∧
  (∀ a b : F32, isFinite a = true → isFinite b = true →
    (flt a b = true ↔ fVal a < fVal b) ∧ (fle a b = true ↔ fVal a ≤ fVal b)) ∧
  (∀ a : F32, isFinite a = true →
    (flt a 0x7F800000#32 = true ∧ fle a 0x7F800000#32 = true) ∧
    (flt 0x7F800000#32 a = false ∧ fle 0x7F800000#32 a = false) ∧
    (flt 0xFF800000#32 a = true ∧ fle 0xFF800000#32 a = true) ∧
    (flt a 0xFF800000#32 = false ∧ fle a 0xFF800000#32 = false)) ∧
  (flt 0x7F800000#32 0x7F800000#32 = false ∧ fle 0x7F800000#32 0x7F800000#32 = true) ∧
  (flt 0xFF800000#32 0xFF800000#32 = false ∧ fle 0xFF800000#32 0xFF800000#32 = true) ∧
  (flt 0xFF800000#32 0x7F800000#32 = true ∧ fle 0xFF800000#32 0x7F800000#32 = true) ∧
  (flt 0x7F800000#32 0xFF800000#32 = false ∧ fle 0x7F800000#32 0xFF800000#32 = false) ∧
  (∀ a b : F32, isNaN a = true ∨ isNaN b = true → flt a b = false ∧ fle a b = false)

/-- `roundHA(v)` is the integer nearest to `v`, the one further from zero at a half (R17). -/
def Obligations.RoundHalvesAwayFromZero : Prop :=
  ∀ v : F32, isFinite v = true → ∀ k : Int,
    (fVal v - roundHA v * 2 ^ 149).natAbs ≤ (fVal v - k * 2 ^ 149).natAbs ∧
    ((fVal v - roundHA v * 2 ^ 149).natAbs = (fVal v - k * 2 ^ 149).natAbs → k ≠ roundHA v →
      k.natAbs < (roundHA v).natAbs)

/-- A u32 up to 2^24 converts exactly (R16). -/
def Obligations.SmallIntegersConvertExactly : Prop :=
  ∀ n : Word, n.toNat ≤ 2 ^ 24 → isFinite (u32tof n) = true ∧ fVal (u32tof n) = (n.toNat : Int) * 2 ^ 149

/-- `clip` of R18: above 1.0 it is 1.0, below -1.0 it is -1.0, and what is neither passes with every bit, a NaN and
-0.0 among it. -/
def Obligations.ClipBoundsAndPasses : Prop :=
  ∀ v : F32,
    (flt fOne v = true → clip v = fOne) ∧ (flt v fNegOne = true → clip v = fNegOne) ∧
    (fle fNegOne v = true → fle v fOne = true → clip v = v) ∧ (isNaN v = true → clip v = v) ∧
    clip fNegZero = fNegZero ∧ (isNaN v = false → fle fNegOne (clip v) = true ∧ fle (clip v) fOne = true)

/-- Multiplying by 1.0 keeps every bit of a value that is not a NaN and makes a NaN the canonical one; the EQ7 gain with
no band is 1.0 (R13, R14, R117). -/
def Obligations.MultiplyingByOneKeepsBits : Prop :=
  (∀ v : F32, isNaN v = false → fmul v fOne = v) ∧ (∀ v : F32, isNaN v = true → fmul v fOne = canonicalNaN) ∧
  fadd fOne (bandSum []) = fOne

/-- The oscillator at index 0 is a zero with the sign of a finite rate, and at rate +0.0 it is +0.0 at every index.
The spec's own inference, from its rules R13, R19 and R22: 41_oscillator's paragraph R107, marked derived there. -/
def Obligations.OscillatorPhaseZero : Prop :=
  (∀ rate : F32, isFinite rate = true → osc 0#32 rate = if signBit rate then fNegZero else fZero) ∧
  (∀ i : Word, osc i fZero = fZero)

/-- The capacity rules of R23, R24, R25 and R26: `(t / 1000) · FS` and `s · FS` with FS = 44100.0, the clamp, and the
capacity given in samples. -/
def Obligations.CapacityRules : Prop :=
  (∀ depth t : Word, capMs depth t = capClamp depth (fmul (fdiv t 0x447A0000#32) 0x472C4400#32)) ∧
  (∀ depth s : Word, capFrac depth s = capClamp depth (fmul s 0x472C4400#32)) ∧
  (∀ (depth : Word) (c : F32),
    (isNaN c = true → capClamp depth c = .error .paramNonfinite) ∧
    (c = 0x7F800000#32 → capClamp depth c = .error .capRange) ∧
    (c = 0xFF800000#32 → capClamp depth c = .ok 1#32) ∧
    (isFinite c = true → roundHA c < 1 → capClamp depth c = .ok 1#32) ∧
    (isFinite c = true → 1 ≤ roundHA c → (depth.toNat : Int) < roundHA c → capClamp depth c = .error .capRange) ∧
    (isFinite c = true → 1 ≤ roundHA c → roundHA c ≤ depth.toNat →
      ∃ n : Word, capClamp depth c = .ok n ∧ (n.toNat : Int) = roundHA c)) ∧
  (∀ depth a : Word, capArg depth 0#32 = .ok 1#32 ∧
    (1 ≤ a.toNat → a.toNat ≤ depth.toNat → capArg depth a = .ok a) ∧
    (1 ≤ a.toNat → depth.toNat < a.toNat → capArg depth a = .error .capRange))

/-! ### The life of a command -/

/-- Validation follows the order of R82 and the tables of R75 and R83: the first check that fails gives the code of R124
and the rejection; where none fails, the command is not rejected (R123, R125). That `exec` of a WAVESHAPE with
KSEL = 3, which no accepted word decodes to, is the rejection BAD_FIELD is the model's choice (log 16). -/
def Obligations.ValidationFollowsTheOrder : Prop :=
  ∀ (i : Instr) (s : State), ∃ t, exec i s = .next t ∧
    match firstFailure i s with
    | some e => t = rejected e s
    | none => t.status.err = s.status.err ∧ t.status.errcode = s.status.errcode

/-- A rejected command changes no state but STATUS (R123). -/
def Obligations.RejectionChangesOnlyStatus : Prop :=
  ∀ (i : Instr) (s t : State), s.status.err = false → exec i s = .next t → t.status.err = true →
    ∃ e, t = rejected e s

/-- DERIVED_NONFINITE is never reported but for WAHWAH. The spec's own inference from R13: the passage marked
derived under the table of R83, and 90 C10. -/
def Obligations.OnlyWahwahFailsDerived : Prop :=
  ∀ (i : Instr) (s t : State), i ≠ .wahwah → s.status.errcode ≠ 0x08#8 → exec i s = .next t →
    t.status.errcode ≠ 0x08#8

/-- What any command can change (the Writes column of R75): RESULT, CAP, DL, OUT and STATUS, each only where its row
says so, and of OUT only the frame; no other register, IN_RAM, parameter or host event (R27, R38, R39, R43 to R46). -/
def Obligations.CommandsWriteOnlyTheirColumn : Prop :=
  ∀ (i : Instr) (s t : State), exec i s = .next t →
    t = { s with
          status := t.status, result := t.result, cap := t.cap, outRam := t.outRam, dlRam := t.dlRam
          draws := t.draws, sample := 0#32, derived := {}, nf := false, busyLeft := 0 } ∧
    t.status.busy = false ∧ t.status.done = true ∧
    (writesResult i = false → t.result = s.result) ∧
    (creates i = false → t.cap = s.cap) ∧
    (writesLine i = false → t.dlRam = s.dlRam) ∧
    (isFrame i = false → t.outRam = s.outRam ∧ t.draws = s.draws) ∧
    (∀ a, 4 * s.len.toNat ≤ a → Memory.loadByte .output t.outRam a = Memory.loadByte .output s.outRam a)

/-- NONFINITE is sticky: from a state with it set, only a reset or a host write of 1 to STATUS bit 3 leads to one
without it (R127). -/
def Obligations.NonfiniteClearedOnlyByTheHost : Prop :=
  ∀ s t : State, step s = .next t → s.status.nonfinite = true → t.status.nonfinite = false →
    (∃ rest, s.hostQueue = .reset :: rest) ∨
    (∃ v rest, s.hostQueue = .write 0x000004#24 .word v :: rest ∧ v.getLsbD 3 = true ∧ s.status.busy = false)

/-! ### What each command does -/

/-- NOP completes and does nothing else (R118). -/
def Obligations.NopOnlyCompletes : Prop :=
  ∀ s : State, exec .nop s = .next { s with
    status := finished s false, sample := 0#32, derived := {}, nf := false, busyLeft := 0 }

/-- DL_CREATE, DL_CREATE_MS and DL_CREATE_FRAC create the line of their capacity and report it (R94, R95, R96). -/
def Obligations.CreateCommandsCreateTheLine : Prop :=
  ∀ (s : State) (c : Word),
    (capArg s.dlDepth s.arg = .ok c → CreatesLine .dlCreate s c) ∧
    (isFinite s.p[0] = true → capMs s.dlDepth s.p[0] = .ok c → CreatesLine .dlCreateMs s c) ∧
    (isFinite s.p[0] = true → capFrac s.dlDepth s.p[0] = .ok c → CreatesLine .dlCreateFrac s c)

/-- DL_READ puts `DL[ARG mod CAP]` into RESULT, whatever ARG is (R97). -/
def Obligations.DlReadReadsTheLine : Prop :=
  ∀ (s : State) (v : F32), Memory.loadWord .line s.dlRam (s.arg.toNat % s.cap.toNat) = some v →
    exec .dlRead s = .next { s with
      result := v, status := finished s (!isFinite v), sample := 0#32, derived := {}, nf := false, busyLeft := 0 }

/-- DL_WRITE stores every bit of VAL at `DL[ARG mod CAP]` and no other byte (R98). -/
def Obligations.DlWriteWritesTheLine : Prop :=
  ∀ s : State, ∃ t, exec .dlWrite s = .next t ∧
    t = { s with
          dlRam := t.dlRam, status := finished s (!isFinite s.val)
          sample := 0#32, derived := {}, nf := false, busyLeft := 0 } ∧
    Memory.loadWord .line t.dlRam (s.arg.toNat % s.cap.toNat) = some s.val ∧
    (∀ a, a < 4 * (s.arg.toNat % s.cap.toNat) ∨ 4 * (s.arg.toNat % s.cap.toNat) + 4 ≤ a →
      Memory.loadByte .line t.dlRam a = Memory.loadByte .line s.dlRam a)

/-- DL_STEP runs one index of the Delay recurrence: RESULT from the line as it was, then the write (R65, R92, R99). -/
def Obligations.DlStepRunsOneIndex : Prop :=
  ∀ (s : State) (old : F32), isFinite s.p[1] = true → isFinite s.p[2] = true →
    Memory.loadWord .line s.dlRam (s.arg.toNat % s.cap.toNat) = some old →
    let delayed := if s.arg.toNat < s.cap.toNat then fZero else old
    let y := fadd (fmul s.val (fsub fOne s.p[1])) (fmul delayed s.p[1])
    let w := fadd s.val (fmul delayed s.p[2])
    ∃ t, exec .dlStep s = .next t ∧
      t = { s with
            result := y, dlRam := t.dlRam, status := finished s (!isFinite y || !isFinite w)
            sample := 0#32, derived := {}, nf := false, busyLeft := 0 } ∧
      Memory.loadWord .line t.dlRam (s.arg.toNat % s.cap.toNat) = some w ∧
      (∀ a, a < 4 * (s.arg.toNat % s.cap.toNat) ∨ 4 * (s.arg.toNat % s.cap.toNat) + 4 ≤ a →
        Memory.loadByte .line t.dlRam a = Memory.loadByte .line s.dlRam a)

/-- OSC_VALUE puts the oscillator's value into RESULT: SIN of `((TWO_PI · u32tof(ARG)) · P0) / FS` (R22, R108). -/
def Obligations.OscValueComputesTheOscillator : Prop :=
  ∀ s : State, isFinite s.p[0] = true →
    let v := Config.sinFn.f (fdiv (fmul (fmul 0x40C90FDB#32 (u32tof s.arg)) s.p[0]) 0x472C4400#32)
    exec .oscValue s = .next { s with
      result := v, status := finished s (!isFinite v), sample := 0#32, derived := {}, nf := false, busyLeft := 0 }

/-- DELAY and REVERB run the Delay recurrence over the frame on a fresh line (R92, R100, R103). That the value read
at `i` is the one written at `i - c` is the spec's own inference from R64 and R92 (R93, marked derived). A sample the
host has not written is a draw (R142); that draws are `Config.freeWord` of a count is the model's (log 3). -/
def Obligations.DelayAndReverbRunTheRecurrence : Prop :=
  ∀ (s : State) (c : Word), s.len.toNat ≤ s.nMax.toNat → ThreeFinite s →
    (capMs s.dlDepth s.p[0] = .ok c → RunsDelayRecurrence .delay s c) ∧
    (capFrac s.dlDepth s.p[0] = .ok c → RunsDelayRecurrence .reverb s c)

/-- FLANGER_MOD mixes the input with the line by `m = depth · osc(i, rate)` and feeds the line back (R104). -/
def Obligations.FlangerModMixesTheLine : Prop :=
  ∀ (s : State) (c : Word), s.len.toNat ≤ s.nMax.toNat → ThreeFinite s → capArg s.dlDepth s.arg = .ok c →
    let m := fun j : Nat => fmul s.p[1] (osc (BitVec.ofNat 32 j) s.p[0])
    ∃ t x w, exec .flangerMod s = .next t ∧ ReadsFrame s t x ∧
      (∀ j, j < s.len.toNat → w j = fadd (x j) (fmul (delayedIn w c.toNat j) s.p[2])) ∧
      LineFrameEnds s t c
        (fun j => fadd (fmul (x j) (fsub fOne (m j))) (fmul (delayedIn w c.toNat j) (m j))) w

/-- FLANGER_MANUAL mixes the input with the input tap `IN[i - ARG2]`, and keeps the line on a path of its own (R105).
Where the tap's word is unwritten, the tap's read draws a value of its own. -/
def Obligations.FlangerManualMixesTheTap : Prop :=
  ∀ (s : State) (c : Word), s.len.toNat ≤ s.nMax.toNat → ThreeFinite s → capArg s.dlDepth s.arg = .ok c →
    let m := fun j : Nat => fmul s.p[1] (osc (BitVec.ofNat 32 j) s.p[0])
    ∃ (t : State) (x tap w : Nat → F32), exec .flangerManual s = .next t ∧ ReadsFrame s t x ∧
      (∀ j, j < s.len.toNat →
        if s.arg2.toNat ≤ j then
          match Memory.loadWord .input s.inRam (j - s.arg2.toNat) with
          | some v => tap j = v
          | none => ∃ d, s.draws ≤ d ∧ d < t.draws ∧ tap j = Config.freeWord d
        else tap j = fZero) ∧
      (∀ j, j < s.len.toNat → w j = fadd (x j) (fmul (delayedIn w c.toNat j) s.p[2])) ∧
      LineFrameEnds s t c (fun j => fadd (fmul (x j) (fsub fOne (m j))) (fmul (tap j) (m j))) w

/-- TREMOLO: `OUT[i] = IN[i] · (1 + depth · osc(i, rate))` (R109). -/
def Obligations.TremoloModulatesTheFrame : Prop :=
  ∀ s : State, s.len.toNat ≤ s.nMax.toNat → isFinite s.p[0] = true → isFinite s.p[1] = true →
    ∃ t x, exec .tremolo s = .next t ∧ ReadsFrame s t x ∧
      FrameEnds s t (fun j => fmul (x j) (fadd fOne (fmul s.p[1] (osc (BitVec.ofNat 32 j) s.p[0]))))

/-- CHORUS: `OUT[i] = x + ((width · (intensity · osc(i, rate))) · x)` (R110). -/
def Obligations.ChorusModulatesTheFrame : Prop :=
  ∀ s : State, s.len.toNat ≤ s.nMax.toNat → ThreeFinite s →
    ∃ t x, exec .chorus s = .next t ∧ ReadsFrame s t x ∧
      FrameEnds s t (fun j =>
        fadd (x j) (fmul (fmul s.p[2] (fmul s.p[1] (osc (BitVec.ofNat 32 j) s.p[0]))) (x j)))

/-- WAHWAH: `OUT[i] = (IN[i] · SIN((modFreq · i) / FS)) · q`, with no 2π in the second oscillation (R111). -/
def Obligations.WahwahSweepsTheFrame : Prop :=
  ∀ s : State, s.len.toNat ≤ s.nMax.toNat → ThreeFinite s → isFinite s.p[3] = true →
    isFinite (fsub s.p[2] s.p[1]) = true →
    let sweep := fun j : Nat => fadd fHalf (fmul fHalf (osc (BitVec.ofNat 32 j) s.p[0]))
    let modFreq := fun j : Nat => fadd s.p[1] (fmul (fsub s.p[2] s.p[1]) (sweep j))
    let arg := fun j : Nat => fdiv (fmul (modFreq j) (u32tof (BitVec.ofNat 32 j))) 0x472C4400#32
    ∃ t x, exec .wahwah s = .next t ∧ ReadsFrame s t x ∧
      FrameEnds s t (fun j => fmul (fmul (x j) (Config.sinFn.f (arg j))) s.p[3])

/-- WAVESHAPE runs its five stages: gain over K, clip, then tone, level and mix where enabled (R112, R113). -/
def Obligations.WaveshapeRunsItsStages : Prop :=
  ∀ (s : State) (ksel : BitVec 2) (tone lvl mix : Bool) (kf : F32), s.len.toNat ≤ s.nMax.toNat →
    (ksel, kf) ∈ [(0#2, 0x41200000#32), (1#2, 0x41A00000#32), (2#2, 0x41F00000#32)] →
    isFinite s.p[0] = true → flt s.p[0] fZero = false →
    (tone = true → isFinite s.p[1] = true) → (lvl = true → isFinite s.p[2] = true) →
    (mix = true → isFinite s.p[3] = true) →
    let shape := fun x : F32 =>
      let a := clip (fdiv (fmul x s.p[0]) kf)
      let b := if tone then fmul a (fdiv s.p[1] fTen) else a
      let c := if lvl then fmul b (fdiv s.p[2] fTen) else b
      if mix then fadd (fmul c s.p[3]) (fmul x (fsub fOne s.p[3])) else c
    ∃ t x, exec (.waveshape ksel tone lvl mix) s = .next t ∧ ReadsFrame s t x ∧ FrameEnds s t (fun j => shape (x j))

/-- COMPRESS: above the threshold `t + (|x| - t) / ratio` with the input's sign, else the sample, times level / 10; P3
and P4 play no part (R115). -/
def Obligations.CompressAboveTheThreshold : Prop :=
  ∀ s : State, s.len.toNat ≤ s.nMax.toNat → ThreeFinite s → fle s.p[1] fZero = false →
    let th := Config.pow10Fn.f (fdiv s.p[0] fTwenty)
    let lv := fdiv s.p[2] fTen
    let y := fun x : F32 =>
      if flt th (fabs x) then
        let c := fadd th (fdiv (fsub (fabs x) th) s.p[1])
        fmul (if x.getLsbD 31 then fneg c else c) lv
      else fmul x lv
    ∃ t x, exec .compress s = .next t ∧ ReadsFrame s t x ∧ FrameEnds s t (fun j => y (x j))

/-- EQ7 multiplies the frame by one plus the sum of the first NB bands over 15; slots from NB on play no part (R117). -/
def Obligations.EqMultipliesByTheGain : Prop :=
  ∀ (s : State) (nb : BitVec 3), s.len.toNat ≤ s.nMax.toNat →
    (∀ b ∈ s.band.toList.take nb.toNat, isFinite b = true) →
    let sum := (s.band.toList.take nb.toNat).foldl (fun acc b => fadd acc (fdiv b fFifteen)) fZero
    ∃ t x, exec (.eq7 nb) s = .next t ∧ ReadsFrame s t x ∧ FrameEnds s t (fun j => fmul (x j) (fadd fOne sum))

/-- TUNER writes +0.0 to the whole frame and reads no input (R119). -/
def Obligations.TunerWritesZeros : Prop :=
  ∀ s : State, s.len.toNat ≤ s.nMax.toNat →
    ∃ t, exec .tuner s = .next t ∧ FrameEnds s t (fun _ => fZero) ∧ t.draws = s.draws ∧
      t.status.nonfinite = s.status.nonfinite

/-! ### Across commands -/

/-- A host that streams a frame through DL_CREATE_MS and DL_STEP gets in RESULT, index by index, the OUT words of
DELAY, and leaves the same line. The spec's own inference: the first paragraph of R99, marked derived there. -/
def Obligations.StreamingEqualsDelay : Prop :=
  ∀ (s : State) (c : Word) (x : Nat → F32), s.len.toNat ≤ s.nMax.toNat → ThreeFinite s →
    capMs s.dlDepth s.p[0] = .ok c →
    (∀ i, i < s.len.toNat → Memory.loadWord .input s.inRam i = some (x i)) →
    ∃ t s0, exec .delay s = .next t ∧ exec .dlCreateMs s = .next s0 ∧
      (∀ i, i < s.len.toNat →
        Memory.loadWord .output t.outRam i = some (streamSteps x (i + 1) s0).result) ∧
      (streamSteps x s.len.toNat s0).dlRam = t.dlRam ∧ (streamSteps x s.len.toNat s0).cap = t.cap ∧
      (streamSteps x s.len.toNat s0).status.nonfinite = t.status.nonfinite

/-- A delay-line frame command never depends on the line an earlier command left: from two states that differ only in
CAP and DL, what it leaves differs at most in DL words from the new CAP on (R49, R146). -/
def Obligations.FrameCommandsForgetTheOldLine : Prop :=
  ∀ (i : Instr) (s t : State) (cap' : Word) (dl' : List Host.Cell),
    i ∈ [Instr.delay, .reverb, .flangerMod, .flangerManual] → s.status.err = false →
    exec i s = .next t → t.status.err = false →
    ∃ t', exec i { s with cap := cap', dlRam := dl' } = .next t' ∧ t' = { t with dlRam := t'.dlRam } ∧
      ∀ k, k < t.cap.toNat → Memory.loadWord .line t'.dlRam k = Memory.loadWord .line t.dlRam k

/-- Without the mix stage and with the level stage on, and a tone scale of magnitude at most 1 if there is one, no
output of the waveshaper exceeds `|level / 10|`, for every finite sample, and for an infinite one where the gain is
above 0. The spec's own inference from R13, R18 and R113: R114, marked derived there, and 90 C2. -/
def Obligations.WaveshaperOutputIsBounded : Prop :=
  ∀ (tone : Bool) (drive wet x : F32) (d : Derived),
    d.kf ∈ [fTen, fTwenty, fThirty] → isFinite drive = true → flt drive fZero = false →
    (tone = true → fle (fabs d.ts) fOne = true) → isFinite d.ls = true →
    (isFinite x = true ∨ (isInf x = true ∧ flt fZero drive = true)) →
    fle (fabs (shapeSample tone true false drive wet d x)) (fabs d.ls) = true

/-- With mix = 0 the Delay output is the input as a number wherever the delayed value and the input are finite: of one
index of the recurrence, and of each OUT word of DELAY with P1 = +0.0 over a frame the host has written. The spec's
own inference from R13 and R100: R101, marked derived there. -/
def Obligations.DryDelayIsTheInput : Prop :=
  (∀ (i : Word) (x fb : F32) (s : State), isFinite x = true → isFinite (delayedAt i s) = true →
    let y := (delayBody i x fZero (fsub fOne fZero) fb s).1
    isFinite y = true ∧ fVal y = fVal x) ∧
  (∀ (s : State) (c : Word) (x w : Nat → F32), s.len.toNat ≤ s.nMax.toNat → ThreeFinite s → s.p[1] = 0x00000000#32 →
    capMs s.dlDepth s.p[0] = .ok c →
    (∀ j, j < s.len.toNat → Memory.loadWord .input s.inRam j = some (x j)) →
    (∀ j, j < s.len.toNat → w j = fadd (x j) (fmul (delayedIn w c.toNat j) s.p[2])) →
    ∃ t, exec .delay s = .next t ∧
      ∀ j, j < s.len.toNat → isFinite (x j) = true → isFinite (delayedIn w c.toNat j) = true →
        ∃ y, Memory.loadWord .output t.outRam j = some y ∧ isFinite y = true ∧ fVal y = fVal (x j))

/-! ### The host's side -/

/-- A host write of `w` to CMD while BUSY = 0 accepts it: CMD holds the whole word, BUSY is set, DONE, ERR and ERRCODE
are cleared, NONFINITE stays, the response is OKAY (R80). How many host events the busy window takes is drawn
(log 2). -/
def Obligations.CmdWriteAcceptsTheWord : Prop :=
  ∀ (s : State) (w : Word) (rest : List HostEvent), s.status.busy = false →
    s.hostQueue = .write 0x000000#24 .word w :: rest →
    ∃ t, step s = .next t ∧
      t = { s with
            cmd := w, hostQueue := rest, responses := .okay :: s.responses, busyLeft := t.busyLeft, draws := t.draws
            status := { busy := true, done := false, err := false, nonfinite := s.status.nonfinite, errcode := 0#8 } }

/-- While BUSY = 1 a host access changes nothing of the block, and only word reads of STATUS, FS, DLDEPTH and NMAX
answer data; a CMD write is dropped (R57, R86, R143). How long the window lasts is a draw of the model's (log 2). -/
def Obligations.BusyWindowRefusesTheRest : Prop :=
  ∀ (s : State) (e : HostEvent) (rest : List HostEvent) (left : Nat), s.status.busy = true → e ≠ .reset →
    s.hostQueue = e :: rest → s.busyLeft = left + 1 →
    step s = .next { s with
      hostQueue := rest, busyLeft := left, responses := busyResponse s e :: s.responses }

/-- An access with an ERROR response changes no state of the block (R53). A read changes nothing but the count of draws,
the model's own field: R60 gives a read no side effect, and that a read of an unwritten word advances the count is
the model's choice (log 3). -/
def Obligations.ErrorAndReadChangeNothing : Prop :=
  ∀ (addr : BitVec 24) (size : AccessSize) (v : Word) (s : State),
    ((busRead addr size s).1 = .error → (busRead addr size s).2 = s) ∧
    ((busWrite addr size v s).1 = .error → (busWrite addr size v s).2 = s) ∧
    (busRead addr size s).2 = { s with draws := (busRead addr size s).2.draws }

/-- An access that is not a whole aligned word, and one to a reserved offset or to a window word at or beyond N_MAX,
gets an ERROR response (R54, R56, R61). -/
def Obligations.OddAndReservedAccessesRefused : Prop :=
  ∀ (addr : BitVec 24) (size : AccessSize) (v : Word) (s : State), s.nMax.toNat ≤ 2 ^ 20 →
    let a := addr.toNat
    (size ≠ .word ∨ a % 4 ≠ 0 ∨ (0x30 ≤ a ∧ a < 0x40) ∨ (0x7C ≤ a ∧ a < 0x400000) ∨
      (0x400000 + 4 * s.nMax.toNat ≤ a ∧ a < 0x800000) ∨ (0x800000 + 4 * s.nMax.toNat ≤ a ∧ a < 0xC00000) ∨
      0xC00000 ≤ a) →
    busRead addr size s = (.error, s) ∧ busWrite addr size v s = (.error, s)

/-- While BUSY = 0 every register reads at its offset as the value the state holds for it, FS as 0x472C4400, and the
read changes nothing (10_state section 3). -/
def Obligations.RegistersReadAtTheirOffsets : Prop :=
  ∀ (r : Reg) (s : State), s.status.busy = false →
    busRead (at24 (regOffset r)) .word s = (.data (hostReads s r), s)

/-- While BUSY = 0 a write to a register that only stores is read back, three bits of it in IRQEN; no other register
and no memory changes (R33 to R37, R43, R44, R60). -/
def Obligations.RegisterWritesReadBack : Prop :=
  ∀ (r : Reg) (s : State) (v : Word), s.status.busy = false → storesOnly r = true →
    ∃ t, busWrite (at24 (regOffset r)) .word v s = (.okay, t) ∧
      readReg r t = (if r = .irqen then v &&& 7#32 else v) ∧ (∀ r', r' ≠ r → readReg r' t = readReg r' s) ∧
      t.inRam = s.inRam ∧ t.outRam = s.outRam ∧ t.dlRam = s.dlRam ∧ t.draws = s.draws

/-- Writes to RESULT, CAP, FS, DLDEPTH, NMAX and to the OUT window get an ERROR response; a write to STATUS while
BUSY = 0 answers OKAY and clears DONE, ERR with ERRCODE, and NONFINITE where its bit is written with 1, and nothing
else (R32, R55). -/
def Obligations.ReadOnlyAndStatusWrites : Prop :=
  ∀ (s : State) (v : Word) (a : BitVec 24),
    (∀ r ∈ [Reg.result, .cap, .fs, .dlDepth, .nMax], busWrite (at24 (regOffset r)) .word v s = (.error, s)) ∧
    (0x800000 ≤ a.toNat → a.toNat < 0xC00000 → busWrite a .word v s = (.error, s)) ∧
    (s.status.busy = false →
      busWrite 0x000004#24 .word v s = (.okay, { s with status :=
        { busy := s.status.busy
          done := if v.getLsbD 1 then false else s.status.done
          err := if v.getLsbD 2 then false else s.status.err
          nonfinite := if v.getLsbD 3 then false else s.status.nonfinite
          errcode := if v.getLsbD 2 then 0#8 else s.status.errcode } }))

/-- While BUSY = 0 the host writes and reads `IN[k]` at `0x400000 + 4k` and reads `OUT[k]` at `0x800000 + 4k`; a word
nothing has written reads as a fresh draw (R61, R142, 93 U7 and U8). -/
def Obligations.SampleWindows : Prop :=
  ∀ (s : State) (k : Nat) (v : Word), s.status.busy = false → k < s.nMax.toNat → s.nMax.toNat ≤ 2 ^ 20 →
    (∃ t, busWrite (at24 (0x400000 + 4 * k)) .word v s = (.okay, t) ∧ t = { s with inRam := t.inRam } ∧
      busRead (at24 (0x400000 + 4 * k)) .word t = (.data v, t) ∧
      ∀ a, a < 4 * k ∨ 4 * k + 4 ≤ a → Memory.loadByte .input t.inRam a = Memory.loadByte .input s.inRam a) ∧
    (Memory.loadWord .output s.outRam k = some v →
      busRead (at24 (0x800000 + 4 * k)) .word s = (.data v, s)) ∧
    (Memory.loadWord .input s.inRam k = none →
      busRead (at24 (0x400000 + 4 * k)) .word s = (.data (Config.freeWord s.draws), { s with draws := s.draws + 1 })) ∧
    (Memory.loadWord .output s.outRam k = none →
      busRead (at24 (0x800000 + 4 * k)) .word s = (.data (Config.freeWord s.draws), { s with draws := s.draws + 1 }))

/-- Byte lane `n` (address `4k + n`) carries bits `8n + 7` to `8n` of word `k`, little-endian, and the word is read as it
was written (R58). -/
def Obligations.ByteLanesAreLittleEndian : Prop :=
  ∀ (r : Ram) (m : List Host.Cell) (k : Nat) (v : Word),
    Memory.loadByte r (Memory.storeWord r m k v) (4 * k) = some (v.extractLsb' 0 8) ∧
    Memory.loadByte r (Memory.storeWord r m k v) (4 * k + 1) = some (v.extractLsb' 8 8) ∧
    Memory.loadByte r (Memory.storeWord r m k v) (4 * k + 2) = some (v.extractLsb' 16 8) ∧
    Memory.loadByte r (Memory.storeWord r m k v) (4 * k + 3) = some (v.extractLsb' 24 8) ∧
    Memory.loadWord r (Memory.storeWord r m k v) k = some v

/-- The interrupt line in terms of the STATUS and IRQEN words the host reads (R128): DONE with DONE_IE, ERR with ERR_IE,
NONFINITE with NF_IE. -/
def Obligations.IrqFollowsStatusAndEnables : Prop :=
  ∀ s : State,
    let st := readReg .status s
    let ie := readReg .irqen s
    s.irq = ((st.getLsbD 1 && ie.getLsbD 0) || (st.getLsbD 2 && ie.getLsbD 1) || (st.getLsbD 3 && ie.getLsbD 2))

/-- STATUS as the host reads it: each field at its bits, the reserved bits 0 (R32). -/
def Obligations.StatusWordLayout : Prop :=
  ∀ st : Status,
    (statusWord st).getLsbD 0 = st.busy ∧ (statusWord st).getLsbD 1 = st.done ∧ (statusWord st).getLsbD 2 = st.err ∧
    (statusWord st).getLsbD 3 = st.nonfinite ∧ (statusWord st).extractLsb' 4 4 = 0#4 ∧
    (statusWord st).extractLsb' 8 8 = st.errcode ∧ (statusWord st).extractLsb' 16 16 = 0#16
end

