-- ==== Sys2Proof/Laws/Float.lean ====
section
/-! SUPPORT. Rounding: it is monotone, leaves representable magnitudes alone, and the constants that validation
need not reject are finite. -/

namespace Sys2Proof.Machine

theorem roundEven_le (num d : Nat) : roundEven num d ≤ num / d + 1 := by
  unfold roundEven; simp only; split <;> omega

theorem le_roundEven (num d : Nat) : num / d ≤ roundEven num d := by
  unfold roundEven; simp only; split <;> omega

theorem roundEven_mono (n1 d1 n2 d2 : Nat) (h1 : 0 < d1) (h2 : 0 < d2) (h : n1 * d2 ≤ n2 * d1) :
    roundEven n1 d1 ≤ roundEven n2 d2 := by
  have hm : n1 / d1 ≤ n2 / d2 := by
    rw [Nat.le_div_iff_mul_le h2]
    have : n1 / d1 * d2 * d1 ≤ n2 * d1 := by
      calc n1 / d1 * d2 * d1 = (n1 / d1 * d1) * d2 := by ring
        _ ≤ n1 * d2 := Nat.mul_le_mul_right _ (Nat.div_mul_le_self n1 d1)
        _ ≤ n2 * d1 := h
    exact Nat.le_of_mul_le_mul_right this h1
  rcases Nat.lt_or_eq_of_le hm with hlt | heq
  · exact (roundEven_le n1 d1).trans (hlt.trans_le (le_roundEven n2 d2) |> Nat.succ_le_of_lt)
  · have e1 := Nat.div_add_mod n1 d1
    have e2 := Nat.div_add_mod n2 d2
    rw [heq] at e1
    -- the remainders, as fractions of their divisors, are ordered too
    have hr : n1 % d1 * d2 ≤ n2 % d2 * d1 := by
      have : d1 * (n2 / d2) * d2 + n1 % d1 * d2 ≤ d2 * (n2 / d2) * d1 + n2 % d2 * d1 := by
        calc d1 * (n2 / d2) * d2 + n1 % d1 * d2 = (d1 * (n2 / d2) + n1 % d1) * d2 := by ring
          _ = n1 * d2 := by rw [e1]
          _ ≤ n2 * d1 := h
          _ = (d2 * (n2 / d2) + n2 % d2) * d1 := by rw [e2]
          _ = d2 * (n2 / d2) * d1 + n2 % d2 * d1 := by ring
      have c : d1 * (n2 / d2) * d2 = d2 * (n2 / d2) * d1 := by ring
      omega
    unfold roundEven
    simp only [heq]
    by_cases hu : d1 < 2 * (n1 % d1) ∨ (2 * (n1 % d1) = d1 ∧ n2 / d2 % 2 = 1)
    · have hu2 : d2 < 2 * (n2 % d2) ∨ (2 * (n2 % d2) = d2 ∧ n2 / d2 % 2 = 1) := by
        rcases hu with hu | ⟨hu, hp⟩
        · left
          have a : d1 * d2 < 2 * (n2 % d2) * d1 := by
            calc d1 * d2 < 2 * (n1 % d1) * d2 := Nat.mul_lt_mul_of_pos_right hu h2
              _ = 2 * (n1 % d1 * d2) := by ring
              _ ≤ 2 * (n2 % d2 * d1) := Nat.mul_le_mul_left 2 hr
              _ = 2 * (n2 % d2) * d1 := by ring
          rw [Nat.mul_comm d1 d2] at a
          exact Nat.lt_of_mul_lt_mul_right a
        · have a : d2 * d1 ≤ 2 * (n2 % d2) * d1 := by
            calc d2 * d1 = 2 * (n1 % d1) * d2 := by rw [hu]; ring
              _ = 2 * (n1 % d1 * d2) := by ring
              _ ≤ 2 * (n2 % d2 * d1) := Nat.mul_le_mul_left 2 hr
              _ = 2 * (n2 % d2) * d1 := by ring
          rcases Nat.lt_or_eq_of_le (Nat.le_of_mul_le_mul_right a h1) with b | b
          · exact .inl b
          · exact .inr ⟨b.symm, hp⟩
      rw [if_pos hu, if_pos hu2]
    · rw [if_neg hu]; split <;> omega

theorem quantumExp_mono (q1 q2 : Nat) (h : q1 ≤ q2) : quantumExp q1 ≤ quantumExp q2 := by
  unfold quantumExp
  have : Nat.log2 q1 ≤ Nat.log2 q2 := by
    rw [Nat.log2_eq_log_two, Nat.log2_eq_log_two]; exact Nat.log_mono_right h
  omega

/-- The integer part shifted by its quantum has at most 24 bits. -/
theorem quantumExp_upper (q : Nat) : q / 2 ^ quantumExp q < 2 ^ 24 := by
  unfold quantumExp
  rcases Nat.eq_zero_or_pos q with h | h
  · subst h; simp
  · rw [Nat.div_lt_iff_lt_mul (by positivity), ← pow_add]
    exact Nat.lt_of_lt_of_le Nat.lt_log2_self (Nat.pow_le_pow_right (by omega) (by omega))

/-- And exactly 24 where the quantum is above 1. -/
theorem quantumExp_lower (q : Nat) (h : 0 < quantumExp q) : 2 ^ 23 ≤ q / 2 ^ quantumExp q := by
  unfold quantumExp at *
  have hq : q ≠ 0 := by rintro rfl; simp at h
  rw [Nat.le_div_iff_mul_le (by positivity), ← pow_add]
  calc 2 ^ (23 + (Nat.log2 q + 1 - 24)) = 2 ^ Nat.log2 q := by congr 1; omega
    _ ≤ q := Nat.log2_self_le hq

theorem div_shiftLeft (num den k : Nat) : num / (den <<< k) = num / den / 2 ^ k := by
  rw [Nat.shiftLeft_eq, Nat.div_div_eq_div_mul]

/-- Rounding is monotone: of two exact magnitudes the larger never rounds below the smaller. -/
theorem roundMag_mono (n1 d1 n2 d2 : Nat) (h1 : 0 < d1) (h2 : 0 < d2) (h : n1 * d2 ≤ n2 * d1) :
    roundMag n1 d1 ≤ roundMag n2 d2 := by
  have hq : n1 / d1 ≤ n2 / d2 := by
    rw [Nat.le_div_iff_mul_le h2]
    have : n1 / d1 * d2 * d1 ≤ n2 * d1 := by
      calc n1 / d1 * d2 * d1 = (n1 / d1 * d1) * d2 := by ring
        _ ≤ n1 * d2 := Nat.mul_le_mul_right _ (Nat.div_mul_le_self n1 d1)
        _ ≤ n2 * d1 := h
    exact Nat.le_of_mul_le_mul_right this h1
  have hk := quantumExp_mono _ _ hq
  have key : quantumExp (n1 / d1) * 2 ^ 23 + roundEven n1 (d1 <<< quantumExp (n1 / d1)) ≤
      quantumExp (n2 / d2) * 2 ^ 23 + roundEven n2 (d2 <<< quantumExp (n2 / d2)) := by
    rcases Nat.lt_or_eq_of_le hk with hlt | heq
    · have a := roundEven_le n1 (d1 <<< quantumExp (n1 / d1))
      have b := le_roundEven n2 (d2 <<< quantumExp (n2 / d2))
      rw [div_shiftLeft] at a b
      have c := quantumExp_upper (n1 / d1)
      have d := quantumExp_lower (n2 / d2) (by omega)
      omega
    · rw [heq]
      refine Nat.add_le_add_left (roundEven_mono _ _ _ _ ?_ ?_ ?_) _
      · rw [Nat.shiftLeft_eq]; positivity
      · rw [Nat.shiftLeft_eq]; positivity
      · rw [Nat.shiftLeft_eq, Nat.shiftLeft_eq, ← Nat.mul_assoc, ← Nat.mul_assoc]
        exact Nat.mul_le_mul_right _ h
  exact min_le_min key le_rfl

theorem roundMag_le_inf (num den : Nat) : roundMag num den ≤ 0x7F800000 := min_le_right _ _

/-- A magnitude bounded by one that rounds to a finite number rounds to a finite number. -/
theorem roundMag_lt_inf (n1 d1 n2 d2 : Nat) (h1 : 0 < d1) (h2 : 0 < d2) (h : n1 * d2 ≤ n2 * d1)
    (hf : roundMag n2 d2 < 0x7F800000) : roundMag n1 d1 < 0x7F800000 :=
  Nat.lt_of_le_of_lt (roundMag_mono n1 d1 n2 d2 h1 h2 h) hf

/-! ### Fields of a packed number -/

theorem packSign_toNat (sign : Bool) (mag : Nat) (h : mag < 2 ^ 31) :
    (packSign sign mag).toNat = if sign then 2 ^ 31 + mag else mag := by
  unfold packSign
  rw [BitVec.toNat_ofNat]
  split <;> omega

theorem expBits_eq (v : F32) : expBits v = v.toNat / 2 ^ 23 % 2 ^ 8 := by
  simp [expBits, BitVec.extractLsb'_toNat, Nat.shiftRight_eq_div_pow]

theorem fracBits_eq (v : F32) : fracBits v = v.toNat % 2 ^ 23 := by
  simp [fracBits, BitVec.extractLsb'_toNat]

theorem magBits_eq (v : F32) : magBits v = v.toNat % 2 ^ 31 := by
  simp [magBits, BitVec.extractLsb'_toNat]

@[simp] theorem magBits_packSign (sign : Bool) (mag : Nat) (h : mag < 2 ^ 31) : magBits (packSign sign mag) = mag := by
  rw [magBits_eq, packSign_toNat sign mag h]; split <;> omega

@[simp] theorem signBit_packSign (sign : Bool) (mag : Nat) (h : mag < 2 ^ 31) :
    signBit (packSign sign mag) = sign := by
  rw [signBit, BitVec.msb_eq_decide, packSign_toNat sign mag h]
  cases sign
  · simp; omega
  · simp

/-- A finite number is one whose bits 30:0 are below those of infinity. -/
theorem isFinite_iff (v : F32) : isFinite v = true ↔ magBits v < 0x7F800000 := by
  have hv := v.isLt
  simp only [isFinite, bne_iff_ne, ne_eq, expBits_eq, magBits_eq]
  omega

theorem isNaN_iff (v : F32) : isNaN v = true ↔ 0x7F800000 < magBits v := by
  have hv := v.isLt
  simp only [isNaN, Bool.and_eq_true, beq_iff_eq, bne_iff_ne, ne_eq, expBits_eq, fracBits_eq, magBits_eq]
  omega

theorem isInf_iff (v : F32) : isInf v = true ↔ magBits v = 0x7F800000 := by
  have hv := v.isLt
  simp only [isInf, Bool.and_eq_true, beq_iff_eq, expBits_eq, fracBits_eq, magBits_eq]
  omega

theorem isNaN_of_finite (v : F32) (h : isFinite v = true) : isNaN v = false := by
  rw [← Bool.not_eq_true, isNaN_iff]; have := (isFinite_iff v).mp h; omega

theorem isInf_of_finite (v : F32) (h : isFinite v = true) : isInf v = false := by
  rw [← Bool.not_eq_true, isInf_iff]; have := (isFinite_iff v).mp h; omega

/-- A rounded result is finite exactly where its magnitude is below infinity's. -/
theorem isFinite_roundSigned (sign : Bool) (num den : Nat) :
    isFinite (roundSigned sign num den) = true ↔ roundMag num den < 0x7F800000 := by
  have h := roundMag_le_inf num den
  rw [isFinite_iff, roundSigned, magBits_packSign _ _ (by omega)]

/-- The largest finite magnitude bounds every finite one. -/
theorem fMag_le_max (v : F32) (h : isFinite v = true) : fMag v ≤ (2 ^ 24 - 1) <<< 253 := by
  have hv := (isFinite_iff v).mp h
  have he : expBits v ≤ 254 := by rw [magBits_eq] at hv; rw [expBits_eq]; omega
  have hf : fracBits v < 2 ^ 23 := by rw [fracBits_eq]; omega
  unfold fMag
  rw [Nat.shiftLeft_eq]
  split
  · calc fracBits v ≤ (2 ^ 24 - 1) * 1 := by omega
      _ ≤ (2 ^ 24 - 1) * 2 ^ 253 := Nat.mul_le_mul_left _ Nat.one_le_two_pow
  · rw [Nat.shiftLeft_eq]
    exact Nat.mul_le_mul (by omega) (Nat.pow_le_pow_right (by omega) (by omega))

/-! ### Magnitudes from bits, and the derived constants that cannot overflow -/

/-- The magnitude of a finite number from its bits 30:0. -/
theorem fMag_eq_of_magBits (v : F32) :
    fMag v = if magBits v / 2 ^ 23 = 0 then magBits v % 2 ^ 23
      else (2 ^ 23 + magBits v % 2 ^ 23) <<< (magBits v / 2 ^ 23 - 1) := by
  have he : expBits v = magBits v / 2 ^ 23 := by rw [expBits_eq, magBits_eq]; omega
  have hf : fracBits v = magBits v % 2 ^ 23 := by rw [fracBits_eq, magBits_eq]; omega
  rw [fMag, he, hf]

/-- Larger bits 30:0 mean no smaller a magnitude. -/
theorem fMag_mono (u v : F32) (h : magBits u ≤ magBits v) : fMag u ≤ fMag v := by
  rw [fMag_eq_of_magBits u, fMag_eq_of_magBits v]
  generalize magBits u = a at *
  generalize magBits v = b at *
  simp only [Nat.shiftLeft_eq]
  split <;> split
  · omega
  · rename_i h1 h2
    have : 1 ≤ 2 ^ (b / 2 ^ 23 - 1) := Nat.one_le_two_pow
    calc a % 2 ^ 23 ≤ (2 ^ 23 + b % 2 ^ 23) * 1 := by omega
      _ ≤ (2 ^ 23 + b % 2 ^ 23) * 2 ^ (b / 2 ^ 23 - 1) := Nat.mul_le_mul_left _ this
  · omega
  · rename_i h1 h2
    have hab : a / 2 ^ 23 ≤ b / 2 ^ 23 := Nat.div_le_div_right h
    rcases Nat.lt_or_eq_of_le hab with hlt | heq
    · have hp : 2 * 2 ^ (a / 2 ^ 23 - 1) ≤ 2 ^ (b / 2 ^ 23 - 1) := by
        rw [← pow_succ']; exact Nat.pow_le_pow_right (by omega) (by omega)
      have ha : a % 2 ^ 23 < 2 ^ 23 := Nat.mod_lt _ (by norm_num)
      calc (2 ^ 23 + a % 2 ^ 23) * 2 ^ (a / 2 ^ 23 - 1) ≤ (2 ^ 23 + 2 ^ 23) * 2 ^ (a / 2 ^ 23 - 1) :=
            Nat.mul_le_mul_right _ (by omega)
        _ = 2 ^ 23 * (2 * 2 ^ (a / 2 ^ 23 - 1)) := by ring
        _ ≤ 2 ^ 23 * 2 ^ (b / 2 ^ 23 - 1) := Nat.mul_le_mul_left _ hp
        _ ≤ (2 ^ 23 + b % 2 ^ 23) * 2 ^ (b / 2 ^ 23 - 1) := Nat.mul_le_mul_right _ (by omega)
    · rw [heq]
      exact Nat.mul_le_mul_right _ (by omega)

@[simp] theorem magBits_fneg (v : F32) : magBits (fneg v) = magBits v := by
  unfold magBits fneg
  congr 1
  apply BitVec.eq_of_getLsbD_eq
  intro i hi
  simp only [BitVec.getLsbD_extractLsb', BitVec.getLsbD_xor]
  have : (0x80000000#32).getLsbD (0 + i) = false := by
    have hi' : i < 31 := hi
    interval_cases i <;> rfl
  rw [this]; simp

@[simp] theorem isFinite_fneg (v : F32) : isFinite (fneg v) = isFinite v := by
  rw [Bool.eq_iff_iff, isFinite_iff, isFinite_iff, magBits_fneg]

@[simp] theorem fMag_fneg (v : F32) : fMag (fneg v) = fMag v := by
  rw [fMag_eq_of_magBits, fMag_eq_of_magBits, magBits_fneg]

theorem fVal_natAbs (v : F32) : (fVal v).natAbs = fMag v := by
  unfold fVal; split <;> simp

/-- The sum of two finite numbers is an exact zero or the rounding of a magnitude no larger than both together. -/
theorem fadd_finite_cases (a b : F32) (ha : isFinite a = true) (hb : isFinite b = true) :
    (∃ s, fadd a b = packSign s 0) ∨
      ∃ s n, n ≤ fMag a + fMag b ∧ fadd a b = roundSigned s n 1 := by
  unfold fadd
  simp only [isNaN_of_finite a ha, isNaN_of_finite b hb, isInf_of_finite a ha, isInf_of_finite b hb,
    Bool.or_self, Bool.false_eq_true, if_false]
  split
  · exact .inl ⟨_, rfl⟩
  · refine .inr ⟨_, _, ?_, rfl⟩
    have := Int.natAbs_add_le (fVal a) (fVal b)
    rw [fVal_natAbs, fVal_natAbs] at this
    exact this

theorem isFinite_packSign_zero (s : Bool) : isFinite (packSign s 0) = true := by cases s <;> decide

/-- A sum whose exact magnitude is bounded by one that rounds to a finite number. -/
theorem isFinite_fadd (a b : F32) (ha : isFinite a = true) (hb : isFinite b = true) (B : Nat)
    (hB : fMag a + fMag b ≤ B) (hf : roundMag B 1 < 0x7F800000) : isFinite (fadd a b) = true := by
  rcases fadd_finite_cases a b ha hb with ⟨s, h⟩ | ⟨s, n, hn, h⟩
  · rw [h]; exact isFinite_packSign_zero s
  · rw [h, isFinite_roundSigned]
    exact roundMag_lt_inf n 1 B 1 (by omega) (by omega) (by omega) hf

/-- And a bound on the rounded sum's own magnitude. -/
theorem fMag_fadd_le (a b c : F32) (ha : isFinite a = true) (hb : isFinite b = true) (B : Nat)
    (hB : fMag a + fMag b ≤ B) (hc : roundMag B 1 ≤ magBits c) : fMag (fadd a b) ≤ fMag c := by
  apply fMag_mono
  rcases fadd_finite_cases a b ha hb with ⟨s, h⟩ | ⟨s, n, hn, h⟩
  · rw [h]; cases s <;> exact Nat.zero_le _
  · have hi := roundMag_le_inf n 1
    rw [h, roundSigned, magBits_packSign _ _ (by omega)]
    exact (roundMag_mono n 1 B 1 (by omega) (by omega) (by omega)).trans hc

/-- `1 - mix` is finite for every finite mix (30_encoding R83). -/
theorem isFinite_one_sub (v : F32) (hv : isFinite v = true) : isFinite (fsub fOne v) = true := by
  refine isFinite_fadd fOne (fneg v) (by decide) (by simpa using hv) (fMag fOne + (2 ^ 24 - 1) <<< 253) ?_ (by decide)
  rw [fMag_fneg]
  exact Nat.add_le_add_left (fMag_le_max v hv) _

/-- A quotient of finite numbers whose divisor's exponent field is not 0, and its exact form. -/
theorem fdiv_finite (v c : F32) (hv : isFinite v = true) (hc : isFinite c = true) (h0 : isZero c = false) :
    fdiv v c = roundSigned (signBit v != signBit c) (fMag v * fUnit) (fMag c) := by
  unfold fdiv
  simp only [isNaN_of_finite v hv, isNaN_of_finite c hc, isInf_of_finite v hv, isInf_of_finite c hc, h0,
    Bool.or_self, Bool.false_eq_true, if_false]

/-- A quotient by a number of magnitude 1 or more is finite (30_encoding R83). -/
theorem isFinite_fdiv (v c : F32) (hv : isFinite v = true) (hc : isFinite c = true) (h1 : fUnit ≤ fMag c) :
    isFinite (fdiv v c) = true := by
  have h0 : isZero c = false := by
    rw [← Bool.not_eq_true]
    intro h
    have hz : magBits c = 0 := by simpa [isZero] using h
    rw [fMag_eq_of_magBits, hz] at h1
    exact absurd h1 (by decide)
  have hpos : 0 < fMag c := Nat.lt_of_lt_of_le (by unfold fUnit; positivity) h1
  rw [fdiv_finite v c hv hc h0, isFinite_roundSigned]
  refine roundMag_lt_inf _ _ ((2 ^ 24 - 1) <<< 253) 1 hpos (by omega) ?_ (by decide)
  rw [Nat.mul_one]
  exact Nat.mul_le_mul (fMag_le_max v hv) h1

theorem isFinite_div_ten (v : F32) (hv : isFinite v = true) : isFinite (fdiv v fTen) = true :=
  isFinite_fdiv v fTen hv (by decide) (by decide)

/-- The largest magnitude `BANDk / 15` can have. -/
theorem fMag_div_fifteen_le (v : F32) (hv : isFinite v = true) :
    fMag (fdiv v fFifteen) ≤ fMag (fdiv 0x7F7FFFFF#32 fFifteen) := by
  apply fMag_mono
  rw [fdiv_finite v fFifteen hv (by decide) (by decide),
    fdiv_finite 0x7F7FFFFF#32 fFifteen (by decide) (by decide) (by decide)]
  have h1 := roundMag_le_inf (fMag v * fUnit) (fMag fFifteen)
  have h2 := roundMag_le_inf (fMag 0x7F7FFFFF#32 * fUnit) (fMag fFifteen)
  rw [roundSigned, roundSigned, magBits_packSign _ _ (by omega), magBits_packSign _ _ (by omega)]
  refine roundMag_mono _ _ _ _ (by decide) (by decide) ?_
  refine Nat.mul_le_mul_right _ (Nat.mul_le_mul_right _ ?_)
  have e : fMag 0x7F7FFFFF#32 = (2 ^ 24 - 1) <<< 253 := by decide
  rw [e]
  exact fMag_le_max v hv

end Sys2Proof.Machine
end

