-- ==== Sys2Proof/Laws/Gain.lean ====
section
/-! SUPPORT. The EQ7 gain of finite bands is finite (30_encoding R83, 90 C10). -/

namespace Sys2Proof.Machine

/-- The largest partial sum of `k` slots: `k` times the largest `BANDk / 15`, each sum rounded. -/
def maxPartial : Nat → F32
  | 0 => 0x00000000#32
  | 1 => 0x7D888888#32
  | 2 => 0x7E088888#32
  | 3 => 0x7E4CCCCC#32
  | 4 => 0x7E888888#32
  | 5 => 0x7EAAAAAA#32
  | 6 => 0x7ECCCCCC#32
  | _ => 0x7EEEEEEE#32

/-- The largest `BANDk / 15`. -/
theorem max_div_fifteen : fdiv 0x7F7FFFFF#32 fFifteen = maxPartial 1 := by decide

theorem maxPartial_step (k : Nat) (h : k < 7) :
    roundMag (fMag (maxPartial k) + fMag (fdiv 0x7F7FFFFF#32 fFifteen)) 1 ≤ magBits (maxPartial (k + 1)) ∧
      roundMag (fMag (maxPartial k) + fMag (fdiv 0x7F7FFFFF#32 fFifteen)) 1 < 0x7F800000 := by
  rw [max_div_fifteen]
  interval_cases k <;> decide

theorem maxPartial_seven : roundMag (fMag fOne + fMag (maxPartial 7)) 1 < 0x7F800000 := by decide

theorem maxPartial_le (n : Nat) (h : n ≤ 7) : fMag (maxPartial n) ≤ fMag (maxPartial 7) := by
  apply fMag_mono
  interval_cases n <;> decide

theorem bandFold_bounded (l : List F32) (hl : ∀ b ∈ l, isFinite b = true) (k : Nat) (hk : k + l.length ≤ 7)
    (acc : F32) (ha : isFinite acc = true) (hb : fMag acc ≤ fMag (maxPartial k)) :
    isFinite (l.foldl (fun a b => fadd a (fdiv b fFifteen)) acc) = true ∧
      fMag (l.foldl (fun a b => fadd a (fdiv b fFifteen)) acc) ≤ fMag (maxPartial (k + l.length)) := by
  induction l generalizing k acc with
  | nil => exact ⟨ha, hb⟩
  | cons b l ih =>
    have hfb := hl b List.mem_cons_self
    have hq : isFinite (fdiv b fFifteen) = true := isFinite_fdiv b fFifteen hfb (by decide) (by decide)
    rw [List.length_cons] at hk ⊢
    have st := maxPartial_step k (by omega)
    have hB := Nat.add_le_add hb (fMag_div_fifteen_le b hfb)
    have := ih (fun c hc => hl c (List.mem_cons_of_mem _ hc)) (k + 1) (by omega) (fadd acc (fdiv b fFifteen))
      (isFinite_fadd _ _ ha hq _ hB st.2) (fMag_fadd_le _ _ _ ha hq _ hB st.1)
    rw [show k + (l.length + 1) = k + 1 + l.length by omega]
    exact this

/-- The EQ7 sum of at most 7 finite bands is finite, and so is one plus it. -/
theorem isFinite_gain (l : List F32) (hl : ∀ b ∈ l, isFinite b = true) (hn : l.length ≤ 7) :
    isFinite (fadd fOne (bandSum l)) = true := by
  have h := bandFold_bounded l hl 0 (by omega) fZero (by decide) (Nat.le_refl _)
  have hm : fMag (bandSum l) ≤ fMag (maxPartial 7) := h.2.trans (maxPartial_le _ (by omega))
  exact isFinite_fadd _ _ (by rfl) h.1 (fMag fOne + fMag (maxPartial 7)) (Nat.add_le_add_left hm _) maxPartial_seven

end Sys2Proof.Machine
end

