-- ==== Sys2Proof/Laws/Memory.lean ====
section
/-! SUPPORT. What the memory operations do and that they keep the canonical form. -/

namespace Sys2Proof.Machine

theorem Memory.find_insert (m : List Host.Cell) (a x : Nat) (b : Byte) :
    Memory.find (Memory.insert m a b) x = if x = a then some b else Memory.find m x := by
  induction m with
  | nil => simp [Memory.insert, Memory.find, eq_comm]
  | cons c m ih =>
    simp only [Memory.insert]
    split
    · simp only [Memory.find, eq_comm (a := a)]
    · split
      · rename_i h; subst h
        by_cases hx : x = c.1 <;> simp [Memory.find, hx, eq_comm]
      · simp only [Memory.find, ih]
        split
        · rename_i h1 h2 h3
          rw [if_neg (by omega)]
        · rfl

theorem Memory.find_filter (m : List Host.Cell) (p : Nat → Bool) (x : Nat) :
    Memory.find (m.filter (fun c => p c.1)) x = if p x then Memory.find m x else none := by
  induction m with
  | nil => simp [Memory.find]
  | cons c m ih =>
    by_cases hc : p c.1 = true
    · rw [List.filter_cons, if_pos hc]
      by_cases hx : c.1 = x
      · subst hx; simp [Memory.find, hc]
      · simp [Memory.find, hx, ih]
    · rw [List.filter_cons, if_neg hc, ih]
      by_cases hx : c.1 = x
      · subst hx; simp [hc]
      · simp [Memory.find, hx]

theorem Memory.find_erase (m : List Host.Cell) (a x : Nat) :
    Memory.find (Memory.erase m a) x = if x = a then none else Memory.find m x := by
  rw [Memory.erase, Memory.find_filter m (fun y => y != a) x]
  by_cases h : x = a <;> simp [h]

/-- Reading a byte after writing one. -/
theorem Memory.loadByte_storeByte (r : Ram) (m : List Host.Cell) (a x : Nat) (b : Byte) :
    Memory.loadByte r (Memory.storeByte r m a b) x = if x = a then some b else Memory.loadByte r m x := by
  by_cases h : unlisted r = some b
  · simp only [Memory.loadByte, Memory.storeByte, if_pos h, Memory.find_erase]
    by_cases hx : x = a <;> simp [hx, h]
  · simp only [Memory.loadByte, Memory.storeByte, if_neg h, Memory.find_insert]
    by_cases hx : x = a <;> simp [hx]

theorem joinLanes_byteLane (v : Word) :
    joinLanes (byteLane v 0) (byteLane v 1) (byteLane v 2) (byteLane v 3) = v := by
  apply BitVec.eq_of_toNat_eq
  simp only [joinLanes, byteLane, BitVec.toNat_append, BitVec.extractLsb'_toNat, Nat.shiftRight_eq_div_pow,
    Nat.reduceMul, Nat.reducePow]
  have hv := v.isLt
  rw [Nat.shiftLeft_eq, Nat.shiftLeft_eq, Nat.shiftLeft_eq,
    Nat.mul_comm _ (2 ^ 8), Nat.mul_comm _ (2 ^ 8), Nat.mul_comm _ (2 ^ 8),
    ← Nat.two_pow_add_eq_or_of_lt (by omega), ← Nat.two_pow_add_eq_or_of_lt (by omega),
    ← Nat.two_pow_add_eq_or_of_lt (by omega)]
  omega

theorem Memory.loadByte_storeWord (r : Ram) (m : List Host.Cell) (k x : Nat) (v : Word) :
    Memory.loadByte r (Memory.storeWord r m k v) x =
      if x = 4 * k + 3 then some (byteLane v 3)
      else if x = 4 * k + 2 then some (byteLane v 2)
      else if x = 4 * k + 1 then some (byteLane v 1)
      else if x = 4 * k then some (byteLane v 0)
      else Memory.loadByte r m x := by
  simp only [Memory.storeWord, Memory.loadByte_storeByte]

/-- Reading a word after writing the same word gives the word written. -/
@[simp] theorem Memory.loadWord_storeWord_same (r : Ram) (m : List Host.Cell) (k : Nat) (v : Word) :
    Memory.loadWord r (Memory.storeWord r m k v) k = some v := by
  simp [Memory.loadWord, Memory.loadByte_storeWord, joinLanes_byteLane]

/-- Writing a word leaves every other word alone. -/
theorem Memory.loadWord_storeWord_other (r : Ram) (m : List Host.Cell) (k j : Nat) (v : Word) (h : j ≠ k) :
    Memory.loadWord r (Memory.storeWord r m k v) j = Memory.loadWord r m j := by
  have e : ∀ d, d < 4 → Memory.loadByte r (Memory.storeWord r m k v) (4 * j + d) =
      Memory.loadByte r m (4 * j + d) := by
    intro d hd
    rw [Memory.loadByte_storeWord, if_neg (by omega), if_neg (by omega), if_neg (by omega), if_neg (by omega)]
  have e0 := e 0 (by omega)
  simp only [Nat.add_zero] at e0
  simp only [Memory.loadWord, e0, e 1 (by omega), e 2 (by omega), e 3 (by omega)]

theorem Memory.loadWord_storeWord (r : Ram) (m : List Host.Cell) (k j : Nat) (v : Word) :
    Memory.loadWord r (Memory.storeWord r m k v) j = if j = k then some v else Memory.loadWord r m j := by
  by_cases h : j = k
  · subst h; simp
  · rw [if_neg h, Memory.loadWord_storeWord_other r m k j v h]

theorem Memory.loadByte_zeroWords (m : List Host.Cell) (c a : Nat) :
    Memory.loadByte .line (Memory.zeroWords m c) a =
      if a < 4 * c then some 0#8 else Memory.loadByte .line m a := by
  unfold Memory.loadByte Memory.zeroWords
  rw [Memory.find_filter m (fun y => decide (4 * c ≤ y)) a]
  by_cases h : a < 4 * c
  · rw [if_neg (by simp; omega), if_pos h]; rfl
  · rw [if_pos (by simp; omega), if_neg h]

/-- After `create(c)` words 0 to `c - 1` read +0.0 and the others as before. -/
theorem Memory.loadWord_zeroWords (m : List Host.Cell) (c k : Nat) :
    Memory.loadWord .line (Memory.zeroWords m c) k =
      if k < c then some 0#32 else Memory.loadWord .line m k := by
  unfold Memory.loadWord
  simp only [Memory.loadByte_zeroWords]
  by_cases h : k < c
  · rw [if_pos (by omega), if_pos (by omega), if_pos (by omega), if_pos (by omega), if_pos h]; rfl
  · rw [if_neg (by omega), if_neg (by omega), if_neg (by omega), if_neg (by omega), if_neg h]

theorem Memory.loadByte_line_isSome (m : List Host.Cell) (a : Nat) :
    (Memory.loadByte .line m a).isSome = true := by
  unfold Memory.loadByte
  split <;> simp [unlisted]

/-- Every word of DL_RAM has a value. -/
theorem Memory.loadWord_line_isSome (m : List Host.Cell) (k : Nat) :
    (Memory.loadWord .line m k).isSome = true := by
  obtain ⟨b0, h0⟩ := Option.isSome_iff_exists.mp (Memory.loadByte_line_isSome m (4 * k))
  obtain ⟨b1, h1⟩ := Option.isSome_iff_exists.mp (Memory.loadByte_line_isSome m (4 * k + 1))
  obtain ⟨b2, h2⟩ := Option.isSome_iff_exists.mp (Memory.loadByte_line_isSome m (4 * k + 2))
  obtain ⟨b3, h3⟩ := Option.isSome_iff_exists.mp (Memory.loadByte_line_isSome m (4 * k + 3))
  simp [Memory.loadWord, h0, h1, h2, h3]

theorem Memory.mem_insert (m : List Host.Cell) (a : Nat) (b : Byte) (c : Host.Cell)
    (h : c ∈ Memory.insert m a b) : c = (a, b) ∨ c ∈ m := by
  induction m with
  | nil => simpa [Memory.insert] using h
  | cons d m ih =>
    simp only [Memory.insert] at h
    split at h
    · simpa using h
    · split at h
      · rcases List.mem_cons.mp h with h | h
        · exact .inl h
        · exact .inr (List.mem_cons_of_mem _ h)
      · rcases List.mem_cons.mp h with h | h
        · exact .inr (by simp [h])
        · exact (ih h).imp_right (List.mem_cons_of_mem _)

theorem Memory.insert_sorted (m : List Host.Cell) (a : Nat) (b : Byte)
    (h : m.Pairwise (fun a b => a.1 < b.1)) : (Memory.insert m a b).Pairwise (fun a b => a.1 < b.1) := by
  induction m with
  | nil => simp [Memory.insert]
  | cons d m ih =>
    have hd := List.pairwise_cons.mp h
    simp only [Memory.insert]
    split
    · rename_i hlt
      refine List.pairwise_cons.mpr ⟨fun c hc => ?_, h⟩
      rcases List.mem_cons.mp hc with hc | hc
      · simpa [hc] using hlt
      · exact Nat.lt_trans hlt (hd.1 c hc)
    · split
      · rename_i heq
        exact List.pairwise_cons.mpr ⟨fun c hc => by simpa [heq] using hd.1 c hc, hd.2⟩
      · refine List.pairwise_cons.mpr ⟨fun c hc => ?_, ih hd.2⟩
        rcases Memory.mem_insert m a b c hc with hc | hc
        · simp only [hc]; omega
        · exact hd.1 c hc

theorem Memory.wf_filter (r : Ram) (m : List Host.Cell) (p : Host.Cell → Bool) (h : Memory.wf r m) :
    Memory.wf r (m.filter p) :=
  ⟨h.1.filter p, fun c hc => h.2 c (List.mem_filter.mp hc).1⟩

theorem Memory.wf_storeByte (r : Ram) (m : List Host.Cell) (a : Nat) (b : Byte) (h : Memory.wf r m) :
    Memory.wf r (Memory.storeByte r m a b) := by
  unfold Memory.storeByte
  split
  · exact Memory.wf_filter r m _ h
  · rename_i hb
    refine ⟨Memory.insert_sorted m a b h.1, fun c hc => ?_⟩
    rcases Memory.mem_insert m a b c hc with hc | hc
    · simpa [hc] using hb
    · exact h.2 c hc

/-- A word write keeps the canonical form. -/
theorem Memory.wf_storeWord (r : Ram) (m : List Host.Cell) (k : Nat) (v : Word) (h : Memory.wf r m) :
    Memory.wf r (Memory.storeWord r m k v) :=
  Memory.wf_storeByte _ _ _ _ <| Memory.wf_storeByte _ _ _ _ <| Memory.wf_storeByte _ _ _ _ <|
    Memory.wf_storeByte _ _ _ _ h

/-- `create` keeps the canonical form. -/
theorem Memory.wf_zeroWords (m : List Host.Cell) (c : Nat) (h : Memory.wf .line m) :
    Memory.wf .line (Memory.zeroWords m c) := Memory.wf_filter .line m _ h

theorem Memory.wf_nil (r : Ram) : Memory.wf r [] := by simp [Memory.wf]

theorem Memory.within_storeByte (r : Ram) (n : Nat) (m : List Host.Cell) (a : Nat) (b : Byte)
    (h : Memory.within n m) (ha : a < 4 * n) : Memory.within n (Memory.storeByte r m a b) := by
  intro c hc
  unfold Memory.storeByte at hc
  split at hc
  · exact h c (List.mem_filter.mp hc).1
  · rcases Memory.mem_insert m a b c hc with hc | hc
    · simpa [hc] using ha
    · exact h c hc

/-- A write of one of the first `n` words keeps every listed byte in them. -/
theorem Memory.within_storeWord (r : Ram) (n : Nat) (m : List Host.Cell) (k : Nat) (v : Word)
    (h : Memory.within n m) (hk : k < n) : Memory.within n (Memory.storeWord r m k v) := by
  unfold Memory.storeWord
  exact Memory.within_storeByte _ _ _ _ _ (Memory.within_storeByte _ _ _ _ _ (Memory.within_storeByte _ _ _ _ _
    (Memory.within_storeByte _ _ _ _ _ h (by omega)) (by omega)) (by omega)) (by omega)

theorem Memory.within_zeroWords (n : Nat) (m : List Host.Cell) (c : Nat) (h : Memory.within n m) :
    Memory.within n (Memory.zeroWords m c) := fun d hd => h d (List.mem_filter.mp hd).1

end Sys2Proof.Machine
end

