-- ==== Sys2Proof/Laws/State.lean ====
section
/-! SUPPORT. One lemma for each field of State and each update of Machine/Ops.lean and Machine/Bus.lean: what the
update leaves in the field. -/

namespace Sys2Proof.Machine

@[simp] theorem noteF32_cmd (v : F32) (s : State) : (noteF32 v s).cmd = s.cmd := rfl
@[simp] theorem noteF32_status (v : F32) (s : State) : (noteF32 v s).status = s.status := rfl
@[simp] theorem noteF32_irqen (v : F32) (s : State) : (noteF32 v s).irqen = s.irqen := rfl
@[simp] theorem noteF32_len (v : F32) (s : State) : (noteF32 v s).len = s.len := rfl
@[simp] theorem noteF32_arg (v : F32) (s : State) : (noteF32 v s).arg = s.arg := rfl
@[simp] theorem noteF32_arg2 (v : F32) (s : State) : (noteF32 v s).arg2 = s.arg2 := rfl
@[simp] theorem noteF32_val (v : F32) (s : State) : (noteF32 v s).val = s.val := rfl
@[simp] theorem noteF32_result (v : F32) (s : State) : (noteF32 v s).result = s.result := rfl
@[simp] theorem noteF32_cap (v : F32) (s : State) : (noteF32 v s).cap = s.cap := rfl
@[simp] theorem noteF32_dlDepth (v : F32) (s : State) : (noteF32 v s).dlDepth = s.dlDepth := rfl
@[simp] theorem noteF32_nMax (v : F32) (s : State) : (noteF32 v s).nMax = s.nMax := rfl
@[simp] theorem noteF32_p (v : F32) (s : State) : (noteF32 v s).p = s.p := rfl
@[simp] theorem noteF32_band (v : F32) (s : State) : (noteF32 v s).band = s.band := rfl
@[simp] theorem noteF32_inRam (v : F32) (s : State) : (noteF32 v s).inRam = s.inRam := rfl
@[simp] theorem noteF32_outRam (v : F32) (s : State) : (noteF32 v s).outRam = s.outRam := rfl
@[simp] theorem noteF32_dlRam (v : F32) (s : State) : (noteF32 v s).dlRam = s.dlRam := rfl
@[simp] theorem noteF32_sample (v : F32) (s : State) : (noteF32 v s).sample = s.sample := rfl
@[simp] theorem noteF32_derived (v : F32) (s : State) : (noteF32 v s).derived = s.derived := rfl
@[simp] theorem noteF32_nf (v : F32) (s : State) : (noteF32 v s).nf = (s.nf || !isFinite v) := rfl
@[simp] theorem noteF32_busyLeft (v : F32) (s : State) : (noteF32 v s).busyLeft = s.busyLeft := rfl
@[simp] theorem noteF32_draws (v : F32) (s : State) : (noteF32 v s).draws = s.draws := rfl
@[simp] theorem noteF32_hostQueue (v : F32) (s : State) : (noteF32 v s).hostQueue = s.hostQueue := rfl
@[simp] theorem noteF32_responses (v : F32) (s : State) : (noteF32 v s).responses = s.responses := rfl

@[simp] theorem writeOut_cmd (k : Nat) (v : F32) (s : State) : (writeOut k v s).cmd = s.cmd := rfl
@[simp] theorem writeOut_status (k : Nat) (v : F32) (s : State) : (writeOut k v s).status = s.status := rfl
@[simp] theorem writeOut_irqen (k : Nat) (v : F32) (s : State) : (writeOut k v s).irqen = s.irqen := rfl
@[simp] theorem writeOut_len (k : Nat) (v : F32) (s : State) : (writeOut k v s).len = s.len := rfl
@[simp] theorem writeOut_arg (k : Nat) (v : F32) (s : State) : (writeOut k v s).arg = s.arg := rfl
@[simp] theorem writeOut_arg2 (k : Nat) (v : F32) (s : State) : (writeOut k v s).arg2 = s.arg2 := rfl
@[simp] theorem writeOut_val (k : Nat) (v : F32) (s : State) : (writeOut k v s).val = s.val := rfl
@[simp] theorem writeOut_result (k : Nat) (v : F32) (s : State) : (writeOut k v s).result = s.result := rfl
@[simp] theorem writeOut_cap (k : Nat) (v : F32) (s : State) : (writeOut k v s).cap = s.cap := rfl
@[simp] theorem writeOut_dlDepth (k : Nat) (v : F32) (s : State) : (writeOut k v s).dlDepth = s.dlDepth := rfl
@[simp] theorem writeOut_nMax (k : Nat) (v : F32) (s : State) : (writeOut k v s).nMax = s.nMax := rfl
@[simp] theorem writeOut_p (k : Nat) (v : F32) (s : State) : (writeOut k v s).p = s.p := rfl
@[simp] theorem writeOut_band (k : Nat) (v : F32) (s : State) : (writeOut k v s).band = s.band := rfl
@[simp] theorem writeOut_inRam (k : Nat) (v : F32) (s : State) : (writeOut k v s).inRam = s.inRam := rfl
@[simp] theorem writeOut_outRam (k : Nat) (v : F32) (s : State) : (writeOut k v s).outRam = Memory.storeWord .output s.outRam k v := rfl
@[simp] theorem writeOut_dlRam (k : Nat) (v : F32) (s : State) : (writeOut k v s).dlRam = s.dlRam := rfl
@[simp] theorem writeOut_sample (k : Nat) (v : F32) (s : State) : (writeOut k v s).sample = s.sample := rfl
@[simp] theorem writeOut_derived (k : Nat) (v : F32) (s : State) : (writeOut k v s).derived = s.derived := rfl
@[simp] theorem writeOut_nf (k : Nat) (v : F32) (s : State) : (writeOut k v s).nf = (s.nf || !isFinite v) := rfl
@[simp] theorem writeOut_busyLeft (k : Nat) (v : F32) (s : State) : (writeOut k v s).busyLeft = s.busyLeft := rfl
@[simp] theorem writeOut_draws (k : Nat) (v : F32) (s : State) : (writeOut k v s).draws = s.draws := rfl
@[simp] theorem writeOut_hostQueue (k : Nat) (v : F32) (s : State) : (writeOut k v s).hostQueue = s.hostQueue := rfl
@[simp] theorem writeOut_responses (k : Nat) (v : F32) (s : State) : (writeOut k v s).responses = s.responses := rfl

@[simp] theorem setResultF32_cmd (v : F32) (s : State) : (setResultF32 v s).cmd = s.cmd := rfl
@[simp] theorem setResultF32_status (v : F32) (s : State) : (setResultF32 v s).status = s.status := rfl
@[simp] theorem setResultF32_irqen (v : F32) (s : State) : (setResultF32 v s).irqen = s.irqen := rfl
@[simp] theorem setResultF32_len (v : F32) (s : State) : (setResultF32 v s).len = s.len := rfl
@[simp] theorem setResultF32_arg (v : F32) (s : State) : (setResultF32 v s).arg = s.arg := rfl
@[simp] theorem setResultF32_arg2 (v : F32) (s : State) : (setResultF32 v s).arg2 = s.arg2 := rfl
@[simp] theorem setResultF32_val (v : F32) (s : State) : (setResultF32 v s).val = s.val := rfl
@[simp] theorem setResultF32_result (v : F32) (s : State) : (setResultF32 v s).result = v := rfl
@[simp] theorem setResultF32_cap (v : F32) (s : State) : (setResultF32 v s).cap = s.cap := rfl
@[simp] theorem setResultF32_dlDepth (v : F32) (s : State) : (setResultF32 v s).dlDepth = s.dlDepth := rfl
@[simp] theorem setResultF32_nMax (v : F32) (s : State) : (setResultF32 v s).nMax = s.nMax := rfl
@[simp] theorem setResultF32_p (v : F32) (s : State) : (setResultF32 v s).p = s.p := rfl
@[simp] theorem setResultF32_band (v : F32) (s : State) : (setResultF32 v s).band = s.band := rfl
@[simp] theorem setResultF32_inRam (v : F32) (s : State) : (setResultF32 v s).inRam = s.inRam := rfl
@[simp] theorem setResultF32_outRam (v : F32) (s : State) : (setResultF32 v s).outRam = s.outRam := rfl
@[simp] theorem setResultF32_dlRam (v : F32) (s : State) : (setResultF32 v s).dlRam = s.dlRam := rfl
@[simp] theorem setResultF32_sample (v : F32) (s : State) : (setResultF32 v s).sample = s.sample := rfl
@[simp] theorem setResultF32_derived (v : F32) (s : State) : (setResultF32 v s).derived = s.derived := rfl
@[simp] theorem setResultF32_nf (v : F32) (s : State) : (setResultF32 v s).nf = (s.nf || !isFinite v) := rfl
@[simp] theorem setResultF32_busyLeft (v : F32) (s : State) : (setResultF32 v s).busyLeft = s.busyLeft := rfl
@[simp] theorem setResultF32_draws (v : F32) (s : State) : (setResultF32 v s).draws = s.draws := rfl
@[simp] theorem setResultF32_hostQueue (v : F32) (s : State) : (setResultF32 v s).hostQueue = s.hostQueue := rfl
@[simp] theorem setResultF32_responses (v : F32) (s : State) : (setResultF32 v s).responses = s.responses := rfl

@[simp] theorem setResultU32_cmd (c : Word) (s : State) : (setResultU32 c s).cmd = s.cmd := rfl
@[simp] theorem setResultU32_status (c : Word) (s : State) : (setResultU32 c s).status = s.status := rfl
@[simp] theorem setResultU32_irqen (c : Word) (s : State) : (setResultU32 c s).irqen = s.irqen := rfl
@[simp] theorem setResultU32_len (c : Word) (s : State) : (setResultU32 c s).len = s.len := rfl
@[simp] theorem setResultU32_arg (c : Word) (s : State) : (setResultU32 c s).arg = s.arg := rfl
@[simp] theorem setResultU32_arg2 (c : Word) (s : State) : (setResultU32 c s).arg2 = s.arg2 := rfl
@[simp] theorem setResultU32_val (c : Word) (s : State) : (setResultU32 c s).val = s.val := rfl
@[simp] theorem setResultU32_result (c : Word) (s : State) : (setResultU32 c s).result = c := rfl
@[simp] theorem setResultU32_cap (c : Word) (s : State) : (setResultU32 c s).cap = s.cap := rfl
@[simp] theorem setResultU32_dlDepth (c : Word) (s : State) : (setResultU32 c s).dlDepth = s.dlDepth := rfl
@[simp] theorem setResultU32_nMax (c : Word) (s : State) : (setResultU32 c s).nMax = s.nMax := rfl
@[simp] theorem setResultU32_p (c : Word) (s : State) : (setResultU32 c s).p = s.p := rfl
@[simp] theorem setResultU32_band (c : Word) (s : State) : (setResultU32 c s).band = s.band := rfl
@[simp] theorem setResultU32_inRam (c : Word) (s : State) : (setResultU32 c s).inRam = s.inRam := rfl
@[simp] theorem setResultU32_outRam (c : Word) (s : State) : (setResultU32 c s).outRam = s.outRam := rfl
@[simp] theorem setResultU32_dlRam (c : Word) (s : State) : (setResultU32 c s).dlRam = s.dlRam := rfl
@[simp] theorem setResultU32_sample (c : Word) (s : State) : (setResultU32 c s).sample = s.sample := rfl
@[simp] theorem setResultU32_derived (c : Word) (s : State) : (setResultU32 c s).derived = s.derived := rfl
@[simp] theorem setResultU32_nf (c : Word) (s : State) : (setResultU32 c s).nf = s.nf := rfl
@[simp] theorem setResultU32_busyLeft (c : Word) (s : State) : (setResultU32 c s).busyLeft = s.busyLeft := rfl
@[simp] theorem setResultU32_draws (c : Word) (s : State) : (setResultU32 c s).draws = s.draws := rfl
@[simp] theorem setResultU32_hostQueue (c : Word) (s : State) : (setResultU32 c s).hostQueue = s.hostQueue := rfl
@[simp] theorem setResultU32_responses (c : Word) (s : State) : (setResultU32 c s).responses = s.responses := rfl

@[simp] theorem dlWrite_cmd (i : Word) (v : F32) (s : State) : (dlWrite i v s).cmd = s.cmd := rfl
@[simp] theorem dlWrite_status (i : Word) (v : F32) (s : State) : (dlWrite i v s).status = s.status := rfl
@[simp] theorem dlWrite_irqen (i : Word) (v : F32) (s : State) : (dlWrite i v s).irqen = s.irqen := rfl
@[simp] theorem dlWrite_len (i : Word) (v : F32) (s : State) : (dlWrite i v s).len = s.len := rfl
@[simp] theorem dlWrite_arg (i : Word) (v : F32) (s : State) : (dlWrite i v s).arg = s.arg := rfl
@[simp] theorem dlWrite_arg2 (i : Word) (v : F32) (s : State) : (dlWrite i v s).arg2 = s.arg2 := rfl
@[simp] theorem dlWrite_val (i : Word) (v : F32) (s : State) : (dlWrite i v s).val = s.val := rfl
@[simp] theorem dlWrite_result (i : Word) (v : F32) (s : State) : (dlWrite i v s).result = s.result := rfl
@[simp] theorem dlWrite_cap (i : Word) (v : F32) (s : State) : (dlWrite i v s).cap = s.cap := rfl
@[simp] theorem dlWrite_dlDepth (i : Word) (v : F32) (s : State) : (dlWrite i v s).dlDepth = s.dlDepth := rfl
@[simp] theorem dlWrite_nMax (i : Word) (v : F32) (s : State) : (dlWrite i v s).nMax = s.nMax := rfl
@[simp] theorem dlWrite_p (i : Word) (v : F32) (s : State) : (dlWrite i v s).p = s.p := rfl
@[simp] theorem dlWrite_band (i : Word) (v : F32) (s : State) : (dlWrite i v s).band = s.band := rfl
@[simp] theorem dlWrite_inRam (i : Word) (v : F32) (s : State) : (dlWrite i v s).inRam = s.inRam := rfl
@[simp] theorem dlWrite_outRam (i : Word) (v : F32) (s : State) : (dlWrite i v s).outRam = s.outRam := rfl
@[simp] theorem dlWrite_dlRam (i : Word) (v : F32) (s : State) : (dlWrite i v s).dlRam = Memory.storeWord .line s.dlRam (dlIndex i s) v := rfl
@[simp] theorem dlWrite_sample (i : Word) (v : F32) (s : State) : (dlWrite i v s).sample = s.sample := rfl
@[simp] theorem dlWrite_derived (i : Word) (v : F32) (s : State) : (dlWrite i v s).derived = s.derived := rfl
@[simp] theorem dlWrite_nf (i : Word) (v : F32) (s : State) : (dlWrite i v s).nf = (s.nf || !isFinite v) := rfl
@[simp] theorem dlWrite_busyLeft (i : Word) (v : F32) (s : State) : (dlWrite i v s).busyLeft = s.busyLeft := rfl
@[simp] theorem dlWrite_draws (i : Word) (v : F32) (s : State) : (dlWrite i v s).draws = s.draws := rfl
@[simp] theorem dlWrite_hostQueue (i : Word) (v : F32) (s : State) : (dlWrite i v s).hostQueue = s.hostQueue := rfl
@[simp] theorem dlWrite_responses (i : Word) (v : F32) (s : State) : (dlWrite i v s).responses = s.responses := rfl

@[simp] theorem createLine_cmd (c : Word) (s : State) : (createLine c s).cmd = s.cmd := rfl
@[simp] theorem createLine_status (c : Word) (s : State) : (createLine c s).status = s.status := rfl
@[simp] theorem createLine_irqen (c : Word) (s : State) : (createLine c s).irqen = s.irqen := rfl
@[simp] theorem createLine_len (c : Word) (s : State) : (createLine c s).len = s.len := rfl
@[simp] theorem createLine_arg (c : Word) (s : State) : (createLine c s).arg = s.arg := rfl
@[simp] theorem createLine_arg2 (c : Word) (s : State) : (createLine c s).arg2 = s.arg2 := rfl
@[simp] theorem createLine_val (c : Word) (s : State) : (createLine c s).val = s.val := rfl
@[simp] theorem createLine_result (c : Word) (s : State) : (createLine c s).result = s.result := rfl
@[simp] theorem createLine_cap (c : Word) (s : State) : (createLine c s).cap = c := rfl
@[simp] theorem createLine_dlDepth (c : Word) (s : State) : (createLine c s).dlDepth = s.dlDepth := rfl
@[simp] theorem createLine_nMax (c : Word) (s : State) : (createLine c s).nMax = s.nMax := rfl
@[simp] theorem createLine_p (c : Word) (s : State) : (createLine c s).p = s.p := rfl
@[simp] theorem createLine_band (c : Word) (s : State) : (createLine c s).band = s.band := rfl
@[simp] theorem createLine_inRam (c : Word) (s : State) : (createLine c s).inRam = s.inRam := rfl
@[simp] theorem createLine_outRam (c : Word) (s : State) : (createLine c s).outRam = s.outRam := rfl
@[simp] theorem createLine_dlRam (c : Word) (s : State) : (createLine c s).dlRam = Memory.zeroWords s.dlRam c.toNat := rfl
@[simp] theorem createLine_sample (c : Word) (s : State) : (createLine c s).sample = s.sample := rfl
@[simp] theorem createLine_derived (c : Word) (s : State) : (createLine c s).derived = s.derived := rfl
@[simp] theorem createLine_nf (c : Word) (s : State) : (createLine c s).nf = s.nf := rfl
@[simp] theorem createLine_busyLeft (c : Word) (s : State) : (createLine c s).busyLeft = s.busyLeft := rfl
@[simp] theorem createLine_draws (c : Word) (s : State) : (createLine c s).draws = s.draws := rfl
@[simp] theorem createLine_hostQueue (c : Word) (s : State) : (createLine c s).hostQueue = s.hostQueue := rfl
@[simp] theorem createLine_responses (c : Word) (s : State) : (createLine c s).responses = s.responses := rfl

@[simp] theorem accept_cmd (w : Word) (s : State) : (accept w s).cmd = w := rfl
@[simp] theorem accept_status (w : Word) (s : State) : (accept w s).status = acceptStatus s.status := rfl
@[simp] theorem accept_irqen (w : Word) (s : State) : (accept w s).irqen = s.irqen := rfl
@[simp] theorem accept_len (w : Word) (s : State) : (accept w s).len = s.len := rfl
@[simp] theorem accept_arg (w : Word) (s : State) : (accept w s).arg = s.arg := rfl
@[simp] theorem accept_arg2 (w : Word) (s : State) : (accept w s).arg2 = s.arg2 := rfl
@[simp] theorem accept_val (w : Word) (s : State) : (accept w s).val = s.val := rfl
@[simp] theorem accept_result (w : Word) (s : State) : (accept w s).result = s.result := rfl
@[simp] theorem accept_cap (w : Word) (s : State) : (accept w s).cap = s.cap := rfl
@[simp] theorem accept_dlDepth (w : Word) (s : State) : (accept w s).dlDepth = s.dlDepth := rfl
@[simp] theorem accept_nMax (w : Word) (s : State) : (accept w s).nMax = s.nMax := rfl
@[simp] theorem accept_p (w : Word) (s : State) : (accept w s).p = s.p := rfl
@[simp] theorem accept_band (w : Word) (s : State) : (accept w s).band = s.band := rfl
@[simp] theorem accept_inRam (w : Word) (s : State) : (accept w s).inRam = s.inRam := rfl
@[simp] theorem accept_outRam (w : Word) (s : State) : (accept w s).outRam = s.outRam := rfl
@[simp] theorem accept_dlRam (w : Word) (s : State) : (accept w s).dlRam = s.dlRam := rfl
@[simp] theorem accept_sample (w : Word) (s : State) : (accept w s).sample = s.sample := rfl
@[simp] theorem accept_derived (w : Word) (s : State) : (accept w s).derived = s.derived := rfl
@[simp] theorem accept_nf (w : Word) (s : State) : (accept w s).nf = s.nf := rfl
@[simp] theorem accept_busyLeft (w : Word) (s : State) : (accept w s).busyLeft = Config.busyEvents s.draws := rfl
@[simp] theorem accept_draws (w : Word) (s : State) : (accept w s).draws = s.draws + 1 := rfl
@[simp] theorem accept_hostQueue (w : Word) (s : State) : (accept w s).hostQueue = s.hostQueue := rfl
@[simp] theorem accept_responses (w : Word) (s : State) : (accept w s).responses = s.responses := rfl

@[simp] theorem beginRun_cmd (s : State) : (beginRun s).cmd = s.cmd := rfl
@[simp] theorem beginRun_status (s : State) : (beginRun s).status = s.status := rfl
@[simp] theorem beginRun_irqen (s : State) : (beginRun s).irqen = s.irqen := rfl
@[simp] theorem beginRun_len (s : State) : (beginRun s).len = s.len := rfl
@[simp] theorem beginRun_arg (s : State) : (beginRun s).arg = s.arg := rfl
@[simp] theorem beginRun_arg2 (s : State) : (beginRun s).arg2 = s.arg2 := rfl
@[simp] theorem beginRun_val (s : State) : (beginRun s).val = s.val := rfl
@[simp] theorem beginRun_result (s : State) : (beginRun s).result = s.result := rfl
@[simp] theorem beginRun_cap (s : State) : (beginRun s).cap = s.cap := rfl
@[simp] theorem beginRun_dlDepth (s : State) : (beginRun s).dlDepth = s.dlDepth := rfl
@[simp] theorem beginRun_nMax (s : State) : (beginRun s).nMax = s.nMax := rfl
@[simp] theorem beginRun_p (s : State) : (beginRun s).p = s.p := rfl
@[simp] theorem beginRun_band (s : State) : (beginRun s).band = s.band := rfl
@[simp] theorem beginRun_inRam (s : State) : (beginRun s).inRam = s.inRam := rfl
@[simp] theorem beginRun_outRam (s : State) : (beginRun s).outRam = s.outRam := rfl
@[simp] theorem beginRun_dlRam (s : State) : (beginRun s).dlRam = s.dlRam := rfl
@[simp] theorem beginRun_sample (s : State) : (beginRun s).sample = 0#32 := rfl
@[simp] theorem beginRun_derived (s : State) : (beginRun s).derived = {} := rfl
@[simp] theorem beginRun_nf (s : State) : (beginRun s).nf = false := rfl
@[simp] theorem beginRun_busyLeft (s : State) : (beginRun s).busyLeft = s.busyLeft := rfl
@[simp] theorem beginRun_draws (s : State) : (beginRun s).draws = s.draws := rfl
@[simp] theorem beginRun_hostQueue (s : State) : (beginRun s).hostQueue = s.hostQueue := rfl
@[simp] theorem beginRun_responses (s : State) : (beginRun s).responses = s.responses := rfl

@[simp] theorem complete_cmd (e : Option Reject) (s : State) : (complete e s).cmd = s.cmd := rfl
@[simp] theorem complete_status (e : Option Reject) (s : State) : (complete e s).status = completeStatus e s.nf s.status := rfl
@[simp] theorem complete_irqen (e : Option Reject) (s : State) : (complete e s).irqen = s.irqen := rfl
@[simp] theorem complete_len (e : Option Reject) (s : State) : (complete e s).len = s.len := rfl
@[simp] theorem complete_arg (e : Option Reject) (s : State) : (complete e s).arg = s.arg := rfl
@[simp] theorem complete_arg2 (e : Option Reject) (s : State) : (complete e s).arg2 = s.arg2 := rfl
@[simp] theorem complete_val (e : Option Reject) (s : State) : (complete e s).val = s.val := rfl
@[simp] theorem complete_result (e : Option Reject) (s : State) : (complete e s).result = s.result := rfl
@[simp] theorem complete_cap (e : Option Reject) (s : State) : (complete e s).cap = s.cap := rfl
@[simp] theorem complete_dlDepth (e : Option Reject) (s : State) : (complete e s).dlDepth = s.dlDepth := rfl
@[simp] theorem complete_nMax (e : Option Reject) (s : State) : (complete e s).nMax = s.nMax := rfl
@[simp] theorem complete_p (e : Option Reject) (s : State) : (complete e s).p = s.p := rfl
@[simp] theorem complete_band (e : Option Reject) (s : State) : (complete e s).band = s.band := rfl
@[simp] theorem complete_inRam (e : Option Reject) (s : State) : (complete e s).inRam = s.inRam := rfl
@[simp] theorem complete_outRam (e : Option Reject) (s : State) : (complete e s).outRam = s.outRam := rfl
@[simp] theorem complete_dlRam (e : Option Reject) (s : State) : (complete e s).dlRam = s.dlRam := rfl
@[simp] theorem complete_sample (e : Option Reject) (s : State) : (complete e s).sample = 0#32 := rfl
@[simp] theorem complete_derived (e : Option Reject) (s : State) : (complete e s).derived = {} := rfl
@[simp] theorem complete_nf (e : Option Reject) (s : State) : (complete e s).nf = false := rfl
@[simp] theorem complete_busyLeft (e : Option Reject) (s : State) : (complete e s).busyLeft = 0 := rfl
@[simp] theorem complete_draws (e : Option Reject) (s : State) : (complete e s).draws = s.draws := rfl
@[simp] theorem complete_hostQueue (e : Option Reject) (s : State) : (complete e s).hostQueue = s.hostQueue := rfl
@[simp] theorem complete_responses (e : Option Reject) (s : State) : (complete e s).responses = s.responses := rfl

@[simp] theorem acceptedAtOnce_cmd (w : Word) (s : State) : (acceptedAtOnce w s).cmd = w := rfl
@[simp] theorem acceptedAtOnce_status (w : Word) (s : State) : (acceptedAtOnce w s).status = acceptStatus s.status := rfl
@[simp] theorem acceptedAtOnce_irqen (w : Word) (s : State) : (acceptedAtOnce w s).irqen = s.irqen := rfl
@[simp] theorem acceptedAtOnce_len (w : Word) (s : State) : (acceptedAtOnce w s).len = s.len := rfl
@[simp] theorem acceptedAtOnce_arg (w : Word) (s : State) : (acceptedAtOnce w s).arg = s.arg := rfl
@[simp] theorem acceptedAtOnce_arg2 (w : Word) (s : State) : (acceptedAtOnce w s).arg2 = s.arg2 := rfl
@[simp] theorem acceptedAtOnce_val (w : Word) (s : State) : (acceptedAtOnce w s).val = s.val := rfl
@[simp] theorem acceptedAtOnce_result (w : Word) (s : State) : (acceptedAtOnce w s).result = s.result := rfl
@[simp] theorem acceptedAtOnce_cap (w : Word) (s : State) : (acceptedAtOnce w s).cap = s.cap := rfl
@[simp] theorem acceptedAtOnce_dlDepth (w : Word) (s : State) : (acceptedAtOnce w s).dlDepth = s.dlDepth := rfl
@[simp] theorem acceptedAtOnce_nMax (w : Word) (s : State) : (acceptedAtOnce w s).nMax = s.nMax := rfl
@[simp] theorem acceptedAtOnce_p (w : Word) (s : State) : (acceptedAtOnce w s).p = s.p := rfl
@[simp] theorem acceptedAtOnce_band (w : Word) (s : State) : (acceptedAtOnce w s).band = s.band := rfl
@[simp] theorem acceptedAtOnce_inRam (w : Word) (s : State) : (acceptedAtOnce w s).inRam = s.inRam := rfl
@[simp] theorem acceptedAtOnce_outRam (w : Word) (s : State) : (acceptedAtOnce w s).outRam = s.outRam := rfl
@[simp] theorem acceptedAtOnce_dlRam (w : Word) (s : State) : (acceptedAtOnce w s).dlRam = s.dlRam := rfl
@[simp] theorem acceptedAtOnce_sample (w : Word) (s : State) : (acceptedAtOnce w s).sample = s.sample := rfl
@[simp] theorem acceptedAtOnce_derived (w : Word) (s : State) : (acceptedAtOnce w s).derived = s.derived := rfl
@[simp] theorem acceptedAtOnce_nf (w : Word) (s : State) : (acceptedAtOnce w s).nf = s.nf := rfl
@[simp] theorem acceptedAtOnce_busyLeft (w : Word) (s : State) : (acceptedAtOnce w s).busyLeft = 0 := rfl
@[simp] theorem acceptedAtOnce_draws (w : Word) (s : State) : (acceptedAtOnce w s).draws = s.draws := rfl
@[simp] theorem acceptedAtOnce_hostQueue (w : Word) (s : State) : (acceptedAtOnce w s).hostQueue = s.hostQueue := rfl
@[simp] theorem acceptedAtOnce_responses (w : Word) (s : State) : (acceptedAtOnce w s).responses = s.responses := rfl

@[simp] theorem resetBlock_cmd (s : State) : (resetBlock s).cmd = State.reset.cmd := rfl
@[simp] theorem resetBlock_status (s : State) : (resetBlock s).status = State.reset.status := rfl
@[simp] theorem resetBlock_irqen (s : State) : (resetBlock s).irqen = State.reset.irqen := rfl
@[simp] theorem resetBlock_len (s : State) : (resetBlock s).len = State.reset.len := rfl
@[simp] theorem resetBlock_arg (s : State) : (resetBlock s).arg = State.reset.arg := rfl
@[simp] theorem resetBlock_arg2 (s : State) : (resetBlock s).arg2 = State.reset.arg2 := rfl
@[simp] theorem resetBlock_val (s : State) : (resetBlock s).val = State.reset.val := rfl
@[simp] theorem resetBlock_result (s : State) : (resetBlock s).result = State.reset.result := rfl
@[simp] theorem resetBlock_cap (s : State) : (resetBlock s).cap = State.reset.cap := rfl
@[simp] theorem resetBlock_dlDepth (s : State) : (resetBlock s).dlDepth = s.dlDepth := rfl
@[simp] theorem resetBlock_nMax (s : State) : (resetBlock s).nMax = s.nMax := rfl
@[simp] theorem resetBlock_p (s : State) : (resetBlock s).p = State.reset.p := rfl
@[simp] theorem resetBlock_band (s : State) : (resetBlock s).band = State.reset.band := rfl
@[simp] theorem resetBlock_inRam (s : State) : (resetBlock s).inRam = State.reset.inRam := rfl
@[simp] theorem resetBlock_outRam (s : State) : (resetBlock s).outRam = State.reset.outRam := rfl
@[simp] theorem resetBlock_dlRam (s : State) : (resetBlock s).dlRam = State.reset.dlRam := rfl
@[simp] theorem resetBlock_sample (s : State) : (resetBlock s).sample = State.reset.sample := rfl
@[simp] theorem resetBlock_derived (s : State) : (resetBlock s).derived = State.reset.derived := rfl
@[simp] theorem resetBlock_nf (s : State) : (resetBlock s).nf = State.reset.nf := rfl
@[simp] theorem resetBlock_busyLeft (s : State) : (resetBlock s).busyLeft = State.reset.busyLeft := rfl
@[simp] theorem resetBlock_draws (s : State) : (resetBlock s).draws = s.draws := rfl
@[simp] theorem resetBlock_hostQueue (s : State) : (resetBlock s).hostQueue = s.hostQueue := rfl
@[simp] theorem resetBlock_responses (s : State) : (resetBlock s).responses = s.responses := rfl

@[simp] theorem sampleStep_sample (body : State → State) (s : State) :
    (sampleStep body s).sample = (body s).sample + 1#32 := rfl
@[simp] theorem sampleStep_cmd (body : State → State) (s : State) : (sampleStep body s).cmd = (body s).cmd := rfl
@[simp] theorem sampleStep_status (body : State → State) (s : State) : (sampleStep body s).status = (body s).status := rfl
@[simp] theorem sampleStep_irqen (body : State → State) (s : State) : (sampleStep body s).irqen = (body s).irqen := rfl
@[simp] theorem sampleStep_len (body : State → State) (s : State) : (sampleStep body s).len = (body s).len := rfl
@[simp] theorem sampleStep_arg (body : State → State) (s : State) : (sampleStep body s).arg = (body s).arg := rfl
@[simp] theorem sampleStep_arg2 (body : State → State) (s : State) : (sampleStep body s).arg2 = (body s).arg2 := rfl
@[simp] theorem sampleStep_val (body : State → State) (s : State) : (sampleStep body s).val = (body s).val := rfl
@[simp] theorem sampleStep_result (body : State → State) (s : State) : (sampleStep body s).result = (body s).result := rfl
@[simp] theorem sampleStep_cap (body : State → State) (s : State) : (sampleStep body s).cap = (body s).cap := rfl
@[simp] theorem sampleStep_dlDepth (body : State → State) (s : State) : (sampleStep body s).dlDepth = (body s).dlDepth := rfl
@[simp] theorem sampleStep_nMax (body : State → State) (s : State) : (sampleStep body s).nMax = (body s).nMax := rfl
@[simp] theorem sampleStep_p (body : State → State) (s : State) : (sampleStep body s).p = (body s).p := rfl
@[simp] theorem sampleStep_band (body : State → State) (s : State) : (sampleStep body s).band = (body s).band := rfl
@[simp] theorem sampleStep_inRam (body : State → State) (s : State) : (sampleStep body s).inRam = (body s).inRam := rfl
@[simp] theorem sampleStep_outRam (body : State → State) (s : State) : (sampleStep body s).outRam = (body s).outRam := rfl
@[simp] theorem sampleStep_dlRam (body : State → State) (s : State) : (sampleStep body s).dlRam = (body s).dlRam := rfl
@[simp] theorem sampleStep_derived (body : State → State) (s : State) : (sampleStep body s).derived = (body s).derived := rfl
@[simp] theorem sampleStep_nf (body : State → State) (s : State) : (sampleStep body s).nf = (body s).nf := rfl
@[simp] theorem sampleStep_busyLeft (body : State → State) (s : State) : (sampleStep body s).busyLeft = (body s).busyLeft := rfl
@[simp] theorem sampleStep_draws (body : State → State) (s : State) : (sampleStep body s).draws = (body s).draws := rfl
@[simp] theorem sampleStep_hostQueue (body : State → State) (s : State) : (sampleStep body s).hostQueue = (body s).hostQueue := rfl
@[simp] theorem sampleStep_responses (body : State → State) (s : State) : (sampleStep body s).responses = (body s).responses := rfl

end Sys2Proof.Machine
end

