-- ==== Sys2Proof/Laws/Ops.lean ====
section
/-! SUPPORT. What each shared operation of Machine/Ops.lean and Machine/Operands.lean can do, said once. -/

namespace Sys2Proof.Machine

/-! ### Reading -/

theorem readIn_of_written (k : Nat) (s : State) (v : Word) (h : Memory.loadWord .input s.inRam k = some v) :
    readIn k s = (v, s) := by simp [readIn, h]

theorem readIn_of_unwritten (k : Nat) (s : State) (h : Memory.loadWord .input s.inRam k = none) :
    readIn k s = (Config.freeWord s.draws, { s with draws := s.draws + 1 }) := by simp [readIn, h, drawWord]

/-- A read of IN changes nothing but the count of draws. -/
theorem readIn_state (k : Nat) (s : State) : ∃ d, (readIn k s).2 = { s with draws := d } := by
  unfold readIn drawWord
  split
  · exact ⟨s.draws, rfl⟩
  · exact ⟨s.draws + 1, rfl⟩

theorem readOut_of_written (k : Nat) (s : State) (v : Word) (h : Memory.loadWord .output s.outRam k = some v) :
    readOut k s = (v, s) := by simp [readOut, h]

theorem readOut_state (k : Nat) (s : State) : ∃ d, (readOut k s).2 = { s with draws := d } := by
  unfold readOut drawWord
  split
  · exact ⟨s.draws, rfl⟩
  · exact ⟨s.draws + 1, rfl⟩

theorem dlRead_eq (i : Word) (s : State) (v : Word)
    (h : Memory.loadWord .line s.dlRam (i.toNat % s.cap.toNat) = some v) : dlRead i s = v := by
  simp [dlRead, dlIndex, h]

/-- A read of the delay line after a write at the same index. -/
theorem dlRead_dlWrite_same (i : Word) (v : F32) (s : State) : dlRead i (dlWrite i v s) = v := by
  simp [dlRead, dlIndex]

/-- A read of the delay line after a write that goes to another word. -/
theorem dlRead_dlWrite_other (i j : Word) (v : F32) (s : State) (h : dlIndex j s ≠ dlIndex i s) :
    dlRead j (dlWrite i v s) = dlRead j s := by
  simp only [dlIndex] at h
  simp [dlRead, dlIndex, Memory.loadWord_storeWord_other _ _ _ _ _ h]

/-- A fresh line reads +0.0 at every index. -/
theorem dlRead_createLine (i c : Word) (s : State) (hc : c ≠ 0#32) : dlRead i (createLine c s) = fZero := by
  have h0 : 0 < c.toNat := by
    rcases Nat.eq_zero_or_pos c.toNat with h | h
    · exact absurd (BitVec.eq_of_toNat_eq (by simpa using h)) hc
    · exact h
  simp [dlRead, dlIndex, Memory.loadWord_zeroWords, Nat.mod_lt _ h0, fZero]

/-- The Delay recurrence for one index: its output and its write (R92). -/
theorem delayBody_eq (i : Word) (x mix omix fb : F32) (s : State) :
    delayBody i x mix omix fb s =
      (fadd (fmul x omix) (fmul (delayedAt i s) mix), dlWrite i (fadd x (fmul (delayedAt i s) fb)) s) := rfl

theorem delayedAt_below (i : Word) (s : State) (h : i.toNat < s.cap.toNat) : delayedAt i s = fZero := by
  simp [delayedAt, h]

theorem delayedAt_from (i : Word) (s : State) (h : s.cap.toNat ≤ i.toNat) : delayedAt i s = dlRead i s := by
  simp [delayedAt, Nat.not_lt.mpr h]

/-! ### The frame loop -/

@[simp] theorem frameLoop_zero (body : State → State) (s : State) : frameLoop body 0 s = s := rfl

theorem frameLoop_succ (body : State → State) (n : Nat) (s : State) :
    frameLoop body (n + 1) s = sampleStep body (frameLoop body n s) := rfl

/-- What every body keeps holds after the frame. -/
theorem frameLoop_induct {P : Nat → State → Prop} (body : State → State) (s : State) (n : Nat) (h0 : P 0 s)
    (hs : ∀ k t, k < n → P k t → P (k + 1) (sampleStep body t)) : P n (frameLoop body n s) := by
  induction n with
  | zero => exact h0
  | succ n ih => exact hs n _ (Nat.lt_succ_self n) (ih fun k t hk => hs k t (Nat.lt_succ_of_lt hk))

/-- The counter after `n` bodies that do not touch it. -/
theorem frameLoop_sample (body : State → State) (hb : ∀ t, (body t).sample = t.sample) (n : Nat) (s : State) :
    (frameLoop body n s).sample = s.sample + BitVec.ofNat 32 n := by
  induction n with
  | zero => simp
  | succ n ih =>
    rw [frameLoop_succ, sampleStep_sample, hb, ih, BitVec.ofNat_add n 1, ← BitVec.add_assoc]

/-- A field that no body touches is as it was. -/
theorem frameLoop_keeps {α : Type} (f : State → α) (body : State → State) (hb : ∀ t, f (body t) = f t)
    (hs : ∀ (t : State) (c : Word), f { t with sample := c } = f t) (n : Nat) (s : State) :
    f (frameLoop body n s) = f s := by
  induction n with
  | zero => rfl
  | succ n ih => rw [frameLoop_succ, sampleStep, hs, hb, ih]

/-! ### The life of a command -/

/-- A command that validation accepts (30_encoding R81). -/
theorem runCommand_ok (v : State → Except Reject Plan) (e : Plan → State → State) (s : State) (p : Plan)
    (h : v (beginRun s) = .ok p) :
    runCommand v e s = .next (complete none (e p { beginRun s with derived := p.derived })) := by
  simp [runCommand, h]

/-- A command that validation rejects: only completion happens (30_encoding R81, 60_exceptions R123). -/
theorem runCommand_error (v : State → Except Reject Plan) (e : Plan → State → State) (s : State) (r : Reject)
    (h : v (beginRun s) = .error r) : runCommand v e s = .next (complete (some r) (beginRun s)) := by
  simp [runCommand, h]

/-- Every command answers a next state, by one of these two ways. -/
theorem runCommand_cases (v : State → Except Reject Plan) (e : Plan → State → State) (s : State) :
    (∃ p, v (beginRun s) = .ok p ∧
      runCommand v e s = .next (complete none (e p { beginRun s with derived := p.derived }))) ∨
    (∃ r, v (beginRun s) = .error r ∧ runCommand v e s = .next (complete (some r) (beginRun s))) := by
  cases h : v (beginRun s) with
  | ok p => exact .inl ⟨p, rfl, runCommand_ok v e s p h⟩
  | error r => exact .inr ⟨r, rfl, runCommand_error v e s r h⟩

/-! ### Validation -/

theorem checkLen_ok_iff (s : State) : checkLen s = .ok () ↔ s.len.toNat ≤ s.nMax.toNat := by
  unfold checkLen
  split <;> simp_all

theorem checkFinite_ok_iff (l : List F32) : checkFinite l = .ok () ↔ ∀ v ∈ l, isFinite v = true := by
  unfold checkFinite
  split <;> simp_all

theorem checkDerived_ok_iff (l : List F32) : checkDerived l = .ok () ↔ ∀ v ∈ l, isFinite v = true := by
  unfold checkDerived
  split <;> simp_all

/-- A capacity that validation gives is in 1 .. DL_DEPTH (00_scope R25). -/
theorem capClamp_range (depth : Word) (c : F32) (n : Word) (hd : 1 ≤ depth.toNat)
    (h : capClamp depth c = .ok n) : 1 ≤ n.toNat ∧ n.toNat ≤ depth.toNat := by
  unfold capClamp at h
  have one : (1#32).toNat = 1 := rfl
  split at h
  · cases h
  · split at h
    · split at h
      · cases h; rw [one]; omega
      · cases h
    · simp only at h
      split at h
      · cases h; rw [one]; omega
      · split at h
        · cases h
        · cases h
          have := depth.isLt
          rw [BitVec.toNat_ofNat, Nat.mod_eq_of_lt (by omega)]
          omega

/-- A capacity taken from ARG is in 1 .. DL_DEPTH (00_scope R26). -/
theorem capArg_range (depth a n : Word) (hd : 1 ≤ depth.toNat) (h : capArg depth a = .ok n) :
    1 ≤ n.toNat ∧ n.toNat ≤ depth.toNat := by
  unfold capArg at h
  have one : (1#32).toNat = 1 := rfl
  split at h
  · cases h; rw [one]; omega
  · rename_i h0
    split at h
    · cases h
    · cases h
      refine ⟨?_, by omega⟩
      rcases Nat.eq_zero_or_pos a.toNat with hz | hz
      · exact absurd (BitVec.eq_of_toNat_eq (by simpa using hz)) h0
      · exact hz

/-! ### The configuration functions -/

theorem isZero_cases (v : F32) (h : isZero v = true) : v = fZero ∨ v = fNegZero := by
  have hm : (v.extractLsb' 0 31).toNat = 0 := by simpa [isZero, magBits] using h
  rw [BitVec.extractLsb'_toNat, Nat.shiftRight_zero] at hm
  have hv := v.isLt
  have e : v.toNat = 0 ∨ v.toNat = 2 ^ 31 := by omega
  rcases e with e | e
  · exact .inl (BitVec.eq_of_toNat_eq (by simp [e, fZero]))
  · exact .inr (BitVec.eq_of_toNat_eq (by simp [e, fNegZero]))

/-- `fsin` is the configuration function SIN at every input. -/
theorem fsin_eq (v : F32) : fsin v = Config.sinFn.f v := by
  unfold fsin
  split
  · rename_i h
    rcases isZero_cases v h with rfl | rfl
    · exact Config.sinFn.posZero.symm
    · exact Config.sinFn.negZero.symm
  · rfl

/-- `fpow10` is the configuration function POW10 at every input. -/
theorem fpow10_eq (v : F32) : fpow10 v = Config.pow10Fn.f v := by
  unfold fpow10
  split
  · rename_i h
    rcases isZero_cases v h with rfl | rfl
    · exact Config.pow10Fn.posZero.symm
    · exact Config.pow10Fn.negZero.symm
  · split
    · rename_i h; subst h; exact Config.pow10Fn.one.symm
    · rfl

end Sys2Proof.Machine
end

