-- ==== Sys2Proof/Laws/PerInstr.lean ====
section
/-! SUPPORT. The per-instruction families of LAWS.json. -/

namespace Sys2Proof

/-- OPC of a packed word. -/
theorem opcField_packFields (opc : BitVec 8) (nb : BitVec 3) (ksel : BitVec 2) (tone lvl mix : Bool) :
    opcField (packFields opc nb ksel tone lvl mix) = opc := by
  apply BitVec.eq_of_toNat_eq
  simp only [opcField, packFields, BitVec.extractLsb'_toNat, BitVec.toNat_append, Nat.shiftRight_zero,
    Nat.shiftLeft_eq]
  have ho := opc.isLt
  rw [Nat.or_mod_two_pow, Nat.mul_mod_left, Nat.zero_or, Nat.mod_eq_of_lt ho]

end Sys2Proof

namespace Sys2Proof.Laws.EncodeOpcode

/-- The encoder puts the command's opcode into OPC (30_encoding R76, R87). -/
def Statement (i : Instr) : Prop := opcField (encode i) = opcodeOf i

theorem nop : Statement .nop := opcField_packFields ..
theorem dlCreate : Statement .dlCreate := opcField_packFields ..
theorem dlCreateMs : Statement .dlCreateMs := opcField_packFields ..
theorem dlCreateFrac : Statement .dlCreateFrac := opcField_packFields ..
theorem dlRead : Statement .dlRead := opcField_packFields ..
theorem dlWrite : Statement .dlWrite := opcField_packFields ..
theorem dlStep : Statement .dlStep := opcField_packFields ..
theorem oscValue : Statement .oscValue := opcField_packFields ..
theorem delay : Statement .delay := opcField_packFields ..
theorem reverb : Statement .reverb := opcField_packFields ..
theorem flangerMod : Statement .flangerMod := opcField_packFields ..
theorem flangerManual : Statement .flangerManual := opcField_packFields ..
theorem tremolo : Statement .tremolo := opcField_packFields ..
theorem chorus : Statement .chorus := opcField_packFields ..
theorem wahwah : Statement .wahwah := opcField_packFields ..
theorem waveshape (ksel : BitVec 2) (tone lvl mix : Bool) : Statement (.waveshape ksel tone lvl mix) :=
  opcField_packFields ..
theorem compress : Statement .compress := opcField_packFields ..
theorem eq7 (nb : BitVec 3) : Statement (.eq7 nb) := opcField_packFields ..
theorem tuner : Statement .tuner := opcField_packFields ..

end Sys2Proof.Laws.EncodeOpcode
end

