-- ==== Sys2Proof/Tests/Slice0.lean ====
section
/-! SUPPORT. Tests. Expected values are those of spec/95_test_vectors.md, of the examples of the rules, or worked out by
hand from the rules, as each comment says. Then a witness for the hypotheses of each statement. -/

namespace Sys2Proof.Tests

-- One theorem at a time: together their kernel evaluations start more threads than the check's memory limit admits.
set_option Elab.async false

open Sys2Proof.Machine Sys2Proof.Statements

/-! ### Helpers -/

/-- The block of 95_test_vectors: DL_DEPTH = 256, N_MAX = 16, after reset. -/
def small : State := { State.reset with dlDepth := 256#32, nMax := 16#32 }

/-- A frame in IN and P0 to P3. -/
def frame (a b c d : F32) (xs : List F32) : State :=
  { small with
    p := #v[a, b, c, d, 0#32, 0#32, 0#32, 0#32]
    len := BitVec.ofNat 32 xs.length
    inRam := xs.zipIdx.foldl (fun m x => Memory.storeWord .input m x.2 x.1) [] }

/-- The state a command leaves. -/
def after (i : Instr) (s : State) : State :=
  match exec i s with
  | .next t => t
  | .fault _ => s
  | .refused _ => s

/-- The state a step leaves. -/
def stepped (s : State) : State :=
  match step s with
  | .next t => t
  | .fault _ => s
  | .refused _ => s

/-- The first `n` words of OUT. -/
def outs (n : Nat) (s : State) : List (Option Word) :=
  (List.range n).map (Memory.loadWord .output s.outRam)

/-- The first `n` words of the delay line. -/
def lines (n : Nat) (s : State) : List (Option Word) :=
  (List.range n).map (Memory.loadWord .line s.dlRam)

/-- STATUS as the host reads it. -/
def status (s : State) : Word := statusWord s.status

/-- A delay line of three words, the first two given. -/
def line3 (a b : F32) : State :=
  { small with cap := 3#32, dlRam := Memory.storeWord .line (Memory.storeWord .line [] 0 a) 1 b }

theorem runCommand_next (v : State → Except Reject Plan) (e : Plan → State → State) (s : State) :
    ∃ t, runCommand v e s = .next t := by
  unfold runCommand
  dsimp only
  split <;> exact ⟨_, rfl⟩

theorem exec_next (i : Instr) (s : State) : ∃ t, exec i s = .next t := by
  cases i <;>
    simp only [exec, execNop, execDlCreate, execDlCreateMs, execDlCreateFrac, execDlRead, execDlWrite, execDlStep,
      execOscValue, execDelay, execReverb, execFlangerMod, execFlangerManual, execTremolo, execChorus, execWahwah,
      execWaveshape, execCompress, execEq7, execTuner] <;>
    exact runCommand_next _ _ _

theorem exec_after (i : Instr) (s : State) : exec i s = .next (after i s) := by
  obtain ⟨t, h⟩ := exec_next i s
  simp [after, h]

theorem step_next (s : State) : ∃ t, step s = .next t := by
  unfold step
  split
  · exact ⟨_, rfl⟩
  · exact ⟨_, rfl⟩
  · unfold runWord
    split
    · exact exec_next _ _
    · exact ⟨_, rfl⟩

theorem step_stepped (s : State) : step s = .next (stepped s) := by
  obtain ⟨t, h⟩ := step_next s
  simp [stepped, h]

/-! ### WellFormed: its one check refuses KSEL = 3 (R79, R112) -/

theorem test_wellFormed_refuses_ksel3 : (Instr.waveshape 3#2 true true true).wellFormed = false := by decide
theorem test_wellFormed_takes_ksel2 : (Instr.waveshape 2#2 false false false).wellFormed = true := by decide
theorem test_wellFormed_takes_nb7 : (Instr.eq7 7#3).wellFormed = true := by decide

/-! ### Decode: every command's word as its rule's Encoding line prints it (40 to 45), one per family bit by bit -/

theorem test_decode_nop : decode 0x00000000#32 = .ok .nop := by decide
theorem test_decode_dlCreate : decode 0x00000001#32 = .ok .dlCreate := by decide
theorem test_decode_dlCreateMs : decode 0x00000002#32 = .ok .dlCreateMs := by decide
theorem test_decode_dlCreateFrac : decode 0x00000003#32 = .ok .dlCreateFrac := by decide
theorem test_decode_dlRead : decode 0x00000004#32 = .ok .dlRead := by decide
theorem test_decode_dlWrite : decode 0x00000005#32 = .ok .dlWrite := by decide
theorem test_decode_dlStep : decode 0x00000006#32 = .ok .dlStep := by decide
theorem test_decode_oscValue : decode 0x00000008#32 = .ok .oscValue := by decide
theorem test_decode_delay : decode 0b00000000000000000000000000010000#32 = .ok .delay := by decide
theorem test_decode_reverb : decode 0x00000011#32 = .ok .reverb := by decide
theorem test_decode_flangerMod : decode 0x00000012#32 = .ok .flangerMod := by decide
theorem test_decode_flangerManual : decode 0x00000013#32 = .ok .flangerManual := by decide
theorem test_decode_tremolo : decode 0b00000000000000000000000000100000#32 = .ok .tremolo := by decide
theorem test_decode_chorus : decode 0x00000021#32 = .ok .chorus := by decide
theorem test_decode_wahwah : decode 0x00000022#32 = .ok .wahwah := by decide
/-- `r..r M L T rr KK r NNN OOOOOOOO` (R72): MIX 0, LVL 1, TONE 1, KSEL 01, OPC 0x30. -/
theorem test_decode_waveshape_bits :
    decode 0b0000000000000_0_1_1_00_01_0_000_00110000#32 = .ok (.waveshape 1#2 true true false) := by decide
theorem test_decode_waveshape_mix : decode 0x00042030#32 = .ok (.waveshape 2#2 false false true) := by decide
theorem test_decode_compress : decode 0b00000000000000000000000000111000#32 = .ok .compress := by decide
/-- NB 011, OPC 0x40. -/
theorem test_decode_eq7_bits : decode 0b0000000000000_0_0_0_00_00_0_011_01000000#32 = .ok (.eq7 3#3) := by decide
theorem test_decode_eq7_max : decode 0x00000740#32 = .ok (.eq7 7#3) := by decide
theorem test_decode_tuner : decode 0b00000000000000000000000001001000#32 = .ok .tuner := by decide
/-- The rows of 95 section 2.8. -/
theorem test_decode_reserved_opcode : decode 0x00000007#32 = .error .badOpcode := by decide
theorem test_decode_opcode_before_field : decode 0x00000241#32 = .error .badOpcode := by decide
theorem test_decode_nop_with_nb : decode 0x00000100#32 = .error .badField := by decide
theorem test_decode_delay_bit31 : decode 0x80000010#32 = .error .badField := by decide
theorem test_decode_delay_tone : decode 0x00010010#32 = .error .badField := by decide
theorem test_decode_delay_bit11 : decode 0x00000810#32 = .error .badField := by decide
theorem test_decode_ksel3 : decode 0x00003030#32 = .error .badField := by decide
/-- The two words R87 writes out. -/
theorem test_encode_waveshape : encode (.waveshape 1#2 true true false) = 0x00031030#32 := by decide
theorem test_encode_eq7 : encode (.eq7 3#3) = 0x00000340#32 := by decide
theorem test_decodeTableWord : decodeTableWord 32 0x00000048 = some .tuner := by decide

/-- The values of R124's table. -/
theorem test_rejectCode : [Reject.badOpcode, .badField, .lenRange, .paramNonfinite, .negGain, .ratioNonpos, .capRange,
    .derivedNonfinite].map rejectCode = [1#8, 2#8, 3#8, 4#8, 5#8, 6#8, 7#8, 8#8] := by decide

/-! ### Arithmetic (95 section 2.1; 2.6 for the sum) -/

theorem test_capMs_068 : capMs 256#32 0x3D8B4396#32 = .ok 3#32 := by decide +kernel
theorem test_capMs_bound : capMs 44099#32 0x447A0000#32 = .error .capRange := by decide +kernel
theorem test_capFrac_quarter : capFrac 65536#32 0x3E800000#32 = .ok 11025#32 := by decide +kernel
theorem test_roundHA_half : roundHA 0xBFC00000#32 = -2 := by decide +kernel
theorem test_oscPhase : oscPhase 22050#32 0x3F800000#32 = 0x40490FDA#32 := by decide +kernel
/-- R20: of the F32 around 0.1 = 2^149 / 10 units of 2^-149, those within 2^-27 of it, which is 2^122 units. -/
theorem test_tenth_within_one_ulp :
    [0x3DCCCCCB#32, 0x3DCCCCCC#32, 0x3DCCCCCD#32, 0x3DCCCCCE#32].map
      (fun w => decide ((10 * fVal w - 2 ^ 149).natAbs ≤ 10 * 2 ^ 122)) = [false, true, true, false] := by
  decide +kernel
theorem test_bandSum : fadd fOne (bandSum (List.replicate 7 0x3F800000#32)) = 0x3FBBBBBC#32 := by decide +kernel

/-! ### The commands -/

/-- 95 section 2.7: only STATUS, which reads 0x2. -/
theorem test_nop : (after .nop small) = { small with status := (after .nop small).status } ∧
    status (after .nop small) = 0x2#32 := by decide +kernel
/-- 95 section 2.2, rows 1 and 5. -/
theorem test_dlCreate : let t := after .dlCreate { small with arg := 4#32 };
    (t.result, t.cap, status t) = (4#32, 4#32, 0x2#32) := by decide +kernel
theorem test_dlCreate_over : let t := after .dlCreate { small with arg := 257#32 };
    (t.result, t.cap, status t) = (0#32, 1#32, 0x706#32) := by decide +kernel
/-- 95 P6. -/
theorem test_dlCreateMs : (after .dlCreateMs (frame 0x3D8B4396#32 0 0 0 [])).result = 3#32 := by decide +kernel
/-- R95: a NaN time is PARAM_NONFINITE. -/
theorem test_dlCreateMs_nan : status (after .dlCreateMs (frame 0x7FC00000#32 0 0 0 [])) = 0x406#32 := by decide +kernel
/-- 95 section 2.1: `f:1e-4` gives 4. -/
theorem test_dlCreateFrac : (after .dlCreateFrac (frame 0x38D1B717#32 0 0 0 [])).cap = 4#32 := by decide +kernel
/-- R97's example with CAP = 3: 10 mod 3 = 1. -/
theorem test_dlRead : (after .dlRead { line3 0#32 0x40200000#32 with arg := 10#32 }).result = 0x40200000#32 := by
  decide +kernel
/-- R98: a signalling NaN keeps every bit, and NONFINITE is set. -/
theorem test_dlWrite : let t := after .dlWrite { line3 0#32 0#32 with arg := 5#32, val := 0x7F800001#32 };
    (lines 3 t, status t) = ([some 0#32, some 0#32, some 0x7F800001#32], 0xA#32) := by decide +kernel
/-- 95 section 2.2, the two rows of DL_STEP. -/
theorem test_dlStep : let t := (after .dlStep
      { frame 0 0x3F000000#32 0x3F000000#32 0 [] with
        arg := 3#32, cap := 3#32, dlRam := (line3 0x3F800000#32 0#32).dlRam });
    (t.result, lines 3 t) = (0x3F000000#32, [some 0x3F000000#32, some 0#32, some 0#32]) := by decide +kernel
theorem test_dlStep_guard : let t := (after .dlStep
      { frame 0 0x3F000000#32 0x3F000000#32 0 [] with
        arg := 1#32, cap := 3#32, dlRam := (line3 0#32 0x40A00000#32).dlRam });
    (t.result, lines 3 t) = (0#32, [some 0#32, some 0#32, some 0#32]) := by decide +kernel
/-- 95 section 2.3: index 0 with a negative rate is -0.0. -/
theorem test_oscValue : (after .oscValue (frame 0xC0A00000#32 0 0 0 [])).result = 0x80000000#32 := by decide +kernel
/-- 95 E3. -/
theorem test_delay : let t := (after .delay (frame 0x3D8B4396#32 0#32 0x3F000000#32 0
      [0x3F800000#32, 0xC0000000#32, 0x80000000#32, 0x40400000#32, 0x3F000000#32]));
    outs 5 t = [some 0x3F800000#32, some 0xC0000000#32, some 0x00000000#32, some 0x40400000#32, some 0x3F000000#32] ∧
    lines 3 t = [some 0x40600000#32, some 0xBF000000#32, some 0#32] := by decide +kernel
/-- 95 section 2.2, overflow. -/
theorem test_delay_overflow : let t := after .delay (frame 0#32 0#32 0x40000000#32 0 [0x7F61B1E6#32, 0, 0, 0]);
    (outs 4 t, status t) =
      ([some 0x7F61B1E6#32, some 0#32, some 0x7FC00000#32, some 0x7FC00000#32], 0xA#32) := by decide +kernel
/-- R103's example. -/
theorem test_reverb : outs 3 (after .reverb (frame 0#32 0x3F000000#32 0x3F000000#32 0 [0x40000000#32, 0, 0])) =
    [some 0x3F800000#32, some 0x3F800000#32, some 0x3F000000#32] := by decide +kernel
/-- 95 section 2.2, the first row of FLANGER_MOD. -/
theorem test_flangerMod : let t := (after .flangerMod
      { frame 0#32 0x3F4CCCCD#32 0x3F000000#32 0 [0x3F800000#32, 0, 0, 0, 0] with arg := 2#32 });
    (outs 2 t, lines 2 t, t.cap) =
      ([some 0x3F800000#32, some 0#32], [some 0x3E800000#32, some 0#32], 2#32) := by decide +kernel
/-- 95 section 2.2, the row of FLANGER_MANUAL with ARG = 0. -/
theorem test_flangerManual : let t := (after .flangerManual
      (frame 0#32 0x3F000000#32 0x3F000000#32 0 [0x3F800000#32, 0x40000000#32, 0xC0800000#32]));
    (outs 3 t, lines 1 t, t.cap) =
      ([some 0x3F800000#32, some 0x40000000#32, some 0xC0800000#32], [some 0xC0300000#32], 1#32) := by decide +kernel
/-- 95 section 2.3: a NaN becomes the canonical NaN, +Inf passes, NONFINITE is set. -/
theorem test_tremolo : let t := after .tremolo (frame 0#32 0#32 0#32 0#32 [0x7F800001#32, 0x7F800000#32]);
    (outs 2 t, status t) = ([some 0x7FC00000#32, some 0x7F800000#32], 0xA#32) := by decide +kernel
/-- 95 section 2.3. -/
theorem test_chorus : outs 2 (after .chorus (frame 0#32 0x3F800000#32 0x40000000#32 0 [0x80000000#32, 0x40400000#32])) =
    [some 0x80000000#32, some 0x40400000#32] := by decide +kernel
/-- 95 section 2.3: index 0 gives +0.0; a span that overflows is DERIVED_NONFINITE. -/
theorem test_wahwah : outs 1 (after .wahwah (frame 0#32 0#32 0x47AC4400#32 0x3F800000#32 [0x3F800000#32])) =
    [some 0#32] := by decide +kernel
theorem test_wahwah_span : status (after .wahwah (frame 0#32 0xFF61B1E6#32 0x7F61B1E6#32 0#32 [])) = 0x806#32 := by
  decide +kernel
/-- 95 section 2.4, the rows with all stages and of gain -1.0. -/
theorem test_waveshape : outs 3 (after (.waveshape 1#2 true true true)
      (frame 0x42200000#32 0x40A00000#32 0x41000000#32 0x3F000000#32 [0x3F000000#32, 0xC0000000#32, 0x3E800000#32])) =
    [some 0x3EE66666#32, some 0xBF99999A#32, some 0x3E666666#32] := by decide +kernel
theorem test_waveshape_neg : status (after (.waveshape 0#2 false false false) (frame 0xBF800000#32 0 0 0 [])) = 0x506#32 := by
  decide +kernel
/-- 95 E8 with P2 = f:5.0, and a ratio of -0.0. -/
theorem test_compress : outs 4 (after .compress (frame 0#32 0x40000000#32 0x40A00000#32 0
      [0x3F000000#32, 0x40400000#32, 0xC0A00000#32, 0x3F800000#32])) =
    [some 0x3E800000#32, some 0x3F800000#32, some 0xBFC00000#32, some 0x3F000000#32] := by decide +kernel
theorem test_compress_ratio : status (after .compress (frame 0#32 0x80000000#32 0x40A00000#32 0 [])) = 0x606#32 := by
  decide +kernel
/-- 95 section 2.6, the n = 2 row; the third slot is not read. -/
theorem test_eq7 : outs 2 (after (.eq7 2#3)
      { frame 0 0 0 0 [0x3F000000#32, 0x40400000#32] with
        band := #v[0x41700000#32, 0xC0F00000#32, 0x7FC00000#32, 0, 0, 0, 0] }) =
    [some 0x3F400000#32, some 0x40900000#32] := by decide +kernel
/-- 95 E5, and LEN = 17 with N_MAX = 16. -/
theorem test_tuner : let t := after .tuner (frame 0 0 0 0 [0x3F000000#32, 0x7FC00000#32, 0xBF800000#32]);
    (outs 3 t, status t) = ([some 0#32, some 0#32, some 0#32], 0x2#32) := by decide +kernel
theorem test_tuner_len : status (after .tuner { small with len := 17#32 }) = 0x306#32 := by decide +kernel

/-! ### The step and the host's side -/

theorem test_step_runs_from_reset : status (stepped (State.reset.withFetchWord 32 0x48)) = 0x2#32 := by decide +kernel
theorem test_step_idle : step small = .next small := rfl
/-- 95 section 2.9, rows 8 and 9. -/
theorem test_status_w1c : statusWord (clearStatus 0x4#32
    { busy := false, done := true, err := true, nonfinite := false, errcode := 0x06#8 }) = 0x2#32 := by decide
theorem test_status_w1c_all : statusWord (clearStatus 0xFFFFFFFF#32
    { busy := false, done := true, err := false, nonfinite := true, errcode := 0#8 }) = 0#32 := by decide
/-- 95 section 2.9, row 15. -/
theorem test_irqen : irqenWord (irqenOf 0xFFFFFFFF#32) = 0x7#32 := by decide
/-- 95 section 2.9, row 7. -/
theorem test_in_window_end : busWrite 0x400040#24 .word 1#32 small = (.error, small) := by decide +kernel
/-- 95 section 2.9, row 18. -/
theorem test_lane3 : byteLane 0x40200000#32 3 = 0x40#8 := by decide

/-! ### Witnesses: a state and operands that meet the hypotheses of each statement, one for each clause -/

theorem witness_DecodeOfEncodedCommand :
    (Instr.waveshape 2#2 true false true).wellFormed = true ∧ (Instr.eq7 7#3).wellFormed = true := by decide
theorem witness_EncodeOfDecodedWord : decode 0x00072030#32 = .ok (.waveshape 2#2 true true true) := by decide
theorem witness_UndecodableWordsByRule :
    decode 0x00000047#32 = .error .badOpcode ∧ decode 0x00000120#32 = .error .badField ∧
    decode 0x00001040#32 = .error .badField ∧ decode 0x00080030#32 = .error .badField ∧
    decode 0x00003030#32 = .error .badField := by decide

/-- A TUNER word accepted, nothing left of its busy window. -/
def busyTuner : State := small.withFetchWord 32 0x48

theorem witness_StepRunsTheDecodedCommand :
    busyTuner.status.busy = true ∧ busyTuner.busyLeft = 0 ∧ decode busyTuner.cmd = .ok .tuner := by decide +kernel
theorem witness_StepRunsTheDecodedCommand_noEvents :
    let s := { busyTuner with busyLeft := 5 }
    s.status.busy = true ∧ s.hostQueue = [] ∧ decode s.cmd = .ok .tuner := by decide +kernel
theorem witness_StepRejectsUndecodableWord :
    let s := small.withFetchWord 32 0x07
    s.status.busy = true ∧ s.busyLeft = 0 ∧ decode s.cmd = .error .badOpcode := by decide +kernel
/-- One event is left of the busy window and the reset comes after it; then a reset inside the window. -/
theorem witness_AcceptedCommandCompletes :
    let s := { busyTuner with busyLeft := 1, hostQueue := [.read 0x000004#24 .word, .reset] }
    s.status.busy = true ∧ HostEvent.reset ∉ s.hostQueue.take s.busyLeft := by decide +kernel
theorem witness_AcceptedCommandCompletes_reset :
    ({ busyTuner with busyLeft := 1, hostQueue := [.reset] } : State).status.busy = true := by decide +kernel

/-- A frame has run and its line is left. -/
def ranDelay : State :=
  after .delay (frame 0x3D8B4396#32 0x3F000000#32 0x3F000000#32 0 [0x3F800000#32, 0, 0, 0x7F800000#32])

theorem witness_EveryStepKeepsTheInvariant :
    let s := { ranDelay with hostQueue := [.write 0#24 .word 0x48#32, .reset] }
    s.Inv ∧ ∃ t, step s = .next t := by
  refine ⟨?_, step_next _⟩
  unfold State.Inv State.paramsOk State.capOk State.ramsOk State.statusOk State.idleInside
  decide +kernel
theorem witness_EveryStepKeepsTheInvariant_busy : busyTuner.Inv ∧ ∃ t, step busyTuner = .next t := by
  refine ⟨?_, step_next _⟩
  unfold State.Inv State.paramsOk State.capOk State.ramsOk State.statusOk State.idleInside
  decide +kernel
theorem witness_ResetAbandonsEverything :
    let s := { busyTuner with busyLeft := 1, hostQueue := [.reset] }
    s.hostQueue = .reset :: [] ∧ (s.status.busy = true → s.busyLeft ≠ 0) := by decide +kernel

theorem witness_EqualReadsMeanEqualMemories :
    Memory.wf .line ranDelay.dlRam ∧ Memory.wf .output ranDelay.outRam ∧ ranDelay.dlRam ≠ [] := by decide +kernel
theorem witness_CreateIsTheLoopOfZeroWrites : Memory.wf .line (line3 0x3F800000#32 0x12345678#32).dlRam := by
  decide +kernel

/-- At the overflow threshold, just below it, and at a tie (2^24 + 1 units round to the even 2^24). -/
theorem witness_RoundingGivesTheNearest :
    roundMag ((2 ^ 25 - 1) * 2 ^ 252) 1 = 0x7F800000 ∧ roundMag ((2 ^ 25 - 1) * 2 ^ 252 - 1) 1 < 0x7F800000 ∧
    fMag (BitVec.ofNat 32 (roundMag (2 ^ 24 + 1) 1)) = 2 ^ 24 := by decide +kernel
/-- Operands of each clause: a zero sum, an inexact sum, a zero and a non-zero divisor, a NaN, an infinity. -/
theorem witness_ArithmeticRoundsOnce :
    (isFinite fOne = true ∧ isFinite fNegOne = true ∧ fVal fOne + fVal fNegOne = 0) ∧
    (isFinite 0x7F7FFFFF#32 = true ∧ fVal 0x7F7FFFFF#32 + fVal fOne ≠ 0) ∧
    (fVal 0x80000001#32 ≠ 0 ∧ fVal fNegZero = 0 ∧ fVal fZero = 0) ∧
    isNaN 0xFF800001#32 = true ∧ isFinite fNegZero = true := by decide +kernel
theorem witness_ComparisonsFollowTheValues :
    isFinite fNegZero = true ∧ isFinite fZero = true ∧ isFinite 0x7F7FFFFF#32 = true ∧ isFinite 0xFF7FFFFF#32 = true ∧
    isNaN 0x7F800001#32 = true := by decide +kernel
theorem witness_RoundHalvesAwayFromZero :
    isFinite 0xC0200000#32 = true ∧ roundHA 0xC0200000#32 = -3 ∧ roundHA 0x3EFFFFFF#32 = 0 := by decide +kernel
theorem witness_SmallIntegersConvertExactly : (0x01000000#32).toNat ≤ 2 ^ 24 := by decide
theorem witness_ClipBoundsAndPasses :
    flt fOne 0x3F800001#32 = true ∧ flt 0xBF800001#32 fNegOne = true ∧
    fle fNegOne fNegOne = true ∧ fle fNegOne fOne = true ∧ fle fOne fOne = true ∧ isNaN 0xFFC00000#32 = true ∧
    isNaN fInf = false := by decide +kernel
theorem witness_MultiplyingByOneKeepsBits : isNaN 0x00000001#32 = false ∧ isNaN 0xFF800001#32 = true := by decide +kernel
theorem witness_OscillatorPhaseZero :
    isFinite 0x80000000#32 = true ∧ signBit 0x80000000#32 = true ∧ isFinite 0x7F7FFFFF#32 = true := by decide +kernel
theorem witness_CapacityRules :
    isNaN 0x7F800001#32 = true ∧
    (isFinite 0x3EFFFFFF#32 = true ∧ roundHA 0x3EFFFFFF#32 < 1) ∧
    (isFinite 0x43808000#32 = true ∧ 1 ≤ roundHA 0x43808000#32 ∧ ((256#32).toNat : Int) < roundHA 0x43808000#32) ∧
    (isFinite 0x43800000#32 = true ∧ 1 ≤ roundHA 0x43800000#32 ∧ roundHA 0x43800000#32 ≤ (256#32).toNat) ∧
    (1 ≤ (256#32).toNat ∧ (256#32).toNat ≤ (256#32).toNat) ∧
    (1 ≤ (257#32).toNat ∧ (256#32).toNat < (257#32).toNat) := by decide +kernel

/-- Each code of validation at an operand that gives it, and none. -/
theorem witness_ValidationFollowsTheOrder :
    firstFailure (.waveshape 3#2 false false false) { small with len := 17#32 } = some .badField ∧
    firstFailure .delay { frame 0x7FC00000#32 0 0 0 [] with len := 17#32 } = some .lenRange ∧
    firstFailure .compress (frame 0x7FC00000#32 0 0 0 []) = some .paramNonfinite ∧
    firstFailure (.waveshape 0#2 false false false) (frame 0xBF800000#32 0 0 0 []) = some .negGain ∧
    firstFailure .compress (frame 0 0x80000000#32 0 0 []) = some .ratioNonpos ∧
    firstFailure .reverb (frame 0x3F800000#32 0 0 0 []) = some .capRange ∧
    firstFailure .wahwah (frame 0 0xFF61B1E6#32 0x7F61B1E6#32 0 []) = some .derivedNonfinite ∧
    firstFailure .tuner { small with len := 16#32 } = none := by decide +kernel
/-- LEN one above N_MAX. -/
def tooLong : State := { small with len := 17#32 }

theorem witness_RejectionChangesOnlyStatus :
    tooLong.status.err = false ∧ exec .tuner tooLong = .next (after .tuner tooLong) ∧
    (after .tuner tooLong).status.err = true :=
  ⟨by decide +kernel, exec_after .tuner tooLong, by decide +kernel⟩
theorem witness_OnlyWahwahFailsDerived :
    Instr.eq7 7#3 ≠ .wahwah ∧ small.status.errcode ≠ 0x08#8 ∧ exec (.eq7 7#3) small = .next (after (.eq7 7#3) small) :=
  ⟨by decide, by decide +kernel, exec_after _ _⟩
theorem witness_CommandsWriteOnlyTheirColumn :
    exec .nop small = .next (after .nop small) ∧ writesResult .nop = false ∧ creates .nop = false ∧
    writesLine .nop = false ∧ isFrame .nop = false :=
  ⟨exec_after _ _, by decide⟩

/-- STATUS.NONFINITE set. -/
def sticky : State := { small with status := { small.status with nonfinite := true } }

theorem witness_NonfiniteClearedOnlyByTheHost :
    let s := { sticky with hostQueue := [.write 0x000004#24 .word 8#32] }
    step s = .next (stepped s) ∧ s.status.nonfinite = true ∧ (stepped s).status.nonfinite = false :=
  ⟨step_stepped _, by decide +kernel⟩
theorem witness_NonfiniteClearedOnlyByTheHost_reset :
    let s := { sticky with hostQueue := [.reset] }
    step s = .next (stepped s) ∧ s.status.nonfinite = true ∧ (stepped s).status.nonfinite = false :=
  ⟨step_stepped _, by decide +kernel⟩

theorem witness_CreateCommandsCreateTheLine :
    capArg small.dlDepth 256#32 = .ok 256#32 ∧ capArg small.dlDepth 0#32 = .ok 1#32 ∧
    (let s := frame 0x3D8B4396#32 0 0 0 []
     isFinite s.p[0] = true ∧ capMs s.dlDepth s.p[0] = .ok 3#32 ∧ capFrac s.dlDepth s.p[0] = .error .capRange) ∧
    (let s := frame 0xBF800000#32 0 0 0 []
     isFinite s.p[0] = true ∧ capFrac s.dlDepth s.p[0] = .ok 1#32) := by decide +kernel
theorem witness_DlReadReadsTheLine :
    let s := { line3 0x3F800000#32 0x7F800001#32 with arg := 0xFFFFFFFE#32 }
    Memory.loadWord .line s.dlRam (s.arg.toNat % s.cap.toNat) = some 0#32 := by decide +kernel
theorem witness_DlStepRunsOneIndex :
    let s := { frame 0 0x3F000000#32 0x3F000000#32 0 [] with
      arg := 3#32, cap := 3#32, dlRam := (line3 0x3F800000#32 0#32).dlRam }
    isFinite s.p[1] = true ∧ isFinite s.p[2] = true ∧
    Memory.loadWord .line s.dlRam (s.arg.toNat % s.cap.toNat) = some 0x3F800000#32 := by decide +kernel
theorem witness_OscValueComputesTheOscillator : isFinite (frame 0xFF7FFFFF#32 0 0 0 []).p[0] = true := by decide +kernel

/-- A frame of N_MAX samples, and one of four that the host has not written. -/
def full : State := frame 0x38D1B717#32 0x3F000000#32 0x40000000#32 0x3F000000#32 (List.replicate 16 0x3F800000#32)
def unwritten : State := { frame 0#32 0x3F000000#32 0x3F000000#32 0 [] with len := 4#32 }

theorem three_full : ThreeFinite full := by unfold ThreeFinite; decide +kernel
theorem three_unwritten : ThreeFinite unwritten := by unfold ThreeFinite; decide +kernel

theorem witness_DelayAndReverbRunTheRecurrence :
    full.len.toNat ≤ full.nMax.toNat ∧ ThreeFinite full ∧ capMs full.dlDepth full.p[0] = .ok 1#32 ∧
    capFrac full.dlDepth full.p[0] = .ok 4#32 :=
  ⟨by decide +kernel, three_full, by decide +kernel, by decide +kernel⟩
theorem witness_DelayAndReverbRunTheRecurrence_unwritten :
    unwritten.len.toNat ≤ unwritten.nMax.toNat ∧ ThreeFinite unwritten ∧
    capMs unwritten.dlDepth unwritten.p[0] = .ok 1#32 :=
  ⟨by decide +kernel, three_unwritten, by decide +kernel⟩
theorem witness_FlangerModMixesTheLine :
    full.len.toNat ≤ full.nMax.toNat ∧ ThreeFinite full ∧ capArg full.dlDepth full.arg = .ok 1#32 :=
  ⟨by decide +kernel, three_full, by decide +kernel⟩
theorem witness_FlangerManualMixesTheTap :
    let s := { full with arg := 256#32, arg2 := 15#32 }
    s.len.toNat ≤ s.nMax.toNat ∧ ThreeFinite s ∧ capArg s.dlDepth s.arg = .ok 256#32 ∧ s.arg2.toNat ≤ 15 ∧
    Memory.loadWord .input s.inRam (15 - s.arg2.toNat) = some 0x3F800000#32 :=
  ⟨by decide +kernel, three_full, by decide +kernel⟩
theorem witness_TremoloModulatesTheFrame :
    full.len.toNat ≤ full.nMax.toNat ∧ isFinite full.p[0] = true ∧ isFinite full.p[1] = true := by decide +kernel
theorem witness_ChorusModulatesTheFrame : full.len.toNat ≤ full.nMax.toNat ∧ ThreeFinite full :=
  ⟨by decide +kernel, three_full⟩
theorem witness_WahwahSweepsTheFrame :
    full.len.toNat ≤ full.nMax.toNat ∧ ThreeFinite full ∧ isFinite full.p[3] = true ∧
    isFinite (fsub full.p[2] full.p[1]) = true :=
  ⟨by decide +kernel, three_full, by decide +kernel⟩
/-- With every stage on, and with every stage off and parameters that a stage would refuse. -/
theorem witness_WaveshapeRunsItsStages :
    full.len.toNat ≤ full.nMax.toNat ∧
    ((2#2, 0x41F00000#32) : BitVec 2 × F32) ∈ [(0#2, 0x41200000#32), (1#2, 0x41A00000#32), (2#2, 0x41F00000#32)] ∧
    isFinite full.p[0] = true ∧ flt full.p[0] fZero = false ∧ isFinite full.p[1] = true ∧ isFinite full.p[2] = true ∧
    isFinite full.p[3] = true := by decide +kernel
theorem witness_WaveshapeRunsItsStages_off :
    let s := frame 0x80000000#32 0x7FC00000#32 0x7F800000#32 0xFF800000#32 [0x7F800000#32]
    s.len.toNat ≤ s.nMax.toNat ∧ isFinite s.p[0] = true ∧ flt s.p[0] fZero = false ∧
    (false = true → isFinite s.p[1] = true) ∧ (false = true → isFinite s.p[2] = true) ∧
    (false = true → isFinite s.p[3] = true) := by decide +kernel
theorem witness_CompressAboveTheThreshold :
    full.len.toNat ≤ full.nMax.toNat ∧ ThreeFinite full ∧ fle full.p[1] fZero = false :=
  ⟨by decide +kernel, three_full, by decide +kernel⟩
/-- Two finite bands and a NaN in the third slot. -/
def banded : State := { full with band := #v[0x41700000#32, 0xC0F00000#32, 0x7FC00000#32, 0, 0, 0, 0] }

theorem banded_finite : ∀ b ∈ banded.band.toList.take (2#3).toNat, isFinite b = true :=
  List.all_eq_true.mp (by decide +kernel)
theorem witness_EqMultipliesByTheGain :
    banded.len.toNat ≤ banded.nMax.toNat ∧ ∀ b ∈ banded.band.toList.take (2#3).toNat, isFinite b = true :=
  ⟨by decide +kernel, banded_finite⟩
theorem witness_TunerWritesZeros : full.len.toNat ≤ full.nMax.toNat := by decide +kernel

theorem witness_StreamingEqualsDelay :
    full.len.toNat ≤ full.nMax.toNat ∧ ThreeFinite full ∧ capMs full.dlDepth full.p[0] = .ok 1#32 ∧
    ∀ i, i < full.len.toNat → Memory.loadWord .input full.inRam i = some ((fun _ => 0x3F800000#32) i) :=
  ⟨by decide +kernel, three_full, by decide +kernel, by decide +kernel⟩
theorem witness_FrameCommandsForgetTheOldLine :
    Instr.reverb ∈ [Instr.delay, .reverb, .flangerMod, .flangerManual] ∧ full.status.err = false ∧
    exec .reverb full = .next (after .reverb full) ∧ (after .reverb full).status.err = false :=
  ⟨by decide, by decide +kernel, exec_after _ _, by decide +kernel⟩
theorem witness_WaveshaperOutputIsBounded :
    fTwenty ∈ [fTen, fTwenty, fThirty] ∧ isFinite fNegZero = true ∧ flt fNegZero fZero = false ∧
    fle (fabs fNegOne) fOne = true ∧ isFinite fHalf = true ∧ isFinite 0x7F7FFFFF#32 = true := by decide +kernel
theorem witness_WaveshaperOutputIsBounded_inf :
    isFinite 0x00000001#32 = true ∧ flt 0x00000001#32 fZero = false ∧
    (isInf 0xFF800000#32 = true ∧ flt fZero 0x00000001#32 = true) := by decide +kernel
theorem witness_DryDelayIsTheInput :
    isFinite fNegZero = true ∧ isFinite (delayedAt 3#32 (line3 0xFF7FFFFF#32 0#32)) = true := by decide +kernel

/-- A dry frame with c = 1 and no feedback: each word written to the line is the sample. -/
def dry : State := { full with p := #v[0#32, 0#32, 0#32, 0#32, 0#32, 0#32, 0#32, 0#32] }

theorem three_dry : ThreeFinite dry := by unfold ThreeFinite; decide +kernel
theorem witness_DryDelayIsTheInput_frame :
    let x : Nat → F32 := fun _ => 0x3F800000#32
    dry.len.toNat ≤ dry.nMax.toNat ∧ ThreeFinite dry ∧ dry.p[1] = 0x00000000#32 ∧
    capMs dry.dlDepth dry.p[0] = .ok 1#32 ∧
    (∀ j, j < dry.len.toNat → Memory.loadWord .input dry.inRam j = some (x j)) ∧
    (∀ j, j < dry.len.toNat → x j = fadd (x j) (fmul (delayedIn x 1 j) dry.p[2])) ∧
    isFinite (x 15) = true ∧ isFinite (delayedIn x 1 15) = true :=
  ⟨by decide +kernel, three_dry, by decide +kernel, by decide +kernel, by decide +kernel, by decide +kernel,
    by decide +kernel, by decide +kernel⟩

theorem witness_CmdWriteAcceptsTheWord :
    let s := { sticky with hostQueue := [.write 0x000000#24 .word 0xFFFFFFFF#32, .reset] }
    s.status.busy = false ∧ s.hostQueue = .write 0x000000#24 .word 0xFFFFFFFF#32 :: [.reset] := by decide +kernel
theorem witness_BusyWindowRefusesTheRest :
    let s := { busyTuner with busyLeft := 1, hostQueue := [.write 0x000000#24 .word 0#32] }
    s.status.busy = true ∧ HostEvent.write 0x000000#24 .word 0#32 ≠ .reset ∧
    s.hostQueue = .write 0x000000#24 .word 0#32 :: [] ∧ s.busyLeft = 0 + 1 := by decide +kernel
theorem witness_BusyWindowRefusesTheRest_reads :
    let s := { busyTuner with busyLeft := 1 }
    busyResponse s (.read 0x000004#24 .word) = .data 1#32 ∧
    busyResponse s (.read 0x000024#24 .word) = .data 0x472C4400#32 ∧
    busyResponse s (.read 0x000028#24 .word) = .data 256#32 ∧ busyResponse s (.read 0x00002C#24 .word) = .data 16#32 ∧
    busyResponse s (.read 0x00000C#24 .word) = .error ∧ busyResponse s (.read 0x000004#24 .half) = .error := by
  decide +kernel
theorem witness_ErrorAndReadChangeNothing :
    (busRead 0x000030#24 .word small).1 = .error ∧ (busWrite 0x00001C#24 .word 1#32 small).1 = .error := by
  decide +kernel
/-- Each case of the statement at the ends of its range. -/
theorem witness_OddAndReservedAccessesRefused :
    small.nMax.toNat ≤ 2 ^ 20 ∧ AccessSize.half ≠ .word ∧ (0x000002#24).toNat % 4 ≠ 0 ∧
    (0x30 ≤ (0x000030#24).toNat ∧ (0x00003C#24).toNat < 0x40) ∧
    (0x7C ≤ (0x00007C#24).toNat ∧ (0x3FFFFC#24).toNat < 0x400000) ∧
    (0x400000 + 4 * small.nMax.toNat ≤ (0x400040#24).toNat ∧ (0x7FFFFC#24).toNat < 0x800000) ∧
    (0x800000 + 4 * small.nMax.toNat ≤ (0x800040#24).toNat ∧ (0xBFFFFC#24).toNat < 0xC00000) ∧
    0xC00000 ≤ (0xFFFFFC#24).toNat := by decide +kernel
theorem witness_RegistersReadAtTheirOffsets : small.status.busy = false := by decide +kernel
theorem witness_RegisterWritesReadBack : small.status.busy = false ∧ storesOnly .irqen = true ∧ storesOnly (.band 6) = true := by
  decide +kernel
theorem witness_ReadOnlyAndStatusWrites :
    small.status.busy = false ∧ 0x800000 ≤ (0x800000#24).toNat ∧ (0xBFFFFC#24).toNat < 0xC00000 ∧
    (0xFFFFFFFF#32).getLsbD 1 = true ∧ (0x4#32).getLsbD 1 = false := by decide +kernel
/-- The last word of the windows: written in OUT, and unwritten in IN and OUT. -/
theorem witness_SampleWindows :
    small.status.busy = false ∧ 15 < small.nMax.toNat ∧ small.nMax.toNat ≤ 2 ^ 20 ∧
    Memory.loadWord .output (after .tuner full).outRam 15 = some 0#32 ∧
    Memory.loadWord .input small.inRam 15 = none ∧ Memory.loadWord .output small.outRam 15 = none := by decide +kernel

end Sys2Proof.Tests
end

section
/-! The scope's numeric rules (00_scope R17, R18, R23 to R26): rounding to an integer, the clip and the capacities. -/

namespace Sys2Proof.Proofs

open Sys2Proof Sys2Proof.Machine

/-! ### Rounding halves away from zero (R17) -/

/-- `q` is the integer nearest to `x / d`, the one further from zero at a half. -/
def IsNearestAway (x d q : Int) : Prop :=
  ∀ k : Int, (x - q * d).natAbs ≤ (x - k * d).natAbs ∧
    ((x - q * d).natAbs = (x - k * d).natAbs → k ≠ q → k.natAbs < q.natAbs)

/-- The rule is symmetric about zero: every competitor `k` of `-q` mirrors the competitor `-k` of `q`. -/
theorem IsNearestAway.neg {x d q : Int} (h : IsNearestAway x d q) : IsNearestAway (-x) d (-q) := by
  intro k
  have mirror : ∀ m : Int, (-x - m * d).natAbs = (x - -m * d).natAbs := fun m => by
    rw [← Int.natAbs_neg]; congr 1; ring
  obtain ⟨nearest, tie⟩ := h (-k)
  rw [mirror (-q), mirror k, neg_neg]
  exact ⟨nearest, fun heq hne => by have := tie heq (by omega); omega⟩

/-- The multiple of `d` in the window `(x - d/2, x + d/2]` is the nearest one; the window is closed above, where the
multiple lies further from zero than `x` does. -/
theorem isNearestAway_of_window {x d q : Int} (hx : 0 ≤ x)
    (upper : 2 * (q * d) ≤ 2 * x + d) (lower : 2 * x < 2 * (q * d) + d) : IsNearestAway x d q := by
  have hd : 0 < d := by omega
  intro k
  rcases lt_trichotomy k q with hlt | rfl | hgt
  · have far : k * d + d ≤ q * d := by nlinarith
    refine ⟨by omega, fun heq _ => ?_⟩
    have half : k * d = q * d - d := by omega
    have pred : k = q - 1 := by
      refine mul_right_cancel₀ hd.ne' ?_
      rw [half, sub_one_mul]
    have pos : 0 < q := (mul_pos_iff_of_pos_right hd).mp (by omega)
    omega
  · exact ⟨le_rfl, fun _ hne => absurd rfl hne⟩
  · have far : q * d + d ≤ k * d := by nlinarith
    exact ⟨by omega, fun heq _ => by omega⟩

/-- Adding half a divisor before dividing rounds a magnitude to the nearest, halves up. -/
theorem isNearestAway_div (x d : Nat) (hd : 0 < d) :
    IsNearestAway x d (((2 * x + d) / (2 * d) : Nat) : Int) := by
  have floor := Nat.div_add_mod (2 * x + d) (2 * d)
  have rest := Nat.mod_lt (2 * x + d) (Nat.mul_pos two_pos hd)
  generalize (2 * x + d) / (2 * d) = q at floor ⊢
  have assoc : 2 * d * q = 2 * (q * d) := by ring
  have cast : (q : Int) * d = ((q * d : Nat) : Int) := (Nat.cast_mul q d).symm
  exact isNearestAway_of_window (by omega) (by omega) (by omega)

theorem roundHA_isNearestAway (v : F32) : IsNearestAway (fVal v) (2 ^ 149) (roundHA v) := by
  have magnitude := isNearestAway_div (fMag v) fUnit (Nat.two_pow_pos 149)
  have unit : (fUnit : Int) = 2 ^ 149 := by norm_num [fUnit]
  rw [unit] at magnitude
  unfold fVal roundHA
  split
  · exact magnitude.neg
  · exact magnitude

/-- Settles O18: the magnitude is rounded half up, and the sign mirrors it. -/
theorem roundHalvesAwayFromZero : Obligations.RoundHalvesAwayFromZero :=
  fun v _ k => roundHA_isNearestAway v k

/-! ### The ordered comparisons (R15) -/

theorem flt_iff (a b : F32) : flt a b = true ↔ isNaN a = false ∧ isNaN b = false ∧ fKey a < fKey b := by
  simp [flt, and_assoc]

theorem fle_iff (a b : F32) : fle a b = true ↔ isNaN a = false ∧ isNaN b = false ∧ fKey a ≤ fKey b := by
  simp [fle, and_assoc]

theorem flt_eq_false_of_fle {a b : F32} (h : fle b a = true) : flt a b = false := by
  obtain ⟨_, _, hle⟩ := (fle_iff b a).mp h
  rw [← Bool.not_eq_true, flt_iff]
  exact fun ⟨_, _, hlt⟩ => absurd hlt (not_lt.mpr hle)

/-- Without NaNs the comparisons are total. -/
theorem fle_of_flt_eq_false {a b : F32} (ha : isNaN a = false) (hb : isNaN b = false) (h : flt a b = false) :
    fle b a = true := by
  refine (fle_iff b a).mpr ⟨hb, ha, not_lt.mp fun hlt => ?_⟩
  exact Bool.false_ne_true (h.symm.trans ((flt_iff a b).mpr ⟨ha, hb, hlt⟩))

theorem fle_of_flt {a b : F32} (h : flt a b = true) : fle a b = true := by
  obtain ⟨ha, hb, hlt⟩ := (flt_iff a b).mp h
  exact (fle_iff a b).mpr ⟨ha, hb, hlt.le⟩

theorem flt_eq_false_of_isNaN {a b : F32} (h : isNaN a = true ∨ isNaN b = true) : flt a b = false := by
  rcases h with h | h <;> simp [flt, h]

/-! ### The clip (R18) -/

theorem fle_fNegOne_fOne : fle fNegOne fOne = true := by decide

theorem clip_of_above {v : F32} (h : flt fOne v = true) : clip v = fOne := by
  rw [clip, if_pos h]

theorem clip_of_below {v : F32} (h : flt v fNegOne = true) : clip v = fNegOne := by
  have notAbove : flt fOne v = false :=
    flt_eq_false_of_fle (Config.fle_trans _ _ _ (fle_of_flt h) fle_fNegOne_fOne)
  simp only [clip, notAbove, h, Bool.false_eq_true, if_false, if_true]

theorem clip_of_neither {v : F32} (above : flt fOne v = false) (below : flt v fNegOne = false) : clip v = v := by
  simp only [clip, above, below, Bool.false_eq_true, if_false]

theorem clip_in_range {v : F32} (h : isNaN v = false) :
    fle fNegOne (clip v) = true ∧ fle (clip v) fOne = true := by
  cases above : flt fOne v
  case true => rw [clip_of_above above]; decide
  case false =>
    cases below : flt v fNegOne
    case true => rw [clip_of_below below]; decide
    case false =>
      rw [clip_of_neither above below]
      exact ⟨fle_of_flt_eq_false h (by decide) below, fle_of_flt_eq_false (by decide) h above⟩

/-- Settles O20, by the branch of the clip that each hypothesis selects. -/
theorem clipBoundsAndPasses : Obligations.ClipBoundsAndPasses := fun _ =>
  ⟨clip_of_above, clip_of_below,
    fun lower upper => clip_of_neither (flt_eq_false_of_fle upper) (flt_eq_false_of_fle lower),
    fun nan => clip_of_neither (flt_eq_false_of_isNaN (.inr nan)) (flt_eq_false_of_isNaN (.inl nan)),
    clip_of_neither (by decide) (by decide), clip_in_range⟩

/-! ### Capacities (R23 to R26) -/

theorem capClamp_of_isNaN (depth : Word) {c : F32} (h : isNaN c = true) :
    capClamp depth c = .error .paramNonfinite := by
  rw [capClamp, if_pos h]

/-- On a finite value only the rounded integer matters. -/
theorem capClamp_of_isFinite (depth : Word) {c : F32} (h : isFinite c = true) :
    capClamp depth c =
      if roundHA c < 1 then .ok 1#32
      else if (depth.toNat : Int) < roundHA c then .error .capRange
      else .ok (BitVec.ofNat 32 (roundHA c).toNat) := by
  simp only [capClamp, isNaN_of_finite c h, isInf_of_finite c h, Bool.false_eq_true, if_false]

theorem capClamp_below (depth : Word) {c : F32} (h : isFinite c = true) (low : roundHA c < 1) :
    capClamp depth c = .ok 1#32 := by
  rw [capClamp_of_isFinite depth h, if_pos low]

theorem capClamp_above (depth : Word) {c : F32} (h : isFinite c = true) (low : 1 ≤ roundHA c)
    (high : (depth.toNat : Int) < roundHA c) : capClamp depth c = .error .capRange := by
  rw [capClamp_of_isFinite depth h, if_neg (not_lt.mpr low), if_pos high]

theorem capClamp_within (depth : Word) {c : F32} (h : isFinite c = true) (low : 1 ≤ roundHA c)
    (high : roundHA c ≤ depth.toNat) : ∃ n : Word, capClamp depth c = .ok n ∧ (n.toNat : Int) = roundHA c := by
  refine ⟨BitVec.ofNat 32 (roundHA c).toNat, ?_, ?_⟩
  · rw [capClamp_of_isFinite depth h, if_neg (not_lt.mpr low), if_neg (not_lt.mpr high)]
  · have fits := depth.isLt
    rw [BitVec.toNat_ofNat, Nat.mod_eq_of_lt (by omega)]
    omega

theorem capArg_within (depth : Word) {a : Word} (low : 1 ≤ a.toNat) (high : a.toNat ≤ depth.toNat) :
    capArg depth a = .ok a := by
  have nonzero : a ≠ 0#32 := by rintro rfl; exact absurd low (by decide)
  rw [capArg, if_neg nonzero, if_neg (not_lt.mpr high)]

theorem capArg_above (depth : Word) {a : Word} (low : 1 ≤ a.toNat) (high : depth.toNat < a.toNat) :
    capArg depth a = .error .capRange := by
  have nonzero : a ≠ 0#32 := by rintro rfl; exact absurd low (by decide)
  rw [capArg, if_neg nonzero, if_pos high]

/-- Settles O23: the scalings unfold to the constants written out, and each clause is one case of the clamp. -/
theorem capacityRules : Obligations.CapacityRules :=
  ⟨fun _ _ => rfl, fun _ _ => rfl,
    fun depth _ => ⟨capClamp_of_isNaN depth, by rintro rfl; rfl, by rintro rfl; rfl, capClamp_below depth,
      capClamp_above depth, capClamp_within depth⟩,
    fun depth _ => ⟨rfl, capArg_within depth, capArg_above depth⟩⟩

end Sys2Proof.Proofs
end

section
/-! The bus map (20_memory R53 to R57, R61): what an address names, which accesses are refused, and what a register
write does. -/

namespace Sys2Proof.Proofs

open Sys2Proof Sys2Proof.Machine Sys2Proof.Statements

/-! ### Register offsets (10_state section 3) -/

/-- The model's register file is the table of offsets. -/
theorem regAt_eq_some_iff {n : Nat} {r : Reg} : regAt n = some r ↔ regOffset r = 4 * n := by
  constructor
  · intro h
    unfold regAt at h
    split at h <;> cases h <;> rfl
  · intro h
    obtain rfl : n = regOffset r / 4 := by omega
    cases r with
    | p k => fin_cases k <;> rfl
    | band k => fin_cases k <;> rfl
    | _ => rfl

theorem regOffset_range (r : Reg) : regOffset r < 0x30 ∨ (0x40 ≤ regOffset r ∧ regOffset r < 0x7C) := by
  cases r <;> simp only [regOffset] <;> omega

theorem regOffset_mod_four (r : Reg) : regOffset r % 4 = 0 := by
  cases r <;> simp only [regOffset] <;> omega

theorem toNat_at24_regOffset (r : Reg) : (at24 (regOffset r)).toNat = regOffset r := by
  have := regOffset_range r
  rw [at24, BitVec.toNat_ofNat, Nat.mod_eq_of_lt (by omega)]

/-- The two gaps of the register file: behind NMAX and behind BAND6. -/
theorem regAt_eq_none {a : Nat} (h : (0x30 ≤ a ∧ a < 0x40) ∨ 0x7C ≤ a) : regAt (a / 4) = none := by
  refine Option.eq_none_iff_forall_ne_some.mpr fun r hr => ?_
  have offset := regAt_eq_some_iff.mp hr
  have range := regOffset_range r
  omega

/-! ### What an address names (R61) -/

theorem targetAt_registers (nMax : Word) {addr : BitVec 24} (h : addr.toNat < 0x400000) :
    targetAt nMax addr = (regAt (addr.toNat / 4)).elim .reserved .reg := by
  rw [targetAt, if_pos h]
  cases regAt (addr.toNat / 4) <;> rfl

theorem targetAt_inputWindow (nMax : Word) {addr : BitVec 24} (low : 0x400000 ≤ addr.toNat)
    (high : addr.toNat < 0x800000) :
    targetAt nMax addr =
      if (addr.toNat - 0x400000) / 4 < nMax.toNat then .input ((addr.toNat - 0x400000) / 4) else .reserved := by
  rw [targetAt, if_neg (by omega), if_pos high]

theorem targetAt_outputWindow (nMax : Word) {addr : BitVec 24} (low : 0x800000 ≤ addr.toNat)
    (high : addr.toNat < 0xC00000) :
    targetAt nMax addr =
      if (addr.toNat - 0x800000) / 4 < nMax.toNat then .output ((addr.toNat - 0x800000) / 4) else .reserved := by
  rw [targetAt, if_neg (by omega), if_neg (by omega), if_pos high]

theorem targetAt_aboveWindows (nMax : Word) {addr : BitVec 24} (h : 0xC00000 ≤ addr.toNat) :
    targetAt nMax addr = .reserved := by
  rw [targetAt, if_neg (by omega), if_neg (by omega), if_neg (by omega)]

theorem targetAt_regOffset (nMax : Word) (r : Reg) : targetAt nMax (at24 (regOffset r)) = .reg r := by
  have range := regOffset_range r
  have aligned := regOffset_mod_four r
  have found : regAt (regOffset r / 4) = some r := regAt_eq_some_iff.mpr (by omega)
  rw [targetAt_registers nMax (by rw [toNat_at24_regOffset]; omega), toNat_at24_regOffset, found, Option.elim_some]

/-- The reserved addresses (R56). -/
theorem targetAt_eq_reserved {nMax : Word} {addr : BitVec 24}
    (h : (0x30 ≤ addr.toNat ∧ addr.toNat < 0x40) ∨ (0x7C ≤ addr.toNat ∧ addr.toNat < 0x400000) ∨
      (0x400000 + 4 * nMax.toNat ≤ addr.toNat ∧ addr.toNat < 0x800000) ∨
      (0x800000 + 4 * nMax.toNat ≤ addr.toNat ∧ addr.toNat < 0xC00000) ∨ 0xC00000 ≤ addr.toNat) :
    targetAt nMax addr = .reserved := by
  rcases h with gap | ⟨behind, below⟩ | ⟨beyond, below⟩ | ⟨beyond, below⟩ | above
  · rw [targetAt_registers nMax (by omega), regAt_eq_none (.inl gap), Option.elim_none]
  · rw [targetAt_registers nMax below, regAt_eq_none (.inr behind), Option.elim_none]
  · rw [targetAt_inputWindow nMax (by omega) below, if_neg (by omega)]
  · rw [targetAt_outputWindow nMax (by omega) below, if_neg (by omega)]
  · exact targetAt_aboveWindows nMax above

/-! ### Which accesses are whole words (R54) -/

theorem wholeWord_iff (addr : BitVec 24) (size : AccessSize) :
    wholeWord addr size = true ↔ size = .word ∧ addr.toNat % 4 = 0 := by
  simp only [wholeWord, Bool.and_eq_true, beq_iff_eq]

theorem wholeWord_regOffset (r : Reg) : wholeWord (at24 (regOffset r)) .word = true :=
  (wholeWord_iff _ _).mpr ⟨rfl, by rw [toNat_at24_regOffset, regOffset_mod_four]⟩

/-! ### Bus accesses -/

theorem busRead_of_not_wholeWord {addr : BitVec 24} {size : AccessSize} (s : State)
    (h : wholeWord addr size = false) : busRead addr size s = (.error, s) := by
  rw [busRead, h, if_neg Bool.false_ne_true]

theorem busRead_reserved {addr : BitVec 24} (size : AccessSize) {s : State}
    (h : targetAt s.nMax addr = .reserved) : busRead addr size s = (.error, s) := by
  rw [busRead, h, ite_self]

theorem busWrite_of_not_wholeWord {addr : BitVec 24} {size : AccessSize} (v : Word) (s : State)
    (h : wholeWord addr size = false) : busWrite addr size v s = (.error, s) := by
  rw [busWrite, h, Bool.false_and, if_neg Bool.false_ne_true]

theorem busWrite_reserved {addr : BitVec 24} (size : AccessSize) (v : Word) {s : State}
    (h : targetAt s.nMax addr = .reserved) : busWrite addr size v s = (.error, s) := by
  rw [busWrite, h, ite_self]

theorem busWrite_output {addr : BitVec 24} {k : Nat} (size : AccessSize) (v : Word) {s : State}
    (h : targetAt s.nMax addr = .output k) : busWrite addr size v s = (.error, s) := by
  rw [busWrite, h, ite_self]

/-- A register that takes no write refuses it whether or not a command runs. -/
theorem busWrite_readOnly {r : Reg} {v : Word} {s : State} (h : writeReg r v s = none) :
    busWrite (at24 (regOffset r)) .word v s = (.error, s) := by
  simp only [busWrite, targetAt_regOffset, h, ite_self]

theorem busWrite_register {r : Reg} {v : Word} {s t : State} (idle : s.status.busy = false)
    (h : writeReg r v s = some t) : busWrite (at24 (regOffset r)) .word v s = (.okay, t) := by
  simp only [busWrite, wholeWord_regOffset, idle, targetAt_regOffset, h, Bool.not_false, Bool.and_self, if_true]

/-- A write anywhere in the OUT window is refused, below N_MAX as the window of a read-only memory and beyond it as a
reserved address. -/
theorem busWrite_outputWindow {addr : BitVec 24} (size : AccessSize) (v : Word) (s : State)
    (low : 0x800000 ≤ addr.toNat) (high : addr.toNat < 0xC00000) : busWrite addr size v s = (.error, s) := by
  have target := targetAt_outputWindow s.nMax low high
  split at target
  · exact busWrite_output size v target
  · exact busWrite_reserved size v target

/-- Settles O52: such an access is either no whole word or names a reserved address. -/
theorem oddAndReservedAccessesRefused : Obligations.OddAndReservedAccessesRefused := by
  intro addr size v s _ a h
  by_cases whole : wholeWord addr size = true
  · obtain ⟨isWord, aligned⟩ := (wholeWord_iff addr size).mp whole
    have reserved : targetAt s.nMax addr = .reserved :=
      targetAt_eq_reserved ((h.resolve_left (not_not_intro isWord)).resolve_left (not_not_intro aligned))
    exact ⟨busRead_reserved size reserved, busWrite_reserved size v reserved⟩
  · have odd := Bool.eq_false_of_not_eq_true whole
    exact ⟨busRead_of_not_wholeWord s odd, busWrite_of_not_wholeWord v s odd⟩

/-! ### The STATUS write (R32) -/

theorem clearStatus_eq (v : Word) (st : Status) :
    clearStatus v st =
      { busy := st.busy
        done := if v.getLsbD 1 then false else st.done
        err := if v.getLsbD 2 then false else st.err
        nonfinite := if v.getLsbD 3 then false else st.nonfinite
        errcode := if v.getLsbD 2 then 0#8 else st.errcode } := by
  have clear : ∀ flag w1c : Bool, (flag && !w1c) = if w1c then false else flag := by decide
  simp only [clearStatus, clear]

/-- Settles O55: the read-only registers take no write, the OUT window refuses every one, and STATUS clears by its W1C
bits. -/
theorem readOnlyAndStatusWrites : Obligations.ReadOnlyAndStatusWrites := by
  intro s v a
  refine ⟨fun r hr => busWrite_readOnly ?_, busWrite_outputWindow .word v s, fun idle => ?_⟩
  · simp only [List.mem_cons, List.not_mem_nil, or_false] at hr
    rcases hr with rfl | rfl | rfl | rfl | rfl <;> rfl
  · rw [← clearStatus_eq]
    exact busWrite_register (r := .status) idle rfl

end Sys2Proof.Proofs
end

section
/-! One word of the delay line (40_delay_line R90, R91): what a word store leaves of the other bytes, and what
`dlread` and `dlwrite` reach. -/

namespace Sys2Proof.Proofs

open Sys2Proof Sys2Proof.Machine

/-! ### The bytes around a stored word (R58) -/

theorem loadByte_storeWord_outside (r : Ram) (m : List Host.Cell) (v : Word) {k a : Nat}
    (outside : a < 4 * k ∨ 4 * k + 4 ≤ a) :
    Memory.loadByte r (Memory.storeWord r m k v) a = Memory.loadByte r m a := by
  rw [Memory.loadByte_storeWord, if_neg (by omega), if_neg (by omega), if_neg (by omega), if_neg (by omega)]

/-! ### One word of the delay line (R90, R91) -/

/-- Every word of DL_RAM has a value, so the default of `dlRead` is never used. -/
theorem some_dlRead (j : Word) (s : State) :
    some (dlRead j s) = Memory.loadWord .line s.dlRam (j.toNat % s.cap.toNat) := by
  obtain ⟨w, read⟩ := Option.isSome_iff_exists.mp (Memory.loadWord_line_isSome s.dlRam (j.toNat % s.cap.toNat))
  rw [dlRead_eq j s w read, read]

/-- The word a write goes to holds every bit of what was written. -/
theorem loadWord_dlWrite_same (i : Word) (v : F32) (s : State) :
    Memory.loadWord .line (dlWrite i v s).dlRam (i.toNat % s.cap.toNat) = some v := by
  rw [dlWrite_dlRam, dlIndex, Memory.loadWord_storeWord_same]

theorem loadByte_dlWrite_outside (i : Word) (v : F32) (s : State) {a : Nat}
    (outside : a < 4 * (i.toNat % s.cap.toNat) ∨ 4 * (i.toNat % s.cap.toNat) + 4 ≤ a) :
    Memory.loadByte .line (dlWrite i v s).dlRam a = Memory.loadByte .line s.dlRam a := by
  rw [dlWrite_dlRam, dlIndex, loadByte_storeWord_outside .line s.dlRam v outside]

/-- A write to the line changes DL_RAM, and the non-finite flag by the value written (R127), and nothing else. -/
theorem dlWrite_eq_dlRam_nf (i : Word) (v : F32) (s : State) :
    dlWrite i v s = { s with dlRam := (dlWrite i v s).dlRam, nf := s.nf || !isFinite v } := rfl

/-- Settles O15: the read and the write reach the word `i mod CAP`, and the bytes outside it stay. -/
theorem delayLineReadAndWrite : Obligations.DelayLineReadAndWrite := by
  intro s i j v
  exact ⟨some_dlRead j s, dlWrite_eq_dlRam_nf i v s, loadWord_dlWrite_same i v s,
    fun _ outside => loadByte_dlWrite_outside i v s outside⟩

end Sys2Proof.Proofs
end

section
/-! The interrupt line (60_exceptions R128): where the flags and the enables stand in the words the host reads, and the
line as a function of those bits. -/

namespace Sys2Proof.Proofs

open Sys2Proof Sys2Proof.Machine

/-! ### The flag bits of STATUS (R32) -/

theorem statusWord_getLsbD_done (st : Status) : (statusWord st).getLsbD 1 = st.done := by
  simp only [statusWord, BitVec.getLsbD_append]
  simp

theorem statusWord_getLsbD_err (st : Status) : (statusWord st).getLsbD 2 = st.err := by
  simp only [statusWord, BitVec.getLsbD_append]
  simp

theorem statusWord_getLsbD_nonfinite (st : Status) : (statusWord st).getLsbD 3 = st.nonfinite := by
  simp only [statusWord, BitVec.getLsbD_append]
  simp

/-! ### The enable bits of IRQEN (R33) -/

theorem irqenWord_getLsbD_doneIe (e : IrqEnable) : (irqenWord e).getLsbD 0 = e.doneIe := by
  simp only [irqenWord, BitVec.getLsbD_append]
  simp

theorem irqenWord_getLsbD_errIe (e : IrqEnable) : (irqenWord e).getLsbD 1 = e.errIe := by
  simp only [irqenWord, BitVec.getLsbD_append]
  simp

theorem irqenWord_getLsbD_nfIe (e : IrqEnable) : (irqenWord e).getLsbD 2 = e.nfIe := by
  simp only [irqenWord, BitVec.getLsbD_append]
  simp

/-! ### The line (R128) -/

/-- Settles O58: each bit of the two words is the field the line is computed from. -/
theorem irqFollowsStatusAndEnables : Obligations.IrqFollowsStatusAndEnables := by
  intro s
  simp only [readReg, statusWord_getLsbD_done, statusWord_getLsbD_err, statusWord_getLsbD_nonfinite,
    irqenWord_getLsbD_doneIe, irqenWord_getLsbD_errIe, irqenWord_getLsbD_nfIe, State.irq]

end Sys2Proof.Proofs
end

section
/-! The command word (30_encoding R72 to R79): its fields are the digits of a number, so a word with reserved bits 0 is
the packing of its fields, and decoding inverts encoding. -/

namespace Sys2Proof.Proofs

open Sys2Proof Sys2Proof.Machine

/-! ### The fields of a word, as parts of its number (R72) -/

theorem getLsbD_toNat (w : Word) (n : Nat) : (w.getLsbD n).toNat = w.toNat / 2 ^ n % 2 := by
  rw [← BitVec.testBit_toNat, Nat.toNat_testBit]

/-- A word's number is made of its fields, the reserved ones among them. -/
theorem toNat_eq_fields (w : Word) :
    w.toNat = (opcField w).toNat + 2 ^ 8 * (nbField w).toNat + 2 ^ 11 * (reserved11 w).toNat
      + 2 ^ 12 * (kselField w).toNat + 2 ^ 14 * (reserved15 w).toNat + 2 ^ 16 * (toneField w).toNat
      + 2 ^ 17 * (lvlField w).toNat + 2 ^ 18 * (mixField w).toNat + 2 ^ 19 * (reserved31 w).toNat := by
  have bound := w.isLt
  simp only [opcField, nbField, reserved11, kselField, reserved15, toneField, lvlField, mixField, reserved31,
    getLsbD_toNat, BitVec.extractLsb'_toNat, Nat.shiftRight_eq_div_pow]
  omega

theorem toNat_packFields (opc : BitVec 8) (nb : BitVec 3) (ksel : BitVec 2) (tone lvl mix : Bool) :
    (packFields opc nb ksel tone lvl mix).toNat = opc.toNat + 2 ^ 8 * nb.toNat + 2 ^ 12 * ksel.toNat
      + 2 ^ 16 * tone.toNat + 2 ^ 17 * lvl.toNat + 2 ^ 18 * mix.toNat := by
  have opcLt := opc.isLt
  have nbLt := nb.isLt
  have kselLt := ksel.isLt
  have toneLt := tone.toNat_lt
  have lvlLt := lvl.toNat_lt
  have mixLt := mix.toNat_lt
  simp only [packFields, BitVec.toNat_append, BitVec.toNat_ofBool, BitVec.toNat_ofNat, Nat.shiftLeft_eq]
  simp only [Nat.mul_comm _ (2 ^ _)]
  repeat rw [← Nat.two_pow_add_eq_or_of_lt (by omega)]
  omega

theorem packFields_fields {w : Word} (r11 : reserved11 w = 0#1) (r15 : reserved15 w = 0#2)
    (r31 : reserved31 w = 0#13) :
    packFields (opcField w) (nbField w) (kselField w) (toneField w) (lvlField w) (mixField w) = w := by
  apply BitVec.eq_of_toNat_eq
  rw [toNat_packFields, toNat_eq_fields w, r11, r15, r31]
  simp

/-- Packing and reading the fields back; the reserved ones read 0 (R87). -/
theorem fields_packFields (opc : BitVec 8) (nb : BitVec 3) (ksel : BitVec 2) (tone lvl mix : Bool) :
    let w := packFields opc nb ksel tone lvl mix
    opcField w = opc ∧ nbField w = nb ∧ kselField w = ksel ∧ toneField w = tone ∧ lvlField w = lvl ∧
      mixField w = mix ∧ reserved11 w = 0#1 ∧ reserved15 w = 0#2 ∧ reserved31 w = 0#13 := by
  intro w
  have packed := toNat_packFields opc nb ksel tone lvl mix
  have read := toNat_eq_fields w
  have digits : ∀ {n} (v : BitVec n), v.toNat < 2 ^ n := fun v => v.isLt
  have opcLt := digits opc; have opcLt' := digits (opcField w)
  have nbLt := digits nb; have nbLt' := digits (nbField w)
  have kselLt := digits ksel; have kselLt' := digits (kselField w)
  have r11Lt := digits (reserved11 w); have r15Lt := digits (reserved15 w)
  have toneLt := tone.toNat_lt; have toneLt' := (toneField w).toNat_lt
  have lvlLt := lvl.toNat_lt; have lvlLt' := (lvlField w).toNat_lt
  have mixLt := mix.toNat_lt; have mixLt' := (mixField w).toNat_lt
  have boolEq : ∀ a b : Bool, a = b ↔ a.toNat = b.toNat := by decide
  simp only [← BitVec.toNat_inj, boolEq, BitVec.toNat_ofNat]
  change w.toNat = _ at packed
  omega

/-! ### The fields a command carries -/

/-- NB of a command; 0 where the opcode has none. -/
def nbOf : Instr → BitVec 3
  | .eq7 nb => nb
  | _ => 0#3

/-- KSEL of a command; 0 where the opcode has none. -/
def kselOf : Instr → BitVec 2
  | .waveshape ksel _ _ _ => ksel
  | _ => 0#2

/-- TONE, LVL and MIX of a command; 0 where the opcode has none. -/
def stagesOf : Instr → Bool × Bool × Bool
  | .waveshape _ tone lvl mix => (tone, lvl, mix)
  | _ => (false, false, false)

/-- The word of every command is one packing. -/
theorem encode_eq_packFields (i : Instr) :
    encode i = packFields (opcodeOf i) (nbOf i) (kselOf i) (stagesOf i).1 (stagesOf i).2.1 (stagesOf i).2.2 := by
  cases i <;> rfl

/-! ### The decoder -/

/-- The reserved bits are 0 (R79). -/
def ReservedZero (w : Word) : Prop := reserved11 w = 0#1 ∧ reserved15 w = 0#2 ∧ reserved31 w = 0#13

/-- The field rules as propositions (R79). -/
theorem fieldsOk_iff (i : Instr) (w : Word) :
    fieldsOk i w = true ↔ ReservedZero w ∧ (usesNb i = false → nbField w = 0#3) ∧
      (usesStages i = false →
        kselField w = 0#2 ∧ toneField w = false ∧ lvlField w = false ∧ mixField w = false) ∧
      i.wellFormed = true := by
  cases hn : usesNb i <;> cases hs : usesStages i <;>
    simp [fieldsOk, ReservedZero, hn, hs, and_assoc]

/-- What the opcode map selects has the word's opcode, and the word's own fields where the opcode uses them (R76). -/
theorem fields_of_selectInstr {w : Word} {i : Instr} (h : selectInstr w = some i) :
    opcField w = opcodeOf i ∧ (usesNb i = true → nbField w = nbOf i) ∧ (usesNb i = false → nbOf i = 0#3) ∧
      (usesStages i = true →
        kselField w = kselOf i ∧ (toneField w, lvlField w, mixField w) = stagesOf i) ∧
      (usesStages i = false → kselOf i = 0#2 ∧ stagesOf i = (false, false, false)) := by
  unfold selectInstr at h
  split at h <;> cases h <;> rename_i opc <;>
    exact ⟨BitVec.eq_of_toNat_eq opc, by simp [usesNb, nbOf], by simp [usesNb, nbOf],
      by simp [usesStages, kselOf, stagesOf], by simp [usesStages, kselOf, stagesOf]⟩

theorem selectInstr_encode (i : Instr) : selectInstr (encode i) = some i := by
  obtain ⟨opc, nb, ksel, tone, lvl, mix, -⟩ := fields_packFields (opcodeOf i) (nbOf i) (kselOf i)
    (stagesOf i).1 (stagesOf i).2.1 (stagesOf i).2.2
  rw [← encode_eq_packFields] at opc nb ksel tone lvl mix
  rw [selectInstr, opc, nb, ksel, tone, lvl, mix]
  cases i <;> rfl

theorem fieldsOk_encode (i : Instr) : fieldsOk i (encode i) = i.wellFormed := by
  obtain ⟨-, nb, ksel, tone, lvl, mix, r11, r15, r31⟩ := fields_packFields (opcodeOf i) (nbOf i) (kselOf i)
    (stagesOf i).1 (stagesOf i).2.1 (stagesOf i).2.2
  rw [← encode_eq_packFields] at nb ksel tone lvl mix r11 r15 r31
  rw [fieldsOk, nb, ksel, tone, lvl, mix, r11, r15, r31]
  cases i <;> rfl

theorem decode_eq_ok_iff_fields (w : Word) (i : Instr) :
    decode w = .ok i ↔ selectInstr w = some i ∧ fieldsOk i w = true := by
  cases selected : selectInstr w with
  | none => simp [decode, selected]
  | some j =>
    cases ok : fieldsOk j w
    · have other : j = i → fieldsOk i w = false := by rintro rfl; exact ok
      simpa [decode, selected, ok] using other
    · have same : j = i → fieldsOk i w = true := by rintro rfl; exact ok
      simpa [decode, selected, ok] using same

/-- The decoder accepts exactly the words of well-formed commands. -/
theorem decode_eq_ok_iff (w : Word) (i : Instr) : decode w = .ok i ↔ i.wellFormed = true ∧ encode i = w := by
  rw [decode_eq_ok_iff_fields]
  constructor
  · rintro ⟨selected, ok⟩
    obtain ⟨⟨r11, r15, r31⟩, noNb, noStages, wf⟩ := (fieldsOk_iff i w).mp ok
    obtain ⟨opc, nb, nbZero, stages, stagesZero⟩ := fields_of_selectInstr selected
    have nbEq : nbOf i = nbField w := by
      cases uses : usesNb i
      · rw [nbZero uses, noNb uses]
      · exact (nb uses).symm
    have stagesEq : kselOf i = kselField w ∧ stagesOf i = (toneField w, lvlField w, mixField w) := by
      cases uses : usesStages i
      · obtain ⟨k, t, l, m⟩ := noStages uses
        rw [(stagesZero uses).1, (stagesZero uses).2, k, t, l, m]
        exact ⟨rfl, rfl⟩
      · exact ⟨(stages uses).1.symm, (stages uses).2.symm⟩
    refine ⟨wf, ?_⟩
    rw [encode_eq_packFields, ← opc, nbEq, stagesEq.1, stagesEq.2, packFields_fields r11 r15 r31]
  · rintro ⟨wf, rfl⟩
    exact ⟨selectInstr_encode i, (fieldsOk_encode i).trans wf⟩

/-- Settles O1: the decoder accepts the word of every well-formed command. -/
theorem decodeOfEncodedCommand : Obligations.DecodeOfEncodedCommand :=
  fun i wf => (decode_eq_ok_iff (encode i) i).mpr ⟨wf, rfl⟩

/-- Settles O2: and it accepts no other word. -/
theorem encodeOfDecodedWord : Obligations.EncodeOfDecodedWord :=
  fun w i => (decode_eq_ok_iff w i).mp

/-- Settles O3: each word is the encoding of its command. -/
theorem specWordsDecode : Obligations.SpecWordsDecode := by
  refine ⟨?_, ?_, ?_, ?_, ?_, ?_, ?_⟩ <;> exact (decode_eq_ok_iff _ _).mpr ⟨rfl, rfl⟩

/-! ### Undecodable words (R78, R79) -/

/-- The opcodes of R76. -/
def definedOpcodes : List Nat :=
  [0x00, 0x01, 0x02, 0x03, 0x04, 0x05, 0x06, 0x08, 0x10, 0x11, 0x12, 0x13, 0x20, 0x21, 0x22, 0x30, 0x38, 0x40, 0x48]

theorem selectInstr_isSome_iff (w : Word) :
    (selectInstr w).isSome = true ↔ (opcField w).toNat ∈ definedOpcodes := by
  unfold selectInstr
  split
  all_goals simp_all [definedOpcodes]

/-- A command selected by the opcode map uses a field, or breaks the KSEL rule, by its opcode alone. -/
theorem uses_of_selectInstr {w : Word} {i : Instr} (h : selectInstr w = some i) :
    (usesNb i = true ↔ (opcField w).toNat = 0x40) ∧ (usesStages i = true ↔ (opcField w).toNat = 0x30) ∧
      (i.wellFormed = false ↔ (opcField w).toNat = 0x30 ∧ kselField w = 3#2) := by
  unfold selectInstr at h
  split at h <;> cases h <;> rename_i opc <;> rw [opc] <;> simp [usesNb, usesStages, Instr.wellFormed]

theorem decode_eq_badOpcode_iff (w : Word) : decode w = .error .badOpcode ↔ selectInstr w = none := by
  cases selected : selectInstr w with
  | none => simp [decode, selected]
  | some i => cases ok : fieldsOk i w <;> simp [decode, selected, ok]

theorem decode_eq_badField_iff (w : Word) :
    decode w = .error .badField ↔ ∃ i, selectInstr w = some i ∧ fieldsOk i w = false := by
  cases selected : selectInstr w with
  | none => simp [decode, selected]
  | some i => cases ok : fieldsOk i w <;> simp [decode, selected, ok]

/-- TONE, LVL and MIX as one field of three bits. -/
theorem stageBits_eq_zero_iff (w : Word) :
    w.extractLsb' 16 3 = 0#3 ↔ toneField w = false ∧ lvlField w = false ∧ mixField w = false := by
  constructor
  · intro zero
    have bit : ∀ n, n < 3 → w.getLsbD (16 + n) = false := fun n hn => by
      have := congrArg (·.getLsbD n) zero
      simpa [hn] using this
    exact ⟨bit 0 (by omega), bit 1 (by omega), bit 2 (by omega)⟩
  · rintro ⟨tone, lvl, mix⟩
    apply BitVec.eq_of_getLsbD_eq
    intro n hn
    interval_cases n
    · simpa [toneField] using tone
    · simpa [lvlField] using lvl
    · simpa [mixField] using mix

theorem reserved11_ne_zero_iff (w : Word) : reserved11 w ≠ 0#1 ↔ w.getLsbD 11 = true := by
  rw [ne_eq, ← BitVec.toNat_inj, ← BitVec.testBit_toNat, Nat.testBit_eq_decide_div_mod_eq]
  simp only [reserved11, BitVec.extractLsb'_toNat, Nat.shiftRight_eq_div_pow, BitVec.toNat_ofNat, decide_eq_true_eq]
  omega

/-- Settles O4: the opcode map decides BAD_OPCODE, and each rule of R79 is one conjunct of `fieldsOk`. -/
theorem undecodableWordsByRule : Obligations.UndecodableWordsByRule := by
  intro w opc defined reservedBit strayNb strayStage badKsel
  have selects : (selectInstr w).isSome = true ↔ defined := selectInstr_isSome_iff w
  refine ⟨?_, ?_⟩
  · rw [decode_eq_badOpcode_iff, ← selects, Option.not_isSome_iff_eq_none]
  · rw [decode_eq_badField_iff, ← selects, Option.isSome_iff_exists]
    simp only [← exists_and_right]
    refine exists_congr fun i => and_congr_right fun selected => ?_
    obtain ⟨nbUse, stageUse, kselRule⟩ := uses_of_selectInstr selected
    have reservedRule : ¬ReservedZero w ↔ reservedBit := by
      rw [ReservedZero, not_and_or, not_and_or]
      exact or_congr (reserved11_ne_zero_iff w) Iff.rfl
    have nbRule : ¬(usesNb i = false → nbField w = 0#3) ↔ strayNb := by
      rw [Classical.not_imp, ← Bool.not_eq_true, nbUse, and_comm]
      exact Iff.rfl
    have stageRule : ¬(usesStages i = false →
        kselField w = 0#2 ∧ toneField w = false ∧ lvlField w = false ∧ mixField w = false) ↔ strayStage := by
      rw [Classical.not_imp, ← Bool.not_eq_true, stageUse, ← stageBits_eq_zero_iff, not_and_or, and_comm]
      exact Iff.rfl
    rw [← Bool.not_eq_true, fieldsOk_iff, not_and_or, not_and_or, not_and_or, reservedRule, nbRule, stageRule,
      Bool.not_eq_true, kselRule]
    exact Iff.rfl

end Sys2Proof.Proofs
end

section
/-! The life of a command (30_encoding R81 to R85): every command is its validation and its execution run by
`runCommand`, and validation is the order of R82 read off the tables. -/

namespace Sys2Proof.Proofs

open Sys2Proof Sys2Proof.Machine Sys2Proof.Statements

/-! ### Validation and execution of each command -/

/-- The validation each command runs. -/
def validate (i : Instr) : State → Except Reject Plan :=
  match i with
  | .nop | .dlRead | .dlWrite => fun _ => .ok {}
  | .dlCreate => checkDlCreate
  | .dlCreateMs => checkDlCreateMs
  | .dlCreateFrac => checkDlCreateFrac
  | .dlStep => checkDlStep
  | .oscValue => checkOscValue
  | .delay => checkDelay
  | .reverb => checkReverb
  | .flangerMod | .flangerManual => checkFlanger
  | .tremolo => checkTremolo
  | .chorus => checkChorus
  | .wahwah => checkWahwah
  | .waveshape ksel tone lvl mix => checkWaveshape ksel tone lvl mix
  | .compress => checkCompress
  | .eq7 nb => checkEq7 nb
  | .tuner => checkTuner

/-- The per-sample body of each frame command. -/
def bodyOf (i : Instr) : State → State :=
  match i with
  | .delay | .reverb => delayFrameBody
  | .flangerMod => flangerModBody
  | .flangerManual => flangerManualBody
  | .tremolo => tremoloBody
  | .chorus => chorusBody
  | .wahwah => wahwahBody
  | .waveshape _ tone lvl mix => waveshapeBody tone lvl mix
  | .compress => compressBody
  | .eq7 _ => eq7Body
  | .tuner => tunerBody
  | .nop | .dlCreate | .dlCreateMs | .dlCreateFrac | .dlRead | .dlWrite | .dlStep | .oscValue => id

/-- What each command does once it is validated. -/
def execute (i : Instr) (plan : Plan) (s : State) : State :=
  match i with
  | .nop => s
  | .dlCreate | .dlCreateMs | .dlCreateFrac => createAndReport plan s
  | .dlRead => setResultF32 (dlRead s.arg s) s
  | .dlWrite => dlWrite s.arg s.val s
  | .dlStep => stepLine s
  | .oscValue => setResultF32 (osc s.arg s.p[0]) s
  | .delay | .reverb | .flangerMod | .flangerManual => runFrame (bodyOf i) (createLine plan.cap s)
  | .tremolo | .chorus | .wahwah | .waveshape _ _ _ _ | .compress | .eq7 _ | .tuner => runFrame (bodyOf i) s

theorem exec_eq_runCommand (i : Instr) (s : State) : exec i s = runCommand (validate i) (execute i) s := by
  cases i <;> rfl

/-- The divisor of WAVESHAPE for the legal values of KSEL (R112). -/
def divisorOf (ksel : BitVec 2) : F32 := if ksel = 0#2 then fTen else if ksel = 1#2 then fTwenty else fThirty

/-- The derived constants of each command (R83). -/
def derivedOf (i : Instr) (s : State) : Derived :=
  match i with
  | .dlStep | .delay | .reverb => { omix := fsub fOne s.p[1] }
  | .wahwah => { span := fsub s.p[2] s.p[1] }
  | .waveshape ksel tone lvl mix =>
    { kf := divisorOf ksel
      ts := if tone then fdiv s.p[1] fTen else fZero
      ls := if lvl then fdiv s.p[2] fTen else fZero
      omix := if mix then fsub fOne s.p[3] else fZero }
  | .compress => { t := fpow10 (fdiv s.p[0] fTwenty), lv := fdiv s.p[2] fTen }
  | .eq7 nb => { gain := fadd fOne (bandSum (bandsPresent nb s)) }
  | .nop | .dlCreate | .dlCreateMs | .dlCreateFrac | .dlRead | .dlWrite | .oscValue | .flangerMod | .flangerManual
  | .tremolo | .chorus | .tuner => {}

/-! ### The checks one by one (R82) -/

theorem checkLen_bind {α : Type} (s : State) (f : Unit → Except Reject α) :
    (checkLen s >>= f) = if s.nMax.toNat < s.len.toNat then .error .lenRange else f () := by
  unfold checkLen; split <;> rfl

theorem checkFinite_bind {α : Type} (l : List F32) (f : Unit → Except Reject α) :
    (checkFinite l >>= f) = if l.all isFinite = false then .error .paramNonfinite else f () := by
  unfold checkFinite; cases l.all isFinite <;> rfl

theorem checkSign_bind {α : Type} (bad : Bool) (e : Reject) (f : Unit → Except Reject α) :
    (checkSign bad e >>= f) = if bad then .error e else f () := by
  unfold checkSign; cases bad <;> rfl

theorem checkDerived_bind {α : Type} (l : List F32) (f : Unit → Except Reject α) :
    (checkDerived l >>= f) = if l.all isFinite = false then .error .derivedNonfinite else f () := by
  unfold checkDerived; cases l.all isFinite <;> rfl

theorem divisorK_eq (ksel : BitVec 2) :
    divisorK ksel = if ksel = 3#2 then .error .badField else .ok (divisorOf ksel) := by
  revert ksel; decide

theorem isFinite_divisorOf (ksel : BitVec 2) : isFinite (divisorOf ksel) = true := by
  revert ksel; decide

/-- The derived constants that validation tests (step 7 of R82). -/
def constantsTested (i : Instr) (s : State) : List F32 :=
  match i with
  | .dlStep | .delay | .reverb => [fsub fOne s.p[1]]
  | .wahwah => [fsub s.p[2] s.p[1]]
  | .waveshape ksel tone lvl mix =>
    [divisorOf ksel] ++ ifEnabled tone (fdiv s.p[1] fTen) ++ ifEnabled lvl (fdiv s.p[2] fTen) ++
      ifEnabled mix (fsub fOne s.p[3])
  | .compress => [fdiv s.p[2] fTen]
  | .eq7 nb => [fadd fOne (bandSum (bandsPresent nb s))]
  | .nop | .dlCreate | .dlCreateMs | .dlCreateFrac | .dlRead | .dlWrite | .oscValue | .flangerMod | .flangerManual
  | .tremolo | .chorus | .tuner => []

/-- Among finite parameters only WAHWAH's span can fail to be finite (R83, 90 C10). -/
theorem constantsTested_finite {i : Instr} {s : State} (h : (validated i s).all isFinite = true) :
    (constantsTested i s).all isFinite = !derivedFailure i s := by
  cases i
  case dlStep | delay | reverb =>
    simp only [validated, List.all_cons, List.all_nil, Bool.and_eq_true] at h
    simp [constantsTested, derivedFailure, isFinite_one_sub _ (by simp [h] : isFinite s.p[1] = true)]
  case waveshape ksel tone lvl mix =>
    cases tone <;> cases lvl <;> cases mix <;>
      simp_all [constantsTested, derivedFailure, validated, ifEnabled, isFinite_divisorOf, isFinite_div_ten,
        isFinite_one_sub]
  case compress =>
    simp only [validated, List.all_cons, List.all_nil, Bool.and_eq_true] at h
    simp [constantsTested, derivedFailure, isFinite_div_ten _ (by simp [h] : isFinite s.p[2] = true)]
  case eq7 nb =>
    have bands : ∀ b ∈ bandsPresent nb s, isFinite b = true := List.all_eq_true.mp h
    have short : (bandsPresent nb s).length ≤ 7 := by simp [bandsPresent]
    simp [constantsTested, derivedFailure, isFinite_gain _ bands short]
  all_goals simp [constantsTested, derivedFailure]

/-- The plan that validation hands to the execution of a command whose capacity is `c`. -/
def planOf (i : Instr) (s : State) (c : Word) : Plan := { cap := c, derived := derivedOf i s }

/-- The last checks, from step 6 on. -/
def checkCapacity (i : Instr) (s : State) : Except Reject Plan :=
  capacityOf i s >>= fun c =>
    if (constantsTested i s).all isFinite = false then .error .derivedNonfinite else .ok (planOf i s c)

theorem ok_bind {α β : Type} (a : α) (f : α → Except Reject β) : ((Except.ok a : Except Reject α) >>= f) = f a := rfl

theorem error_bind {α β : Type} (e : Reject) (f : α → Except Reject β) :
    ((Except.error e : Except Reject α) >>= f) = .error e := rfl

theorem pure_eq_ok {α : Type} (a : α) : (pure a : Except Reject α) = .ok a := rfl

theorem elim_ite_some {α : Type} (b : Bool) (e : Reject) (x : α) (f : Reject → α) :
    (if b then some e else none).elim x f = if b then f e else x := by cases b <;> rfl

/-- Every validation is one chain of checks in the order of R82. -/
theorem validate_eq_checks (i : Instr) (s : State) :
    validate i s =
      if i.wellFormed = false then .error .badField
      else if isFrame i = true ∧ s.nMax.toNat < s.len.toNat then .error .lenRange
      else if (validated i s).all isFinite = false then .error .paramNonfinite
      else (signFailure i s).elim (checkCapacity i s) .error := by
  cases i
  case waveshape ksel tone lvl mix =>
    rw [validate, checkWaveshape, divisorK_eq]
    by_cases reserved : ksel = 3#2
    · simp only [reserved, Instr.wellFormed, if_true, bne_self_eq_false, error_bind]
    · simp only [reserved, Instr.wellFormed, bne_eq_false_iff_eq, if_false, ok_bind, isFrame, validated, signFailure,
        checkCapacity, capacityOf, constantsTested, planOf, derivedOf, ifEnabled, checkLen_bind, checkFinite_bind,
        checkSign_bind, checkDerived_bind, pure_eq_ok, elim_ite_some, true_and]
      congr
  all_goals
    simp only [validate, checkDlCreate, checkDlCreateMs, checkDlCreateFrac, checkDlStep, checkOscValue, checkDelay,
      checkReverb, checkFlanger, checkTremolo, checkChorus, checkWahwah, checkCompress, checkEq7, checkTuner,
      checkLen_bind, checkFinite_bind, checkSign_bind, checkDerived_bind, pure_eq_ok, ok_bind,
      Instr.wellFormed, isFrame, validated, signFailure, checkCapacity, capacityOf, constantsTested, planOf,
      derivedOf, elim_ite_some, Option.elim_none, List.all_nil, Bool.true_eq_false, Bool.false_eq_true, if_false,
      false_and, true_and, bandsPresent]
  all_goals congr

/-! ### What validation answers -/

/-- Nothing that validation reads is set by the start of the command. -/
theorem validate_beginRun (i : Instr) (s : State) : validate i (beginRun s) = validate i s := by
  cases i <;> rfl

theorem validate_of_failure {i : Instr} {s : State} {e : Reject} (h : firstFailure i s = some e) :
    validate i s = .error e := by
  rw [validate_eq_checks]
  unfold firstFailure at h
  split at h <;> rename_i wf
  · cases h; rw [if_pos wf]
  rw [if_neg wf]
  split at h <;> rename_i len
  · cases h; rw [if_pos len]
  rw [if_neg len]
  split at h <;> rename_i finite
  · cases h; rw [if_pos finite]
  rw [if_neg finite]
  cases sign : signFailure i s with
  | some r => rw [sign] at h; cases h; rfl
  | none =>
    rw [sign] at h
    cases cap : capacityOf i s with
    | error r => rw [cap] at h; cases h; rw [Option.elim_none, checkCapacity, cap, error_bind]
    | ok c =>
      simp only [cap] at h
      split at h <;> rename_i derived
      · cases h
        rw [Option.elim_none, checkCapacity, cap, ok_bind,
          constantsTested_finite (Bool.eq_true_of_not_eq_false finite), derived]
        rfl
      · cases h

/-- A command that passes has no failing check, and its plan is read off the tables. -/
theorem validate_of_pass {i : Instr} {s : State} (h : firstFailure i s = none) :
    ∃ c, capacityOf i s = .ok c ∧ validate i s = .ok (planOf i s c) := by
  unfold firstFailure at h
  split at h <;> rename_i wf
  · cases h
  split at h <;> rename_i len
  · cases h
  split at h <;> rename_i finite
  · cases h
  cases sign : signFailure i s with
  | some r => rw [sign] at h; cases h
  | none =>
    rw [sign] at h
    cases cap : capacityOf i s with
    | error r => rw [cap] at h; cases h
    | ok c =>
      simp only [cap] at h
      split at h <;> rename_i derived
      · cases h
      · refine ⟨c, rfl, ?_⟩
        rw [validate_eq_checks, if_neg wf, if_neg len, if_neg finite, sign, Option.elim_none, checkCapacity, cap,
          ok_bind, constantsTested_finite (Bool.eq_true_of_not_eq_false finite), Bool.eq_false_of_not_eq_true derived]
        rfl

/-- The hypotheses under which no check fails. -/
theorem firstFailure_eq_none {i : Instr} {s : State} {c : Word} (wf : i.wellFormed = true)
    (len : isFrame i = true → s.len.toNat ≤ s.nMax.toNat) (finite : (validated i s).all isFinite = true)
    (sign : signFailure i s = none) (cap : capacityOf i s = .ok c) (derived : derivedFailure i s = false) :
    firstFailure i s = none := by
  have short : ¬(isFrame i = true ∧ s.nMax.toNat < s.len.toNat) := fun ⟨frame, long⟩ =>
    absurd long (not_lt.mpr (len frame))
  simp only [firstFailure, wf, short, finite, sign, cap, derived, Bool.true_eq_false, Bool.false_eq_true, if_false]

/-! ### The two ways a command ends (R81, R85, R123) -/

/-- The state in which the execution of a validated command starts: `nf` and the counter at 0, its derived constants
held. -/
def started (i : Instr) (s : State) : State := { beginRun s with derived := derivedOf i s }

theorem rejectCode_eq_codeOf (e : Reject) : rejectCode e = codeOf e := by cases e <;> rfl

theorem complete_some_beginRun (e : Reject) (s : State) : complete (some e) (beginRun s) = rejected e s := by
  simp only [complete, rejected, completeStatus, beginRun, rejectCode_eq_codeOf, Option.isSome_some, Bool.or_true,
    Bool.or_false]

theorem completeStatus_none (nf : Bool) (st : Status) :
    completeStatus none nf st = { st with busy := false, done := true, nonfinite := st.nonfinite || nf } := by
  simp only [completeStatus, Option.isSome_none, Bool.or_false]

theorem exec_of_failure {i : Instr} {s : State} {e : Reject} (h : firstFailure i s = some e) :
    exec i s = .next (rejected e s) := by
  rw [exec_eq_runCommand, runCommand_error _ _ _ e (by rw [validate_beginRun, validate_of_failure h]),
    complete_some_beginRun]

theorem exec_of_pass {i : Instr} {s : State} (h : firstFailure i s = none) :
    ∃ c, capacityOf i s = .ok c ∧
      exec i s = .next (complete none (execute i (planOf i s c) (started i s))) := by
  obtain ⟨c, cap, valid⟩ := validate_of_pass h
  refine ⟨c, cap, ?_⟩
  rw [exec_eq_runCommand, runCommand_ok _ _ _ (planOf i s c) (by rw [validate_beginRun, valid])]
  rfl

/-- And with the capacity known. -/
theorem exec_of_capacity {i : Instr} {s : State} {c : Word} (h : firstFailure i s = none)
    (cap : capacityOf i s = .ok c) :
    exec i s = .next (complete none (execute i (planOf i s c) (started i s))) := by
  obtain ⟨c', cap', run⟩ := exec_of_pass h
  cases cap.symm.trans cap'
  exact run

/-- Every command is rejected by its first failing check, or runs. -/
theorem exec_cases (i : Instr) (s : State) :
    (∃ e, firstFailure i s = some e ∧ exec i s = .next (rejected e s)) ∨
      (firstFailure i s = none ∧ ∃ c, capacityOf i s = .ok c ∧
        exec i s = .next (complete none (execute i (planOf i s c) (started i s)))) := by
  cases h : firstFailure i s with
  | none => exact .inr ⟨rfl, exec_of_pass h⟩
  | some e => exact .inl ⟨e, rfl, exec_of_failure h⟩

theorem exec_isNext (i : Instr) (s : State) : ∃ t, exec i s = .next t := by
  rcases exec_cases i s with ⟨e, -, run⟩ | ⟨-, c, -, run⟩
  · exact ⟨_, run⟩
  · exact ⟨_, run⟩

/-- Settles O29: NOP has no check and does nothing. -/
theorem nopOnlyCompletes : Obligations.NopOnlyCompletes := by
  intro s
  rw [exec_of_capacity (i := .nop) (c := 1#32) rfl rfl]
  simp only [complete, completeStatus_none]
  rfl

end Sys2Proof.Proofs
end

section
/-! The frame commands (30_encoding R84): what one per-sample body does, in one form for all eleven, and what a loop of
such bodies leaves in each memory and field. -/

namespace Sys2Proof.Proofs

open Sys2Proof Sys2Proof.Machine Sys2Proof.Statements

/-! ### A read of IN moves only the count of draws (R45, R142) -/

theorem readIn_snd (k : Nat) (s : State) : (readIn k s).2 = { s with draws := (readIn k s).2.draws } := by
  obtain ⟨d, h⟩ := readIn_state k s
  rw [h]

@[simp] theorem readIn_sample (k : Nat) (s : State) : (readIn k s).2.sample = s.sample := by rw [readIn_snd]
@[simp] theorem readIn_p (k : Nat) (s : State) : (readIn k s).2.p = s.p := by rw [readIn_snd]
@[simp] theorem readIn_derived (k : Nat) (s : State) : (readIn k s).2.derived = s.derived := by rw [readIn_snd]
@[simp] theorem readIn_arg2 (k : Nat) (s : State) : (readIn k s).2.arg2 = s.arg2 := by rw [readIn_snd]
@[simp] theorem readIn_inRam (k : Nat) (s : State) : (readIn k s).2.inRam = s.inRam := by rw [readIn_snd]

@[simp] theorem delayedAt_readIn (i : Word) (k : Nat) (s : State) :
    delayedAt i (readIn k s).2 = delayedAt i s := by rw [readIn_snd]; rfl

theorem draws_le_readIn (k : Nat) (s : State) : s.draws ≤ (readIn k s).2.draws := by
  cases h : Memory.loadWord .input s.inRam k with
  | some v => rw [readIn_of_written k s v h]
  | none => rw [readIn_of_unwritten k s h]; exact Nat.le_succ _

theorem readIn_draws_of_written {k : Nat} {s : State} (h : (Memory.loadWord .input s.inRam k).isSome = true) :
    (readIn k s).2.draws = s.draws := by
  obtain ⟨v, hv⟩ := Option.isSome_iff_exists.mp h
  rw [readIn_of_written k s v hv]

/-! ### The tap of FLANGER_MANUAL (R105) -/

theorem readTap_inside {i d : Word} (s : State) (h : d.toNat ≤ i.toNat) :
    readTap i d s = readIn (i.toNat - d.toNat) s := by rw [readTap, if_pos h]

theorem readTap_outside {i d : Word} (s : State) (h : ¬d.toNat ≤ i.toNat) : readTap i d s = (fZero, s) := by
  rw [readTap, if_neg h]

theorem readTap_snd (i d : Word) (s : State) :
    (readTap i d s).2 = { s with draws := (readTap i d s).2.draws } := by
  by_cases h : d.toNat ≤ i.toNat
  · rw [readTap_inside s h]; exact readIn_snd _ _
  · rw [readTap_outside s h]

theorem draws_le_readTap (i d : Word) (s : State) : s.draws ≤ (readTap i d s).2.draws := by
  by_cases h : d.toNat ≤ i.toNat
  · rw [readTap_inside s h]; exact draws_le_readIn _ _
  · rw [readTap_outside s h]

/-! ### One body -/

/-- The sample a body reads at its index. -/
def sampleIn (t : State) : F32 := (readIn t.sample.toNat t).1

/-- The tap that FLANGER_MANUAL reads after its sample. -/
def tapIn (t : State) : F32 := (readTap t.sample t.arg2 (readIn t.sample.toNat t).2).1

/-- The count of draws after the body's reads. -/
def drawsAfter (i : Instr) (t : State) : Nat :=
  match i with
  | .flangerManual => (readTap t.sample t.arg2 (readIn t.sample.toNat t).2).2.draws
  | .delay | .reverb | .flangerMod | .tremolo | .chorus | .wahwah | .waveshape _ _ _ _ | .compress | .eq7 _ =>
    (readIn t.sample.toNat t).2.draws
  | .tuner | .nop | .dlCreate | .dlCreateMs | .dlCreateFrac | .dlRead | .dlWrite | .dlStep | .oscValue => t.draws

theorem tapIn_inside {t : State} (h : t.arg2.toNat ≤ t.sample.toNat) :
    tapIn t = (readIn (t.sample.toNat - t.arg2.toNat) (readIn t.sample.toNat t).2).1 := by
  rw [tapIn, readTap_inside _ h]

theorem tapIn_outside {t : State} (h : ¬t.arg2.toNat ≤ t.sample.toNat) : tapIn t = fZero := by
  rw [tapIn, readTap_outside _ h]

theorem drawsAfter_tap_inside {t : State} (h : t.arg2.toNat ≤ t.sample.toNat) :
    drawsAfter .flangerManual t =
      (readIn (t.sample.toNat - t.arg2.toNat) (readIn t.sample.toNat t).2).2.draws := by
  rw [drawsAfter, readTap_inside _ h]

/-- The word each body writes to OUT at its index. -/
def outWord (i : Instr) (t : State) : F32 :=
  match i with
  | .delay | .reverb => fadd (fmul (sampleIn t) t.derived.omix) (fmul (delayedAt t.sample t) t.p[1])
  | .flangerMod =>
    fadd (fmul (sampleIn t) (fsub fOne (flangerMix t))) (fmul (delayedAt t.sample t) (flangerMix t))
  | .flangerManual => fadd (fmul (sampleIn t) (fsub fOne (flangerMix t))) (fmul (tapIn t) (flangerMix t))
  | .tremolo => fmul (sampleIn t) (fadd fOne (fmul t.p[1] (osc t.sample t.p[0])))
  | .chorus => fadd (sampleIn t) (fmul (fmul t.p[2] (fmul t.p[1] (osc t.sample t.p[0]))) (sampleIn t))
  | .wahwah => fmul (fmul (sampleIn t) (fsin (wahwahArg t.sample t.p[0] t.p[1] t.derived.span))) t.p[3]
  | .waveshape _ tone lvl mix => shapeSample tone lvl mix t.p[0] t.p[3] t.derived (sampleIn t)
  | .compress => compressSample t.derived.t t.derived.lv t.p[1] (sampleIn t)
  | .eq7 _ => fmul (sampleIn t) t.derived.gain
  | .tuner | .nop | .dlCreate | .dlCreateMs | .dlCreateFrac | .dlRead | .dlWrite | .dlStep | .oscValue => fZero

/-- The word the bodies of the four delay-line commands write to the line at their index (R92, R104, R105). -/
def lineWord (t : State) : F32 := fadd (sampleIn t) (fmul (delayedAt t.sample t) t.p[2])

theorem readIn_eq (k : Nat) (t : State) : ∃ x d, readIn k t = (x, { t with draws := d }) :=
  ⟨_, _, Prod.ext rfl (readIn_snd k t)⟩

/-- A body without a delay line: its reads, then one word of OUT. -/
theorem bodyOf_plain {i : Instr} (frame : isFrame i = true) (plain : creates i = false) (t : State) :
    bodyOf i t = writeOut t.sample.toNat (outWord i t) { t with draws := drawsAfter i t } := by
  obtain ⟨x, d, read⟩ := readIn_eq t.sample.toNat t
  cases i <;> cases frame <;> cases plain
  case tuner => rfl
  all_goals
    simp only [bodyOf, tremoloBody, chorusBody, wahwahBody, waveshapeBody, compressBody, eq7Body, outWord, drawsAfter,
      sampleIn, read]

theorem writeOut_dlWrite (k : Nat) (i : Word) (y w : F32) (s : State) :
    writeOut k y (dlWrite i w s) = dlWrite i w (writeOut k y s) := by
  simp only [writeOut, dlWrite, noteF32, dlIndex, Bool.or_right_comm _ (!isFinite w)]

theorem readTap_eq (i d : Word) (s : State) : ∃ x n, readTap i d s = (x, { s with draws := n }) :=
  ⟨_, _, Prod.ext rfl (readTap_snd i d s)⟩

/-- A body with a delay line: its reads, one word of OUT and one of the line, both from the line as it was. -/
theorem bodyOf_line {i : Instr} (frame : isFrame i = true) (line : creates i = true) (t : State) :
    bodyOf i t =
      dlWrite t.sample (lineWord t) (writeOut t.sample.toNat (outWord i t) { t with draws := drawsAfter i t }) := by
  obtain ⟨x, d, read⟩ := readIn_eq t.sample.toNat t
  cases i <;> cases frame <;> cases line
  case delay | reverb =>
    simp only [bodyOf, delayFrameBody, delayBody_eq, writeOut_dlWrite, outWord, lineWord, drawsAfter, sampleIn, read]
    rfl
  case flangerMod =>
    simp only [bodyOf, flangerModBody, outWord, lineWord, drawsAfter, sampleIn, read]
    rfl
  case flangerManual =>
    obtain ⟨tap, n, readTap⟩ := readTap_eq t.sample t.arg2 { t with draws := d }
    simp only [bodyOf, flangerManualBody, outWord, lineWord, drawsAfter, sampleIn, tapIn, read, readTap]
    rfl

/-! ### The reads of one body -/

theorem draws_le_drawsAfter (i : Instr) (t : State) : t.draws ≤ drawsAfter i t := by
  have input := draws_le_readIn t.sample.toNat t
  cases i <;> simp only [drawsAfter, le_refl]
  case flangerManual => exact input.trans (draws_le_readTap ..)
  all_goals exact input

/-- TUNER alone reads no sample. -/
theorem readIn_draws_le_drawsAfter {i : Instr} (frame : isFrame i = true) (h : i ≠ .tuner) (t : State) :
    (readIn t.sample.toNat t).2.draws ≤ drawsAfter i t := by
  cases i <;> cases frame <;> simp only [drawsAfter, le_refl]
  case tuner => exact absurd rfl h
  case flangerManual => exact draws_le_readTap ..

/-- Where the host has written every sample up to the index, nothing is drawn. -/
theorem drawsAfter_of_written {i : Instr} {t : State}
    (h : ∀ k, k ≤ t.sample.toNat → (Memory.loadWord .input t.inRam k).isSome = true) :
    drawsAfter i t = t.draws := by
  have input := readIn_draws_of_written (h t.sample.toNat le_rfl)
  cases i <;> simp only [drawsAfter]
  case flangerManual =>
    by_cases inside : t.arg2.toNat ≤ t.sample.toNat
    · rw [readTap_inside _ inside, readIn_draws_of_written (by simpa using h _ (Nat.sub_le _ _)), input]
    · rw [readTap_outside _ inside, input]
  all_goals exact input

/-! ### What every body keeps -/

/-- Everything that no frame command writes: `t` is `s` but for what its index has reached, its writes and its
draws. -/
def FrameKeeps (s t : State) : Prop :=
  t = { s with
    sample := t.sample, outRam := t.outRam, dlRam := t.dlRam, nf := t.nf, draws := t.draws }

theorem FrameKeeps.refl (s : State) : FrameKeeps s s := rfl

theorem FrameKeeps.trans {s t u : State} (h : FrameKeeps s t) (h' : FrameKeeps t u) : FrameKeeps s u := by
  unfold FrameKeeps at *
  rw [h', h]

theorem bodyOf_keeps {i : Instr} (frame : isFrame i = true) (t : State) : FrameKeeps t (bodyOf i t) := by
  cases line : creates i
  · rw [bodyOf_plain frame line]; rfl
  · rw [bodyOf_line frame line]; rfl

theorem bodyOf_sample {i : Instr} (frame : isFrame i = true) (t : State) : (bodyOf i t).sample = t.sample := by
  cases line : creates i
  · rw [bodyOf_plain frame line]; rfl
  · rw [bodyOf_line frame line]; rfl

theorem bodyOf_outRam {i : Instr} (frame : isFrame i = true) (t : State) :
    (bodyOf i t).outRam = Memory.storeWord .output t.outRam t.sample.toNat (outWord i t) := by
  cases line : creates i
  · rw [bodyOf_plain frame line]; rfl
  · rw [bodyOf_line frame line]; rfl

theorem bodyOf_dlRam {i : Instr} (frame : isFrame i = true) (line : creates i = true) (t : State) :
    (bodyOf i t).dlRam = Memory.storeWord .line t.dlRam (dlIndex t.sample t) (lineWord t) := by
  rw [bodyOf_line frame line]; rfl

theorem bodyOf_draws {i : Instr} (frame : isFrame i = true) (t : State) :
    (bodyOf i t).draws = drawsAfter i t := by
  cases line : creates i
  · rw [bodyOf_plain frame line]; rfl
  · rw [bodyOf_line frame line]; rfl

/-! ### The state before each index of a frame -/

/-- The state in which the body for index `j` starts, in a frame that starts from `s`. -/
def frameAt (i : Instr) (s : State) (j : Nat) : State := frameLoop (bodyOf i) j s

theorem frameAt_succ (i : Instr) (s : State) (j : Nat) :
    frameAt i s (j + 1) = { bodyOf i (frameAt i s j) with sample := (bodyOf i (frameAt i s j)).sample + 1#32 } := rfl

theorem frameAt_keeps {i : Instr} (frame : isFrame i = true) (s : State) (j : Nat) :
    FrameKeeps s (frameAt i s j) := by
  induction j with
  | zero => exact .refl s
  | succ j ih => exact (ih.trans (bodyOf_keeps frame _)).trans rfl

theorem frameAt_sample {i : Instr} (frame : isFrame i = true) {s : State} (start : s.sample = 0#32) (j : Nat) :
    (frameAt i s j).sample = BitVec.ofNat 32 j := by
  rw [frameAt, frameLoop_sample _ (bodyOf_sample frame), start, BitVec.zero_add]

theorem frameAt_sample_toNat {i : Instr} (frame : isFrame i = true) {s : State} (start : s.sample = 0#32) {j : Nat}
    (hj : j < 2 ^ 32) : (frameAt i s j).sample.toNat = j := by
  rw [frameAt_sample frame start, BitVec.toNat_ofNat, Nat.mod_eq_of_lt hj]

theorem frameAt_outRam {i : Instr} (frame : isFrame i = true) {s : State} (start : s.sample = 0#32) {j : Nat}
    (hj : j < 2 ^ 32) :
    (frameAt i s (j + 1)).outRam =
      Memory.storeWord .output (frameAt i s j).outRam j (outWord i (frameAt i s j)) := by
  rw [frameAt_succ, bodyOf_outRam frame, frameAt_sample_toNat frame start hj]

theorem frameAt_draws {i : Instr} (frame : isFrame i = true) (s : State) (j : Nat) :
    (frameAt i s (j + 1)).draws = drawsAfter i (frameAt i s j) := by
  rw [frameAt_succ, bodyOf_draws frame]

/-! ### OUT after a frame (R46, R64) -/

theorem frameAt_loadWord_output {i : Instr} (frame : isFrame i = true) {s : State} (start : s.sample = 0#32) {n : Nat}
    (hn : n ≤ 2 ^ 32) {k : Nat} (hk : k < n) :
    Memory.loadWord .output (frameAt i s n).outRam k = some (outWord i (frameAt i s k)) := by
  induction n with
  | zero => omega
  | succ n ih =>
    rw [frameAt_outRam frame start hn, Memory.loadWord_storeWord]
    split
    · rename_i same; rw [same]
    · exact ih (by omega) (by omega)

theorem frameAt_loadByte_output {i : Instr} (frame : isFrame i = true) {s : State} (start : s.sample = 0#32) {n : Nat}
    (hn : n ≤ 2 ^ 32) {a : Nat} (ha : 4 * n ≤ a) :
    Memory.loadByte .output (frameAt i s n).outRam a = Memory.loadByte .output s.outRam a := by
  induction n with
  | zero => rfl
  | succ n ih =>
    rw [frameAt_outRam frame start hn, loadByte_storeWord_outside _ _ _ (by omega), ih (by omega) (by omega)]

/-! ### The reads of a frame (R63, R142) -/

theorem frameAt_draws_mono {i : Instr} (frame : isFrame i = true) (s : State) {j n : Nat} (h : j ≤ n) :
    (frameAt i s j).draws ≤ (frameAt i s n).draws := by
  induction n with
  | zero => rw [Nat.le_zero.mp h]
  | succ n ih =>
    rcases Nat.le_succ_iff.mp h with below | rfl
    · rw [frameAt_draws frame]; exact (ih below).trans (draws_le_drawsAfter i _)
    · exact le_rfl

theorem frameAt_inRam {i : Instr} (frame : isFrame i = true) (s : State) (j : Nat) :
    (frameAt i s j).inRam = s.inRam := by rw [frameAt_keeps frame s j]

theorem frameAt_draws_of_written {i : Instr} (frame : isFrame i = true) {s : State} (start : s.sample = 0#32) {n : Nat}
    (hn : n ≤ 2 ^ 32) (written : ∀ k, k < n → (Memory.loadWord .input s.inRam k).isSome = true) :
    (frameAt i s n).draws = s.draws := by
  induction n with
  | zero => rfl
  | succ n ih =>
    rw [frameAt_draws frame, drawsAfter_of_written, ih (by omega) fun k hk => written k (by omega)]
    intro k hk
    rw [frameAt_sample_toNat frame start (by omega)] at hk
    rw [frameAt_inRam frame]
    exact written k (by omega)

/-- A word read at index `j` of a frame is the one the host wrote, or a draw of the frame's. -/
theorem readIn_frameAt {i : Instr} (frame : isFrame i = true) (s u : State) {k j n : Nat} (hj : j < n)
    (inRam : u.inRam = s.inRam) (from_ : (frameAt i s j).draws ≤ u.draws)
    (upto : (readIn k u).2.draws ≤ (frameAt i s (j + 1)).draws) (v : Option Word)
    (hv : Memory.loadWord .input s.inRam k = v) :
    v.elim (∃ d, s.draws ≤ d ∧ d < (frameAt i s n).draws ∧ (readIn k u).1 = Config.freeWord d)
      ((readIn k u).1 = ·) := by
  rw [← inRam] at hv
  cases v with
  | some v => rw [readIn_of_written k u v hv]; rfl
  | none =>
    rw [readIn_of_unwritten k u hv] at upto ⊢
    exact ⟨u.draws, (frameAt_draws_mono frame s (Nat.zero_le j)).trans from_,
      Nat.lt_of_lt_of_le upto (frameAt_draws_mono frame s hj), rfl⟩

end Sys2Proof.Proofs
end

section
/-! How a frame command ends (30_encoding R75, R84): its reads, OUT, the line and STATUS, in the words of the
statements. -/

namespace Sys2Proof.Proofs

open Sys2Proof Sys2Proof.Machine Sys2Proof.Statements

/-! ### Non-finite writes (R127) -/

theorem anyNonfinite_succ (y : Nat → F32) (n : Nat) :
    anyNonfinite y (n + 1) = (anyNonfinite y n || !isFinite (y n)) := by
  simp only [anyNonfinite, List.range_succ, List.any_append, List.any_cons, List.any_nil, Bool.or_false]

theorem frameAt_nf_plain {i : Instr} (frame : isFrame i = true) (plain : creates i = false) (s : State) (n : Nat) :
    (frameAt i s n).nf = (s.nf || anyNonfinite (fun j => outWord i (frameAt i s j)) n) := by
  induction n with
  | zero => exact (Bool.or_false _).symm
  | succ n ih => rw [frameAt_succ, bodyOf_plain frame plain, writeOut_nf, ih, anyNonfinite_succ, Bool.or_assoc]

theorem frameAt_nf_line {i : Instr} (frame : isFrame i = true) (line : creates i = true) (s : State) (n : Nat) :
    (frameAt i s n).nf = (s.nf || (anyNonfinite (fun j => outWord i (frameAt i s j)) n ||
      anyNonfinite (fun j => lineWord (frameAt i s j)) n)) := by
  induction n with
  | zero => exact (Bool.or_false _).symm
  | succ n ih =>
    rw [frameAt_succ, bodyOf_line frame line, dlWrite_nf, writeOut_nf, ih, anyNonfinite_succ, anyNonfinite_succ]
    ac_rfl

/-! ### The line after a frame (R48, R64, R89, R93) -/

/-- The last index below `n` that goes to word `k` of a line of `c` words. -/
def lastVisit (c n k : Nat) : Nat := k + c * ((n - 1 - k) / c)

/-- Index `n` is its own word's last visit below `n + 1`. -/
theorem lastVisit_self {c : Nat} (hc : 0 < c) (n : Nat) : lastVisit c (n + 1) (n % c) = n := by
  have split := Nat.mod_add_div n c
  have rest : (n + 1 - 1 - n % c) / c = n / c := by
    rw [Nat.add_sub_cancel, Nat.sub_eq_of_eq_add' split.symm, Nat.mul_div_cancel_left _ hc]
  rw [lastVisit, rest, split]

/-- The next index is no visit to any other word. -/
theorem lastVisit_succ {c n k : Nat} (hk : k < c) (hn : k < n) (other : k ≠ n % c) :
    lastVisit c (n + 1) k = lastVisit c n k := by
  have notDvd : ¬c ∣ n - 1 - k + 1 := by
    rintro ⟨q, hq⟩
    have : n = k + c * q := by omega
    exact other (by rw [this, Nat.add_mul_mod_self_left, Nat.mod_eq_of_lt hk])
  rw [lastVisit, show n + 1 - 1 - k = n - 1 - k + 1 by omega, Nat.succ_div_of_not_dvd notDvd, lastVisit]

/-- From index `c` on, the last visit to the index's word was one round before. -/
theorem lastVisit_before {c n : Nat} (hc : 0 < c) (hn : c ≤ n) : lastVisit c n (n % c) = n - c := by
  have : n = n - c + c := by omega
  have word : n % c = (n - c) % c := by conv_lhs => rw [this, Nat.add_mod_right]
  have split := Nat.mod_add_div (n - c) c
  have lt := Nat.mod_lt (n - c) hc
  have rest : (n - 1 - (n - c) % c) / c = (n - c) / c := by
    rw [show n - 1 - (n - c) % c = c - 1 + c * ((n - c) / c) by omega, Nat.add_mul_div_left _ _ hc,
      Nat.div_eq_of_lt (by omega), Nat.zero_add]
  rw [lastVisit, word, rest, split]

theorem frameAt_cap {i : Instr} (frame : isFrame i = true) (s : State) (j : Nat) : (frameAt i s j).cap = s.cap := by
  rw [frameAt_keeps frame s j]

theorem frameAt_dlRam_plain {i : Instr} (frame : isFrame i = true) (plain : creates i = false) (s : State) (n : Nat) :
    (frameAt i s n).dlRam = s.dlRam := by
  induction n with
  | zero => rfl
  | succ n ih => rw [frameAt_succ, bodyOf_plain frame plain, writeOut_dlRam, ih]

theorem frameAt_dlRam_line {i : Instr} (frame : isFrame i = true) (line : creates i = true) {s : State}
    (start : s.sample = 0#32) {n : Nat} (hn : n < 2 ^ 32) :
    (frameAt i s (n + 1)).dlRam =
      Memory.storeWord .line (frameAt i s n).dlRam (n % s.cap.toNat) (lineWord (frameAt i s n)) := by
  rw [frameAt_succ, bodyOf_dlRam frame line, dlIndex, frameAt_sample_toNat frame start hn, frameAt_cap frame]

/-- Every word of a fresh line holds the last word written to it, +0.0 where there is none. -/
theorem frameAt_loadWord_line {i : Instr} (frame : isFrame i = true) (line : creates i = true) {s : State}
    (start : s.sample = 0#32) (fresh : ∀ k, k < s.cap.toNat → Memory.loadWord .line s.dlRam k = some fZero) {n : Nat}
    (hn : n ≤ 2 ^ 32) {k : Nat} (hk : k < s.cap.toNat) :
    Memory.loadWord .line (frameAt i s n).dlRam k =
      some (if k < n then lineWord (frameAt i s (lastVisit s.cap.toNat n k)) else fZero) := by
  induction n with
  | zero => exact fresh k hk
  | succ n ih =>
    rw [frameAt_dlRam_line frame line start hn, Memory.loadWord_storeWord]
    split
    · rename_i word
      rw [word, if_pos (Nat.lt_succ_of_le (Nat.mod_le n _)), lastVisit_self (Nat.zero_lt_of_lt hk)]
    · rename_i other
      rw [ih (by omega)]
      by_cases visited : k < n
      · rw [if_pos visited, if_pos (by omega), lastVisit_succ hk visited other]
      · have : k ≠ n := fun same => other (by rw [← same, Nat.mod_eq_of_lt hk])
        rw [if_neg visited, if_neg (by omega)]

theorem frameAt_loadByte_line {i : Instr} (frame : isFrame i = true) (line : creates i = true) {s : State}
    (start : s.sample = 0#32) (positive : 0 < s.cap.toNat) {n : Nat} (hn : n ≤ 2 ^ 32) {a : Nat}
    (ha : 4 * s.cap.toNat ≤ a) :
    Memory.loadByte .line (frameAt i s n).dlRam a = Memory.loadByte .line s.dlRam a := by
  induction n with
  | zero => rfl
  | succ n ih =>
    have word := Nat.mod_lt n positive
    rw [frameAt_dlRam_line frame line start hn, loadByte_storeWord_outside _ _ _ (by omega), ih (by omega)]

/-- What a body finds on a fresh line is the word written one round before (R93). -/
theorem delayedAt_frameAt {i : Instr} (frame : isFrame i = true) (line : creates i = true) {s : State}
    (start : s.sample = 0#32) (fresh : ∀ k, k < s.cap.toNat → Memory.loadWord .line s.dlRam k = some fZero)
    (positive : 0 < s.cap.toNat) {n : Nat} (hn : n < 2 ^ 32) :
    delayedAt (frameAt i s n).sample (frameAt i s n) =
      delayedIn (fun j => lineWord (frameAt i s j)) s.cap.toNat n := by
  have index := frameAt_sample_toNat (j := n) frame start hn
  have cap := frameAt_cap frame s n
  by_cases below : n < s.cap.toNat
  · rw [delayedAt_below _ _ (by rw [index, cap]; exact below), delayedIn, if_pos below]
  · rw [delayedAt_from _ _ (by rw [index, cap]; omega), delayedIn, if_neg below]
    refine dlRead_eq _ _ _ ?_
    rw [index, cap, frameAt_loadWord_line frame line start fresh hn.le (Nat.mod_lt n positive),
      if_pos (Nat.lt_of_lt_of_le (Nat.mod_lt n positive) (by omega)), lastVisit_before positive (by omega)]

/-! ### Running a frame command -/

/-- The state in which the first body starts: the line created where the command has one. -/
def launched (i : Instr) (s : State) (c : Word) : State :=
  if creates i then createLine c (started i s) else started i s

theorem launched_plain {i : Instr} (plain : creates i = false) (s : State) (c : Word) :
    launched i s c = started i s := by simp only [launched, plain, Bool.false_eq_true, if_false]

theorem launched_line {i : Instr} (line : creates i = true) (s : State) (c : Word) :
    launched i s c = createLine c (started i s) := by simp only [launched, line, if_true]

/-- Completion after a frame: what the frame wrote stays, and nothing of the command is held (R85). -/
theorem complete_of_frameKeeps {s t : State} (h : FrameKeeps s t) :
    complete none t = { s with
      outRam := t.outRam, dlRam := t.dlRam, draws := t.draws, status := finished s t.nf
      sample := 0#32, derived := {}, nf := false, busyLeft := 0 } := by
  conv_lhs => rw [h]
  simp only [complete, completeStatus_none]
  rfl

/-- The state a frame command leaves, its capacity `c`. -/
def frameEnd (i : Instr) (s : State) (c : Word) : State := complete none (frameAt i (launched i s c) s.len.toNat)

theorem exec_eq_frameEnd {i : Instr} {s : State} {c : Word} (frame : isFrame i = true)
    (pass : firstFailure i s = none) (cap : capacityOf i s = .ok c) : exec i s = .next (frameEnd i s c) := by
  rw [exec_of_capacity pass cap]
  cases i <;> cases frame <;> rfl

theorem launched_sample (i : Instr) (s : State) (c : Word) : (launched i s c).sample = 0#32 := by
  unfold launched; split <;> rfl

theorem launched_inRam (i : Instr) (s : State) (c : Word) : (launched i s c).inRam = s.inRam := by
  unfold launched; split <;> rfl

theorem launched_outRam (i : Instr) (s : State) (c : Word) : (launched i s c).outRam = s.outRam := by
  unfold launched; split <;> rfl

theorem launched_draws (i : Instr) (s : State) (c : Word) : (launched i s c).draws = s.draws := by
  unfold launched; split <;> rfl

theorem launched_nf (i : Instr) (s : State) (c : Word) : (launched i s c).nf = false := by
  unfold launched; split <;> rfl

/-- The state before index `j` of the frame of a command that starts in `s`. -/
def during (i : Instr) (s : State) (c : Word) (j : Nat) : State := frameAt i (launched i s c) j

theorem during_eq (i : Instr) (s : State) (c : Word) (j : Nat) : during i s c j = frameAt i (launched i s c) j := rfl

/-- The samples of a frame satisfy `ReadsFrame`. -/
theorem readsFrame_frameEnd {i : Instr} (frame : isFrame i = true) (reads : i ≠ .tuner) (s : State) (c : Word) :
    ReadsFrame s (frameEnd i s c) (fun j => sampleIn (during i s c j)) := by
  refine ⟨fun j hj => ?_, fun written => ?_⟩
  · have index := frameAt_sample_toNat (j := j) frame (launched_sample i s c) (hj.trans s.len.isLt)
    have upto := readIn_draws_le_drawsAfter frame reads (frameAt i (launched i s c) j)
    rw [← frameAt_draws frame] at upto
    have read := readIn_frameAt frame (launched i s c) (frameAt i (launched i s c) j) hj
      (frameAt_inRam frame _ j) le_rfl upto _ (by rw [index, launched_inRam])
    rw [launched_draws] at read
    cases word : Memory.loadWord .input s.inRam j <;> rw [word] at read <;> exact read
  · refine (frameAt_draws_of_written frame (launched_sample i s c) s.len.isLt.le ?_).trans (launched_draws i s c)
    rwa [launched_inRam]

theorem outHolds_frameEnd {i : Instr} (frame : isFrame i = true) (s : State) (c : Word) :
    OutHolds s (frameEnd i s c) (fun j => outWord i (during i s c j)) := by
  refine ⟨fun j hj => ?_, fun a ha => ?_⟩
  · exact frameAt_loadWord_output frame (launched_sample i s c) s.len.isLt.le hj
  · exact (frameAt_loadByte_output frame (launched_sample i s c) s.len.isLt.le ha).trans
      (by rw [launched_outRam])

/-- A frame command without a delay line ends as `FrameEnds` says. -/
theorem frameEnds_frameEnd {i : Instr} (frame : isFrame i = true) (plain : creates i = false) (s : State) (c : Word) :
    FrameEnds s (frameEnd i s c) (fun j => outWord i (during i s c j)) := by
  have line := frameAt_dlRam_plain frame plain (launched i s c) s.len.toNat
  have nf := frameAt_nf_plain frame plain (launched i s c) s.len.toNat
  have keeps := frameAt_keeps frame (launched i s c) s.len.toNat
  rw [launched_nf, Bool.false_or] at nf
  refine ⟨?_, outHolds_frameEnd frame s c⟩
  rw [frameEnd, complete_of_frameKeeps keeps, line, nf, launched_plain plain]
  simp only [during, launched_plain plain]
  rfl

theorem launched_fresh {i : Instr} (line : creates i = true) (s : State) (c : Word) :
    ∀ k, k < c.toNat → Memory.loadWord .line (launched i s c).dlRam k = some fZero := by
  intro k hk
  rw [launched, if_pos line, createLine_dlRam, Memory.loadWord_zeroWords, if_pos hk]
  rfl

theorem launched_cap {i : Instr} (line : creates i = true) (s : State) (c : Word) : (launched i s c).cap = c := by
  rw [launched, if_pos line, createLine_cap]

/-- A delay-line frame command ends as `LineFrameEnds` says. -/
theorem lineFrameEnds_frameEnd {i : Instr} (frame : isFrame i = true) (line : creates i = true) (s : State) (c : Word)
    (positive : 0 < c.toNat) :
    LineFrameEnds s (frameEnd i s c) c (fun j => outWord i (during i s c j)) (fun j => lineWord (during i s c j)) := by
  have start := launched_sample i s c
  have cap := launched_cap line s c
  have nf := frameAt_nf_line frame line (launched i s c) s.len.toNat
  have keeps := frameAt_keeps frame (launched i s c) s.len.toNat
  refine ⟨?_, outHolds_frameEnd frame s c, fun k hk => ?_, fun a ha => ?_⟩
  · rw [launched_nf, Bool.false_or] at nf
    rw [frameEnd, complete_of_frameKeeps keeps, nf, launched_line line]
    simp only [during, launched_line line]
    rfl
  · have word := frameAt_loadWord_line frame line start (by rw [cap]; exact launched_fresh line s c) s.len.isLt.le
      (by rw [cap]; exact hk)
    rw [cap] at word
    exact word
  · refine (frameAt_loadByte_line frame line start (by rw [cap]; exact positive) s.len.isLt.le
      (by rw [cap]; exact ha)).trans ?_
    rw [launched, if_pos line, createLine_dlRam, Memory.loadByte_zeroWords, if_neg (by omega)]
    rfl

theorem delayedAt_during {i : Instr} (frame : isFrame i = true) (line : creates i = true) (s : State) (c : Word)
    (positive : 0 < c.toNat) {j : Nat} (hj : j < 2 ^ 32) :
    delayedAt (during i s c j).sample (during i s c j) =
      delayedIn (fun j => lineWord (during i s c j)) c.toNat j := by
  have cap := launched_cap line s c
  have delayed := delayedAt_frameAt frame line (launched_sample i s c) (by rw [cap]; exact launched_fresh line s c)
    (by rw [cap]; exact positive) hj
  rw [cap] at delayed
  exact delayed

/-! ### What a body finds in the registers -/

theorem during_keeps {i : Instr} (frame : isFrame i = true) (s : State) (c : Word) (j : Nat) :
    FrameKeeps (launched i s c) (during i s c j) := frameAt_keeps frame _ j

theorem during_sample {i : Instr} (frame : isFrame i = true) (s : State) (c : Word) (j : Nat) :
    (during i s c j).sample = BitVec.ofNat 32 j := frameAt_sample frame (launched_sample i s c) j

theorem during_p {i : Instr} (frame : isFrame i = true) (s : State) (c : Word) (j : Nat) :
    (during i s c j).p = s.p := by
  rw [during_keeps frame s c j]
  unfold launched
  split <;> rfl

theorem during_arg2 {i : Instr} (frame : isFrame i = true) (s : State) (c : Word) (j : Nat) :
    (during i s c j).arg2 = s.arg2 := by
  rw [during_keeps frame s c j]
  unfold launched
  split <;> rfl

theorem during_derived {i : Instr} (frame : isFrame i = true) (s : State) (c : Word) (j : Nat) :
    (during i s c j).derived = derivedOf i s := by
  rw [during_keeps frame s c j]
  unfold launched
  split <;> rfl

end Sys2Proof.Proofs
end

section
/-! What each frame command computes (40_delay_line section 3, 41 to 45): the words of its bodies, with the registers
the bodies read. -/

namespace Sys2Proof.Proofs

open Sys2Proof Sys2Proof.Machine Sys2Proof.Statements

/-! ### Only the samples of the frame matter -/

theorem anyNonfinite_congr {y y' : Nat → F32} {n : Nat} (h : ∀ j, j < n → y j = y' j) :
    anyNonfinite y n = anyNonfinite y' n := by
  induction n with
  | zero => rfl
  | succ n ih => rw [anyNonfinite_succ, anyNonfinite_succ, ih fun j hj => h j (by omega), h n (by omega)]

theorem outHolds_congr {s t : State} {y y' : Nat → F32} (h : ∀ j, j < s.len.toNat → y j = y' j)
    (holds : OutHolds s t y) : OutHolds s t y' := by
  obtain ⟨words, rest⟩ := holds
  exact ⟨fun j hj => by rw [words j hj, h j hj], rest⟩

theorem frameEnds_congr {s t : State} {y y' : Nat → F32} (h : ∀ j, j < s.len.toNat → y j = y' j)
    (ends : FrameEnds s t y) : FrameEnds s t y' := by
  obtain ⟨state, out⟩ := ends
  refine ⟨?_, outHolds_congr h out⟩
  rw [← anyNonfinite_congr h]
  exact state

theorem lineFrameEnds_congr {s t : State} {c : Word} {y y' w : Nat → F32} (h : ∀ j, j < s.len.toNat → y j = y' j)
    (ends : LineFrameEnds s t c y w) : LineFrameEnds s t c y' w := by
  obtain ⟨state, out, line⟩ := ends
  refine ⟨?_, outHolds_congr h out, line⟩
  rw [← anyNonfinite_congr h]
  exact state

/-! ### A capacity is never 0 -/

theorem capClamp_pos {depth c : Word} {n : Word} (h : capClamp depth c = .ok n) : 0 < n.toNat := by
  cases finite : isFinite c
  · unfold capClamp at h
    split at h
    · cases h
    · rename_i nan
      have inf : isInf c = true := by
        rw [isInf_iff]
        rw [isNaN_iff] at nan
        rw [← Bool.not_eq_true, isFinite_iff] at finite
        omega
      rw [if_pos inf] at h
      split at h <;> cases h
      decide
  · rw [capClamp_of_isFinite depth finite] at h
    split at h
    · cases h; decide
    · split at h
      · cases h
      · cases h
        have := depth.isLt
        rw [BitVec.toNat_ofNat, Nat.mod_eq_of_lt (by omega)]
        omega

theorem capArg_pos {depth a n : Word} (h : capArg depth a = .ok n) : 0 < n.toNat := by
  unfold capArg at h
  split at h
  · cases h; decide
  · rename_i nonzero
    split at h <;> cases h
    exact Nat.pos_of_ne_zero fun zero => nonzero (BitVec.eq_of_toNat_eq zero)

theorem capacityOf_pos {i : Instr} {s : State} {c : Word} (h : capacityOf i s = .ok c) : 0 < c.toNat := by
  cases i
  case dlCreate | flangerMod | flangerManual => exact capArg_pos h
  case dlCreateMs | delay | dlCreateFrac | reverb => exact capClamp_pos h
  all_goals cases h; decide

/-! ### The commands without a delay line -/

section
variable {i : Instr} {s : State}

/-- A frame command without a delay line that passes leaves, over its samples, the words of its bodies. -/
theorem exec_plainFrame (frame : isFrame i = true) (plain : creates i = false) (reads : i ≠ .tuner)
    (pass : firstFailure i s = none) (cap : capacityOf i s = .ok 1#32) {y : Nat → F32 → F32}
    (word : ∀ j, outWord i (during i s 1#32 j) = y j (sampleIn (during i s 1#32 j))) :
    ∃ t x, exec i s = .next t ∧ ReadsFrame s t x ∧ FrameEnds s t (fun j => y j (x j)) :=
  ⟨frameEnd i s 1#32, fun j => sampleIn (during i s 1#32 j), exec_eq_frameEnd frame pass cap,
    readsFrame_frameEnd frame reads s 1#32, frameEnds_congr (fun j _ => word j) (frameEnds_frameEnd frame plain s 1#32)⟩

end

theorem threeFinite_all {s : State} (h : ThreeFinite s) : [s.p[0], s.p[1], s.p[2]].all isFinite = true := by
  obtain ⟨p0, p1, p2⟩ := h
  simp only [List.all_cons, List.all_nil, p0, p1, p2, Bool.and_self]

/-- Settles O38. -/
theorem tremoloModulatesTheFrame : Obligations.TremoloModulatesTheFrame := by
  intro s len p0 p1
  have pass : firstFailure .tremolo s = none :=
    firstFailure_eq_none rfl (fun _ => len) (by simp [validated, p0, p1]) rfl (c := 1#32) rfl rfl
  refine exec_plainFrame rfl rfl (by decide) pass rfl
    (y := fun j x => fmul x (fadd fOne (fmul s.p[1] (osc (BitVec.ofNat 32 j) s.p[0])))) fun j => ?_
  simp only [outWord, during_p (i := .tremolo) rfl, during_sample (i := .tremolo) rfl]

/-- Settles O39. -/
theorem chorusModulatesTheFrame : Obligations.ChorusModulatesTheFrame := by
  intro s len three
  have pass : firstFailure .chorus s = none :=
    firstFailure_eq_none rfl (fun _ => len) (threeFinite_all three) rfl (c := 1#32) rfl rfl
  refine exec_plainFrame rfl rfl (by decide) pass rfl
    (y := fun j x => fadd x (fmul (fmul s.p[2] (fmul s.p[1] (osc (BitVec.ofNat 32 j) s.p[0]))) x)) fun j => ?_
  simp only [outWord, during_p (i := .chorus) rfl, during_sample (i := .chorus) rfl]

/-- Settles O40: the second oscillation is SIN of the swept argument, which has no 2π. -/
theorem wahwahSweepsTheFrame : Obligations.WahwahSweepsTheFrame := by
  intro s len three p3 span sweep modFreq arg
  obtain ⟨p0, p1, p2⟩ := three
  have pass : firstFailure .wahwah s = none :=
    firstFailure_eq_none rfl (fun _ => len) (by simp [validated, p0, p1, p2, p3]) rfl (c := 1#32) rfl
      (by rw [derivedFailure, span]; rfl)
  refine exec_plainFrame rfl rfl (by decide) pass rfl
    (y := fun j x => fmul (fmul x (Config.sinFn.f (arg j))) s.p[3]) fun j => ?_
  simp only [outWord, during_p (i := .wahwah) rfl, during_sample (i := .wahwah) rfl, during_derived (i := .wahwah) rfl,
    derivedOf, wahwahArg, fsin_eq, arg, modFreq, sweep, Config.fs]

/-- Settles O41: each enabled stage reads its derived constant. -/
theorem waveshapeRunsItsStages : Obligations.WaveshapeRunsItsStages := by
  intro s ksel tone lvl mix kf len divisor p0 sign p1 p2 p3 shape
  have ksel_kf : ksel ≠ 3#2 ∧ divisorOf ksel = kf := by
    simp only [List.mem_cons, Prod.mk.injEq, List.not_mem_nil, or_false] at divisor
    rcases divisor with ⟨rfl, rfl⟩ | ⟨rfl, rfl⟩ | ⟨rfl, rfl⟩ <;> decide
  obtain ⟨legal, rfl⟩ := ksel_kf
  have finite : (validated (.waveshape ksel tone lvl mix) s).all isFinite = true := by
    cases tone <;> cases lvl <;> cases mix <;> simp_all [validated]
  have pass : firstFailure (.waveshape ksel tone lvl mix) s = none :=
    firstFailure_eq_none (bne_iff_ne.mpr legal) (fun _ => len) finite (by simp only [signFailure, sign]; rfl)
      (c := 1#32) rfl rfl
  refine exec_plainFrame rfl rfl (by simp) pass rfl (y := fun _ x => shape x) fun j => ?_
  simp only [outWord, during_p (i := .waveshape ksel tone lvl mix) rfl,
    during_derived (i := .waveshape ksel tone lvl mix) rfl, derivedOf, shapeSample, shape]
  cases tone <;> cases lvl <;> cases mix <;> simp only [Bool.false_eq_true, if_true, if_false]

/-- Settles O42. -/
theorem compressAboveTheThreshold : Obligations.CompressAboveTheThreshold := by
  intro s len three ratio th lv y
  have pass : firstFailure .compress s = none :=
    firstFailure_eq_none rfl (fun _ => len) (threeFinite_all three) (by simp only [signFailure, ratio]; rfl)
      (c := 1#32) rfl rfl
  refine exec_plainFrame rfl rfl (by decide) pass rfl (y := fun _ x => y x) fun j => ?_
  simp only [outWord, during_p (i := .compress) rfl, during_derived (i := .compress) rfl, derivedOf, compressSample,
    fpow10_eq]
  rfl

/-- Settles O43: only the slots present are read and validated. -/
theorem eqMultipliesByTheGain : Obligations.EqMultipliesByTheGain := by
  intro s nb len finite sum
  have pass : firstFailure (.eq7 nb) s = none :=
    firstFailure_eq_none rfl (fun _ => len) (List.all_eq_true.mpr finite) rfl (c := 1#32) rfl rfl
  refine exec_plainFrame rfl rfl (by simp) pass rfl (y := fun _ x => fmul x (fadd fOne sum)) fun j => ?_
  simp only [outWord, during_derived (i := .eq7 nb) rfl, derivedOf]
  rfl

/-- Settles O44: TUNER's bodies read nothing, so nothing is drawn. -/
theorem tunerWritesZeros : Obligations.TunerWritesZeros := by
  intro s len
  have pass : firstFailure .tuner s = none := firstFailure_eq_none rfl (fun _ => len) rfl rfl (c := 1#32) rfl rfl
  have ends := frameEnds_frameEnd (i := .tuner) rfl rfl s 1#32
  have zeros : anyNonfinite (fun j => outWord .tuner (during .tuner s 1#32 j)) s.len.toNat = false := by
    rw [anyNonfinite, List.any_eq_false]
    have finite : isFinite fZero = true := by decide
    intro j _
    rw [outWord, finite]
    exact Bool.false_ne_true
  have undrawn : ∀ n, (frameAt .tuner (launched .tuner s 1#32) n).draws = s.draws := fun n => by
    induction n with
    | zero => rfl
    | succ n ih => rw [frameAt_draws rfl]; exact ih
  refine ⟨frameEnd .tuner s 1#32, exec_eq_frameEnd rfl pass rfl, ends, undrawn _, ?_⟩
  rw [ends.1, finished, zeros]
  exact Bool.or_false _

/-! ### The delay-line commands -/

section
variable {i : Instr} {s : State} {c : Word}

/-- A delay-line frame command that passes: its samples, its line words by the Delay recurrence (R92, R93), and the
words of its bodies in OUT. -/
theorem exec_lineFrame (frame : isFrame i = true) (line : creates i = true)
    (pass : firstFailure i s = none) (cap : capacityOf i s = .ok c) :
    let x := fun j => sampleIn (during i s c j)
    let w := fun j => lineWord (during i s c j)
    exec i s = .next (frameEnd i s c) ∧ ReadsFrame s (frameEnd i s c) x ∧
      (∀ j, j < s.len.toNat → w j = fadd (x j) (fmul (delayedIn w c.toNat j) s.p[2])) ∧
      LineFrameEnds s (frameEnd i s c) c (fun j => outWord i (during i s c j)) w := by
  intro x w
  have positive := capacityOf_pos cap
  refine ⟨exec_eq_frameEnd frame pass cap, readsFrame_frameEnd frame ?_ s c, fun j hj => ?_,
    lineFrameEnds_frameEnd frame line s c positive⟩
  · rintro rfl; cases line
  · change lineWord _ = _
    rw [lineWord, delayedAt_during frame line s c positive (hj.trans s.len.isLt), during_p frame]

end

/-- DELAY and REVERB share their bodies, and so the recurrence. -/
theorem runsDelayRecurrence_of_pass {i : Instr} {s : State} {c : Word} (kind : i = .delay ∨ i = .reverb)
    (pass : firstFailure i s = none) (cap : capacityOf i s = .ok c) : RunsDelayRecurrence i s c := by
  have frame : isFrame i = true := by rcases kind with rfl | rfl <;> rfl
  have line : creates i = true := by rcases kind with rfl | rfl <;> rfl
  have word : ∀ t, outWord i t =
      fadd (fmul (sampleIn t) t.derived.omix) (fmul (delayedAt t.sample t) t.p[1]) := by
    rcases kind with rfl | rfl <;> exact fun _ => rfl
  have omix : (derivedOf i s).omix = fsub fOne s.p[1] := by rcases kind with rfl | rfl <;> rfl
  obtain ⟨run, reads, recurrence, ends⟩ := exec_lineFrame frame line pass cap
  refine ⟨_, _, _, run, reads, recurrence, lineFrameEnds_congr (fun j hj => ?_) ends⟩
  rw [word, delayedAt_during frame line s c (capacityOf_pos cap) (hj.trans s.len.isLt), during_p frame,
    during_derived frame, omix]

/-- Settles O35. -/
theorem delayAndReverbRunTheRecurrence : Obligations.DelayAndReverbRunTheRecurrence := by
  intro s c len three
  refine ⟨fun cap => runsDelayRecurrence_of_pass (.inl rfl) ?_ cap,
    fun cap => runsDelayRecurrence_of_pass (.inr rfl) ?_ cap⟩ <;>
  exact firstFailure_eq_none rfl (fun _ => len) (threeFinite_all three) rfl cap rfl

/-- Settles O36. -/
theorem flangerModMixesTheLine : Obligations.FlangerModMixesTheLine := by
  intro s c len three cap m
  have pass : firstFailure .flangerMod s = none :=
    firstFailure_eq_none rfl (fun _ => len) (threeFinite_all three) rfl cap rfl
  obtain ⟨run, reads, recurrence, ends⟩ := exec_lineFrame (i := .flangerMod) rfl rfl pass cap
  refine ⟨_, _, _, run, reads, recurrence, lineFrameEnds_congr (fun j hj => ?_) ends⟩
  rw [outWord, delayedAt_during rfl rfl s c (capArg_pos cap) (hj.trans s.len.isLt), flangerMix,
    during_p rfl, during_sample rfl]

/-- Settles O37: the tap is a read of IN of its own, after the sample's. -/
theorem flangerManualMixesTheTap : Obligations.FlangerManualMixesTheTap := by
  intro s c len three cap m
  have pass : firstFailure .flangerManual s = none :=
    firstFailure_eq_none rfl (fun _ => len) (threeFinite_all three) rfl cap rfl
  obtain ⟨run, reads, recurrence, ends⟩ := exec_lineFrame (i := .flangerManual) rfl rfl pass cap
  refine ⟨_, _, fun j => tapIn (during .flangerManual s c j), _, run, reads, fun j hj => ?_, recurrence,
    lineFrameEnds_congr (fun j hj => ?_) ends⟩
  · have index : (during .flangerManual s c j).sample.toNat = j :=
      frameAt_sample_toNat rfl (launched_sample _ s c) (hj.trans s.len.isLt)
    have arg2 : (during .flangerManual s c j).arg2 = s.arg2 := during_arg2 rfl s c j
    dsimp only
    split <;> rename_i inside <;> rw [← index, ← arg2] at inside
    · have upto := (frameAt_draws (i := .flangerManual) rfl (launched .flangerManual s c) j).ge
      rw [← during, drawsAfter_tap_inside inside] at upto
      have tap := readIn_frameAt (i := .flangerManual) rfl (launched .flangerManual s c) _ hj
        ((readIn_inRam _ _).trans (frameAt_inRam rfl _ j)) (draws_le_readIn _ _) upto _ rfl
      rw [← during_eq .flangerManual s c j, ← tapIn_inside inside, index, arg2, launched_inRam, launched_draws] at tap
      cases word : Memory.loadWord .input s.inRam (j - s.arg2.toNat) <;> rw [word] at tap <;> exact tap
    · exact tapIn_outside inside
  · rw [outWord, flangerMix, during_p rfl, during_sample rfl]

end Sys2Proof.Proofs
end

section
/-! What any command does and leaves unchanged (30_encoding R75, R82, R85; 60_exceptions R123 to R127), and the eight
primitives (40_delay_line section 2, 41_oscillator section 2). -/

namespace Sys2Proof.Proofs

open Sys2Proof Sys2Proof.Machine Sys2Proof.Statements

/-! ### What the execution of a validated command leaves -/

/-- The state in which a validated command with capacity `c` completes. -/
def ran (i : Instr) (s : State) (c : Word) : State := execute i (planOf i s c) (started i s)

theorem ran_frame {i : Instr} (frame : isFrame i = true) (s : State) (c : Word) :
    ran i s c = frameAt i (launched i s c) s.len.toNat := by
  cases i <;> cases frame <;> rfl

/-- Every command ends by its first failing check or after its execution. -/
theorem exec_ends {i : Instr} {s t : State} (run : exec i s = .next t) :
    (∃ e, firstFailure i s = some e ∧ t = rejected e s) ∨
      (firstFailure i s = none ∧ ∃ c, capacityOf i s = .ok c ∧ t = complete none (ran i s c)) := by
  rcases exec_cases i s with ⟨e, fails, next⟩ | ⟨pass, c, cap, next⟩
  · cases run.symm.trans next; exact .inl ⟨e, fails, rfl⟩
  · cases run.symm.trans next; exact .inr ⟨pass, c, cap, rfl⟩

/-- Everything that no command writes while it runs. -/
def CommandKeeps (s t : State) : Prop :=
  t = { s with
    result := t.result, cap := t.cap, outRam := t.outRam, dlRam := t.dlRam, draws := t.draws
    sample := t.sample, derived := t.derived, nf := t.nf }

theorem launched_keeps (i : Instr) (s : State) (c : Word) : CommandKeeps s (launched i s c) := by
  unfold launched; split <;> rfl

theorem ran_keeps (i : Instr) (s : State) (c : Word) : CommandKeeps s (ran i s c) := by
  cases frame : isFrame i
  · cases i <;> cases frame <;> rfl
  · have keeps := frameAt_keeps frame (launched i s c) s.len.toNat
    have launch := launched_keeps i s c
    rw [ran_frame frame]
    unfold CommandKeeps FrameKeeps at *
    rw [keeps, launch]

@[simp] theorem started_result (i : Instr) (s : State) : (started i s).result = s.result := rfl
@[simp] theorem started_cap (i : Instr) (s : State) : (started i s).cap = s.cap := rfl
@[simp] theorem started_outRam (i : Instr) (s : State) : (started i s).outRam = s.outRam := rfl
@[simp] theorem started_dlRam (i : Instr) (s : State) : (started i s).dlRam = s.dlRam := rfl
@[simp] theorem started_draws (i : Instr) (s : State) : (started i s).draws = s.draws := rfl

theorem stepLine_eq (s : State) :
    stepLine s =
      setResultF32 (fadd (fmul s.val s.derived.omix) (fmul (delayedAt s.arg s) s.p[1]))
        (dlWrite s.arg (fadd s.val (fmul (delayedAt s.arg s) s.p[2])) s) := rfl

theorem ran_oscValue (s : State) (c : Word) :
    ran .oscValue s c = setResultF32 (osc s.arg s.p[0]) (started .oscValue s) := rfl

theorem ran_result {i : Instr} (h : writesResult i = false) (s : State) (c : Word) : (ran i s c).result = s.result := by
  cases frame : isFrame i
  · cases i <;> cases frame <;> cases h <;> simp [ran, execute]
  · rw [ran_frame frame, frameAt_keeps frame]
    unfold launched; split <;> rfl

theorem ran_cap (i : Instr) (s : State) (c : Word) : (ran i s c).cap = if creates i then c else s.cap := by
  cases frame : isFrame i
  · cases i
    case oscValue => rw [ran_oscValue, setResultF32_cap, started_cap]; rfl
    all_goals cases frame <;> simp [ran, execute, createAndReport, stepLine_eq, creates, planOf]
  · rw [ran_frame frame, frameAt_cap frame]
    unfold launched; split <;> rfl

theorem ran_dlRam {i : Instr} (h : writesLine i = false) (s : State) (c : Word) : (ran i s c).dlRam = s.dlRam := by
  cases frame : isFrame i
  · cases i
    case oscValue => rw [ran_oscValue, setResultF32_dlRam, started_dlRam]
    all_goals cases frame <;> cases h <;> simp [ran, execute]
  · have plain : creates i = false := by cases i <;> cases frame <;> cases h <;> rfl
    rw [ran_frame frame, frameAt_dlRam_plain frame plain, launched_plain plain, started_dlRam]

theorem ran_outRam_draws {i : Instr} (h : isFrame i = false) (s : State) (c : Word) :
    (ran i s c).outRam = s.outRam ∧ (ran i s c).draws = s.draws := by
  cases i
  case oscValue =>
    rw [ran_oscValue, setResultF32_outRam, setResultF32_draws]
    exact ⟨started_outRam _ s, started_draws _ s⟩
  all_goals cases h <;> simp [ran, execute, createAndReport, stepLine_eq]

theorem ran_loadByte_output (i : Instr) (s : State) (c : Word) {a : Nat} (ha : 4 * s.len.toNat ≤ a) :
    Memory.loadByte .output (ran i s c).outRam a = Memory.loadByte .output s.outRam a := by
  cases frame : isFrame i
  · rw [(ran_outRam_draws frame s c).1]
  · rw [ran_frame frame, frameAt_loadByte_output frame (launched_sample i s c) s.len.isLt.le ha, launched_outRam]

theorem complete_ran (i : Instr) (s : State) (c : Word) :
    complete none (ran i s c) = { s with
      result := (ran i s c).result, cap := (ran i s c).cap, outRam := (ran i s c).outRam, dlRam := (ran i s c).dlRam
      draws := (ran i s c).draws, status := finished s (ran i s c).nf
      sample := 0#32, derived := {}, nf := false, busyLeft := 0 } := by
  conv_lhs => rw [ran_keeps i s c]
  simp only [complete, completeStatus_none]
  rfl

/-! ### The statements about every command -/

/-- Settles O24: by the first failing check, where there is one. -/
theorem validationFollowsTheOrder : Obligations.ValidationFollowsTheOrder := by
  intro i s
  obtain ⟨t, run⟩ := exec_isNext i s
  refine ⟨t, run, ?_⟩
  rcases exec_ends run with ⟨e, fails, rfl⟩ | ⟨pass, c, -, rfl⟩
  · rw [fails]
  · rw [pass, complete_ran]
    exact ⟨rfl, rfl⟩

/-- Settles O25: a command that runs leaves ERR as it was. -/
theorem rejectionChangesOnlyStatus : Obligations.RejectionChangesOnlyStatus := by
  intro i s t clear run err
  rcases exec_ends run with ⟨e, -, rejection⟩ | ⟨-, c, -, rfl⟩
  · exact ⟨e, rejection⟩
  · rw [complete_ran] at err
    exact absurd (clear.symm.trans err) Bool.false_ne_true

theorem capClamp_ne_derived (depth : Word) (c : F32) : capClamp depth c ≠ .error .derivedNonfinite := by
  unfold capClamp
  split
  · simp
  · split
    · split <;> simp
    · dsimp only
      split
      · simp
      · split <;> simp

theorem capArg_ne_derived (depth a : Word) : capArg depth a ≠ .error .derivedNonfinite := by
  unfold capArg
  split
  · simp
  · split <;> simp

theorem capacityOf_ne_derived (i : Instr) (s : State) : capacityOf i s ≠ .error .derivedNonfinite := by
  cases i
  case dlCreate | flangerMod | flangerManual => exact capArg_ne_derived _ _
  case dlCreateMs | delay | dlCreateFrac | reverb => exact capClamp_ne_derived _ _
  all_goals exact nofun

theorem signFailure_ne_derived (i : Instr) (s : State) : signFailure i s ≠ some .derivedNonfinite := by
  cases i
  case waveshape | compress => simp only [signFailure]; split <;> simp
  all_goals exact nofun

theorem firstFailure_ne_derived {i : Instr} (h : i ≠ .wahwah) (s : State) :
    firstFailure i s ≠ some .derivedNonfinite := by
  have derived : derivedFailure i s = false := by
    cases i
    case wahwah => exact absurd rfl h
    all_goals rfl
  intro fails
  unfold firstFailure at fails
  split at fails
  · cases fails
  split at fails
  · cases fails
  split at fails
  · cases fails
  cases sign : signFailure i s with
  | some e => rw [sign] at fails; exact signFailure_ne_derived i s (sign.trans fails)
  | none =>
    cases cap : capacityOf i s with
    | error e =>
      simp only [sign, cap, Option.some.injEq] at fails
      exact capacityOf_ne_derived i s (by rw [cap, fails])
    | ok c => simp only [sign, cap, derived, Bool.false_eq_true, if_false, reduceCtorEq] at fails

theorem codeOf_eq_derived {e : Reject} (h : codeOf e = 0x08#8) : e = .derivedNonfinite := by
  revert h
  cases e <;> decide

/-- Settles O26: of the checks that other commands make, none has that code. -/
theorem onlyWahwahFailsDerived : Obligations.OnlyWahwahFailsDerived := by
  intro i s t other before run
  rcases exec_ends run with ⟨e, fails, rfl⟩ | ⟨-, c, -, rfl⟩
  · intro code
    rw [codeOf_eq_derived code] at fails
    exact firstFailure_ne_derived other s fails
  · rw [complete_ran]
    exact before

/-- Settles O27: a rejection writes STATUS alone, and an execution only what `ran` is shown to write. -/
theorem commandsWriteOnlyTheirColumn : Obligations.CommandsWriteOnlyTheirColumn := by
  intro i s t run
  rcases exec_ends run with ⟨e, -, rfl⟩ | ⟨-, c, -, rfl⟩
  · exact ⟨rfl, rfl, rfl, fun _ => rfl, fun _ => rfl, fun _ => rfl, fun _ => ⟨rfl, rfl⟩, fun _ _ => rfl⟩
  · rw [complete_ran]
    refine ⟨rfl, rfl, rfl, fun h => ran_result h s c, fun h => ?_, fun h => ran_dlRam h s c,
      fun h => ran_outRam_draws h s c, fun _ ha => ran_loadByte_output i s c ha⟩
    rw [ran_cap, h]
    rfl

/-! ### The primitives -/

/-- A command that is validated runs and completes. -/
theorem exec_eq_ran {i : Instr} {s : State} {c : Word} (pass : firstFailure i s = none)
    (cap : capacityOf i s = .ok c) : exec i s = .next (complete none (ran i s c)) := exec_of_capacity pass cap

theorem createsLine_of_pass {i : Instr} {s : State} {c : Word}
    (kind : i = .dlCreate ∨ i = .dlCreateMs ∨ i = .dlCreateFrac)
    (pass : firstFailure i s = none) (cap : capacityOf i s = .ok c) : CreatesLine i s c := by
  have created : ran i s c = createAndReport (planOf i s c) (started i s) := by
    rcases kind with rfl | rfl | rfl <;> rfl
  refine ⟨_, exec_eq_ran pass cap, ?_, fun k hk => ?_, fun a ha => ?_⟩
  · rw [complete_ran, created]
    rfl
  · rw [complete_dlRam, created, createAndReport, setResultU32_dlRam, createLine_dlRam, planOf, Memory.loadWord_zeroWords,
      if_pos hk, if_neg (Nat.not_lt_zero k)]
    rfl
  · rw [complete_dlRam, created, createAndReport, setResultU32_dlRam, createLine_dlRam,
      Memory.loadByte_zeroWords, if_neg (show ¬a < 4 * (planOf i s c).cap.toNat from not_lt.mpr ha)]
    rfl

/-- Settles O30. -/
theorem createCommandsCreateTheLine : Obligations.CreateCommandsCreateTheLine := by
  intro s c
  refine ⟨fun cap => createsLine_of_pass (.inl rfl) ?_ cap,
    fun p0 cap => createsLine_of_pass (.inr (.inl rfl)) ?_ cap,
    fun p0 cap => createsLine_of_pass (.inr (.inr rfl)) ?_ cap⟩
  · exact firstFailure_eq_none rfl nofun rfl rfl cap rfl
  · exact firstFailure_eq_none rfl nofun (by simp [validated, p0]) rfl cap rfl
  · exact firstFailure_eq_none rfl nofun (by simp [validated, p0]) rfl cap rfl

/-- Settles O31. -/
theorem dlReadReadsTheLine : Obligations.DlReadReadsTheLine := by
  intro s v word
  have read : dlRead s.arg (started .dlRead s) = v := dlRead_eq _ _ _ word
  rw [exec_eq_ran (i := .dlRead) (c := 1#32) rfl rfl, complete_ran]
  simp only [ran, execute]
  rw [show (started .dlRead s).arg = s.arg from rfl, read]
  rfl

/-- Settles O32. -/
theorem dlWriteWritesTheLine : Obligations.DlWriteWritesTheLine := by
  intro s
  have written : ran .dlWrite s 1#32 = dlWrite s.arg s.val (started .dlWrite s) := rfl
  refine ⟨_, exec_eq_ran (i := .dlWrite) (c := 1#32) rfl rfl, ?_, ?_, fun a ha => ?_⟩
  · rw [complete_ran, written]
    rfl
  · rw [complete_dlRam, written]
    exact loadWord_dlWrite_same s.arg s.val (started .dlWrite s)
  · rw [complete_dlRam, written]
    exact loadByte_dlWrite_outside s.arg s.val (started .dlWrite s) ha

/-- Settles O33: the line is read once, before the write. -/
theorem dlStepRunsOneIndex : Obligations.DlStepRunsOneIndex := by
  intro s old p1 p2 word delayed y w
  have pass : firstFailure .dlStep s = none :=
    firstFailure_eq_none rfl nofun (by simp [validated, p1, p2]) rfl (c := 1#32) rfl rfl
  have found : delayedAt s.arg (started .dlStep s) = delayed := by
    rw [delayedAt, dlRead_eq s.arg (started .dlStep s) old word]
    rfl
  have stepped : ran .dlStep s 1#32 = setResultF32 y (dlWrite s.arg w (started .dlStep s)) := by
    change stepLine (started .dlStep s) = _
    simp only [stepLine, delayBody_eq]
    rw [show (started .dlStep s).arg = s.arg from rfl, found]
    rfl
  refine ⟨_, exec_eq_ran pass rfl, ?_, ?_, fun a ha => ?_⟩
  · rw [complete_ran, stepped, setResultF32_nf, dlWrite_nf, Bool.or_right_comm]
    rfl
  · rw [complete_dlRam, stepped, setResultF32_dlRam]
    exact loadWord_dlWrite_same s.arg w (started .dlStep s)
  · rw [complete_dlRam, stepped, setResultF32_dlRam]
    exact loadByte_dlWrite_outside s.arg w (started .dlStep s) ha

/-- Settles O34. -/
theorem oscValueComputesTheOscillator : Obligations.OscValueComputesTheOscillator := by
  intro s p0 v
  have pass : firstFailure .oscValue s = none :=
    firstFailure_eq_none rfl nofun (by simp [validated, p0]) rfl (c := 1#32) rfl rfl
  have value : osc s.arg s.p[0] = v := fsin_eq _
  have result : ran .oscValue s 1#32 = setResultF32 v (started .oscValue s) := by rw [← value]; rfl
  rw [exec_eq_ran pass rfl, complete_ran, result]
  rfl

end Sys2Proof.Proofs
end

section
/-! Two runs side by side: a delay-line frame command on two old lines (10_state R49, 70_reset_and_hazards R146), and a
frame of DELAY beside a stream of DL_STEP (40_delay_line R99). -/

namespace Sys2Proof.Proofs

open Sys2Proof Sys2Proof.Machine Sys2Proof.Statements

/-! ### Two lines that agree below their capacity (R49, R146) -/

/-- `v` differs from `u` in DL words from CAP on alone. -/
def SameBelowCap (u v : State) : Prop :=
  v = { u with dlRam := v.dlRam } ∧
    ∀ k, k < u.cap.toNat → Memory.loadWord .line v.dlRam k = Memory.loadWord .line u.dlRam k

theorem sampleIn_withLine (u : State) (m : List Host.Cell) : sampleIn { u with dlRam := m } = sampleIn u := by
  unfold sampleIn readIn drawWord
  dsimp only
  split <;> rfl

theorem readIn_withLine (k : Nat) (u : State) (m : List Host.Cell) :
    readIn k { u with dlRam := m } = ((readIn k u).1, { (readIn k u).2 with dlRam := m }) := by
  unfold readIn drawWord
  dsimp only
  split <;> rfl

theorem readTap_withLine (i d : Word) (u : State) (m : List Host.Cell) :
    readTap i d { u with dlRam := m } = ((readTap i d u).1, { (readTap i d u).2 with dlRam := m }) := by
  by_cases h : d.toNat ≤ i.toNat
  · rw [readTap_inside _ h, readTap_inside _ h, readIn_withLine]
  · rw [readTap_outside _ h, readTap_outside _ h]

theorem tapIn_withLine (u : State) (m : List Host.Cell) : tapIn { u with dlRam := m } = tapIn u := by
  simp only [tapIn, readIn_withLine, readTap_withLine]

theorem drawsAfter_withLine (i : Instr) (u : State) (m : List Host.Cell) :
    drawsAfter i { u with dlRam := m } = drawsAfter i u := by
  cases i <;> simp only [drawsAfter, readIn_withLine, readTap_withLine]

theorem delayedAt_congr {u v : State} (same : SameBelowCap u v) (positive : 0 < u.cap.toNat) (i : Word) :
    delayedAt i v = delayedAt i u := by
  obtain ⟨state, words⟩ := same
  have cap : v.cap = u.cap := by rw [state]
  rw [delayedAt, delayedAt, dlRead, dlRead, dlIndex, dlIndex, cap, words _ (Nat.mod_lt _ positive)]

theorem outWord_congr {u v : State} (same : SameBelowCap u v) (positive : 0 < u.cap.toNat) (i : Instr) :
    outWord i v = outWord i u := by
  have delayed := delayedAt_congr same positive u.sample
  rw [same.1] at delayed ⊢
  cases i <;> simp only [outWord, sampleIn_withLine, tapIn_withLine, delayed, flangerMix]

theorem lineWord_congr {u v : State} (same : SameBelowCap u v) (positive : 0 < u.cap.toNat) :
    lineWord v = lineWord u := by
  have delayed := delayedAt_congr same positive u.sample
  rw [same.1] at delayed ⊢
  simp only [lineWord, sampleIn_withLine, delayed]

theorem storeWord_line_congr {m m' : List Host.Cell} {n : Nat}
    (h : ∀ k, k < n → Memory.loadWord .line m' k = Memory.loadWord .line m k) (j : Nat) (v : Word) :
    ∀ k, k < n →
      Memory.loadWord .line (Memory.storeWord .line m' j v) k =
        Memory.loadWord .line (Memory.storeWord .line m j v) k := by
  intro k hk
  rw [Memory.loadWord_storeWord, Memory.loadWord_storeWord, h k hk]

/-- One body keeps two such states alike. -/
theorem bodyOf_sameBelowCap {i : Instr} (frame : isFrame i = true) (line : creates i = true) {u v : State}
    (same : SameBelowCap u v) (positive : 0 < u.cap.toNat) : SameBelowCap (bodyOf i u) (bodyOf i v) := by
  have out := outWord_congr same positive i
  have word := lineWord_congr same positive
  obtain ⟨state, words⟩ := same
  have draws : drawsAfter i v = drawsAfter i u := by rw [state, drawsAfter_withLine]
  rw [bodyOf_line frame line, bodyOf_line frame line, out, word, draws]
  generalize v.dlRam = m at state words
  subst state
  exact ⟨rfl, storeWord_line_congr words _ _⟩

theorem frameAt_sameBelowCap {i : Instr} (frame : isFrame i = true) (line : creates i = true) {u v : State}
    (same : SameBelowCap u v) (positive : 0 < u.cap.toNat) (n : Nat) :
    SameBelowCap (frameAt i u n) (frameAt i v n) := by
  induction n with
  | zero => exact same
  | succ n ih =>
    obtain ⟨state, words⟩ := bodyOf_sameBelowCap frame line ih (by rw [frameAt_cap frame]; exact positive)
    rw [frameAt_succ, frameAt_succ]
    refine ⟨?_, words⟩
    rw [state]

theorem launched_sameBelowCap {i : Instr} (line : creates i = true) (s : State) (c cap' : Word) (dl' : List Host.Cell)
    (derived : derivedOf i { s with cap := cap', dlRam := dl' } = derivedOf i s) :
    SameBelowCap (launched i s c) (launched i { s with cap := cap', dlRam := dl' } c) := by
  rw [launched_line line, launched_line line, started, started, derived]
  refine ⟨rfl, fun k hk => ?_⟩
  rw [createLine_cap] at hk
  rw [createLine_dlRam, createLine_dlRam, Memory.loadWord_zeroWords, Memory.loadWord_zeroWords, if_pos hk, if_pos hk]

/-- Settles O46: the two frames start alike below the new capacity, and every body keeps them so. -/
theorem frameCommandsForgetTheOldLine : Obligations.FrameCommandsForgetTheOldLine := by
  intro i s t cap' dl' kind clear run err
  have facts : isFrame i = true ∧ creates i = true ∧
      firstFailure i { s with cap := cap', dlRam := dl' } = firstFailure i s ∧
      capacityOf i { s with cap := cap', dlRam := dl' } = capacityOf i s ∧
      derivedOf i { s with cap := cap', dlRam := dl' } = derivedOf i s := by
    simp only [List.mem_cons, List.not_mem_nil, or_false] at kind
    rcases kind with rfl | rfl | rfl | rfl <;> exact ⟨rfl, rfl, rfl, rfl, rfl⟩
  obtain ⟨frame, line, failure, capacity, derived⟩ := facts
  rcases exec_ends run with ⟨e, -, rfl⟩ | ⟨pass, c, cap, rfl⟩
  · exact absurd err (by simp [rejected])
  · have start := launched_sameBelowCap line s c cap' dl' derived
    have positive : 0 < (launched i s c).cap.toNat := by
      rw [launched_cap line]; exact capacityOf_pos cap
    obtain ⟨state, words⟩ := frameAt_sameBelowCap frame line start positive s.len.toNat
    refine ⟨_, exec_eq_ran (failure.trans pass) (capacity.trans cap), ?_, ?_⟩
    · rw [ran_frame frame, ran_frame frame]
      conv_lhs => rw [show frameAt i (launched i { s with cap := cap', dlRam := dl' } c) s.len.toNat = _ from state]
      rfl
    · intro k hk
      rw [ran_frame frame] at hk ⊢
      rw [ran_frame frame]
      exact words k hk

/-! ### Streaming (R99) -/

/-- What one DL_STEP of a stream leaves. -/
theorem streamStep_eq {s : State} (p1 : isFinite s.p[1] = true) (p2 : isFinite s.p[2] = true) (i : Nat) (v : F32) :
    let y := fadd (fmul v (fsub fOne s.p[1])) (fmul (delayedAt (BitVec.ofNat 32 i) s) s.p[1])
    let w := fadd v (fmul (delayedAt (BitVec.ofNat 32 i) s) s.p[2])
    streamStep i v s = { s with
      arg := BitVec.ofNat 32 i, val := v, result := y
      dlRam := Memory.storeWord .line s.dlRam (dlIndex (BitVec.ofNat 32 i) s) w
      status := finished s (!isFinite w || !isFinite y)
      sample := 0#32, derived := {}, nf := false, busyLeft := 0 } := by
  intro y w
  have pass : firstFailure .dlStep { s with arg := BitVec.ofNat 32 i, val := v } = none :=
    firstFailure_eq_none rfl nofun (by simp [validated, p1, p2]) rfl (c := 1#32) rfl rfl
  rw [streamStep, exec_eq_ran pass rfl]
  dsimp only
  rw [complete_ran, ran, execute, stepLine_eq]
  rfl

theorem delayedAt_of_line_eq {u v : State} (dlRam : u.dlRam = v.dlRam) (cap : u.cap = v.cap) (i : Word) :
    delayedAt i u = delayedAt i v := by
  simp only [delayedAt, dlRead, dlIndex, dlRam, cap]

theorem sampleIn_of_written {t : State} {v : F32} (h : Memory.loadWord .input t.inRam t.sample.toNat = some v) :
    sampleIn t = v := by
  rw [sampleIn, readIn_of_written _ _ _ h]

/-- A stream `u` beside the frame `f` of a DELAY that starts in `s`: one line, one set of parameters, and NONFINITE by
the same values. -/
def StreamBeside (s u f : State) : Prop :=
  u.dlRam = f.dlRam ∧ u.cap = f.cap ∧ u.p = s.p ∧ u.status.nonfinite = (s.status.nonfinite || f.nf)

section
variable {s u : State} {c : Word} {x : Nat → F32}

/-- The two words of an index, in the stream and in the frame. -/
theorem words_of_streamBeside {n : Nat} (hn : n < s.len.toNat)
    (written : ∀ i, i < s.len.toNat → Memory.loadWord .input s.inRam i = some (x i))
    (beside : StreamBeside s u (during .delay s c n)) :
    outWord .delay (during .delay s c n) =
        fadd (fmul (x n) (fsub fOne u.p[1])) (fmul (delayedAt (BitVec.ofNat 32 n) u) u.p[1]) ∧
      lineWord (during .delay s c n) = fadd (x n) (fmul (delayedAt (BitVec.ofNat 32 n) u) u.p[2]) := by
  obtain ⟨dlRam, cap, p, -⟩ := beside
  have sample : sampleIn (during .delay s c n) = x n := sampleIn_of_written (by
    rw [during_eq, frameAt_sample_toNat rfl (launched_sample .delay s c) (hn.trans s.len.isLt), frameAt_inRam rfl,
      launched_inRam, written n hn])
  rw [outWord, lineWord, sample, during_sample rfl, during_p rfl, during_derived rfl,
    delayedAt_of_line_eq dlRam cap, p]
  exact ⟨rfl, rfl⟩

theorem streamBeside_succ {n : Nat} (hn : n < s.len.toNat) (p1 : isFinite s.p[1] = true) (p2 : isFinite s.p[2] = true)
    (written : ∀ i, i < s.len.toNat → Memory.loadWord .input s.inRam i = some (x i))
    (beside : StreamBeside s u (during .delay s c n)) :
    StreamBeside s (streamStep n (x n) u) (during .delay s c (n + 1)) ∧
      (streamStep n (x n) u).result = outWord .delay (during .delay s c n) := by
  obtain ⟨out, line⟩ := words_of_streamBeside hn written beside
  obtain ⟨dlRam, cap, p, nonfinite⟩ := beside
  have next : during .delay s c (n + 1) =
      { bodyOf .delay (during .delay s c n) with sample := (bodyOf .delay (during .delay s c n)).sample + 1#32 } := rfl
  rw [streamStep_eq (by rw [p]; exact p1) (by rw [p]; exact p2), next, bodyOf_line rfl rfl, out, line]
  refine ⟨⟨?_, cap, p, ?_⟩, rfl⟩
  · rw [dlWrite_dlRam, during_sample rfl, dlRam, dlIndex, dlIndex, cap]
    rfl
  · rw [dlWrite_nf, writeOut_nf, ← Bool.or_assoc, ← Bool.or_assoc, ← nonfinite, Bool.or_right_comm, Bool.or_assoc]
    rfl

end

/-- Settles O45: the stream stays beside the frame, index by index. -/
theorem streamingEqualsDelay : Obligations.StreamingEqualsDelay := by
  intro s c x len three cap written
  obtain ⟨p0, p1, p2⟩ := three
  have delay : firstFailure .delay s = none :=
    firstFailure_eq_none rfl (fun _ => len) (threeFinite_all ⟨p0, p1, p2⟩) rfl cap rfl
  have create : firstFailure .dlCreateMs s = none :=
    firstFailure_eq_none rfl nofun (by simp [validated, p0]) rfl cap rfl
  let s0 := complete none (ran .dlCreateMs s c)
  have beside : ∀ n, n ≤ s.len.toNat → StreamBeside s (streamSteps x n s0) (during .delay s c n) := by
    intro n
    induction n with
    | zero => exact fun _ => ⟨rfl, rfl, rfl, rfl⟩
    | succ n ih => exact fun hn => (streamBeside_succ hn p1 p2 written (ih (by omega))).1
  obtain ⟨dlRam, lineCap, -, nonfinite⟩ := beside s.len.toNat le_rfl
  refine ⟨frameEnd .delay s c, s0, exec_eq_frameEnd rfl delay cap, exec_eq_ran create cap, fun i hi => ?_,
    dlRam, lineCap, ?_⟩
  · rw [(outHolds_frameEnd (i := .delay) rfl s c).1 i hi]
    exact congrArg some (streamBeside_succ hi p1 p2 written (beside i hi.le)).2.symm
  · rw [nonfinite, frameEnd, complete_status, completeStatus_none, frameAt_keeps (i := .delay) rfl]
    rfl

end Sys2Proof.Proofs
end

section
/-! The memories as data (20_memory R58, 40_delay_line R89): byte lanes, the canonical form, and `create` as a loop of
writes. -/

namespace Sys2Proof.Proofs

open Sys2Proof Sys2Proof.Machine

/-! ### Byte lanes (R58) -/

/-- Settles O57: each lane is the byte the word store puts at its address. -/
theorem byteLanesAreLittleEndian : Obligations.ByteLanesAreLittleEndian := by
  intro r m k v
  refine ⟨?_, ?_, ?_, ?_, Memory.loadWord_storeWord_same r m k v⟩ <;> rw [Memory.loadByte_storeWord]
  · rw [if_neg (by omega), if_neg (by omega), if_neg (by omega), if_pos rfl]
    rfl
  · rw [if_neg (by omega), if_neg (by omega), if_pos rfl]
    rfl
  · rw [if_neg (by omega), if_pos rfl]
    rfl
  · rw [if_pos rfl]
    rfl

/-! ### The canonical form -/

theorem find_mem {m : List Host.Cell} {a : Nat} {b : Byte} (h : Memory.find m a = some b) : (a, b) ∈ m := by
  induction m with
  | nil => cases h
  | cons c m ih =>
    rw [Memory.find] at h
    split at h
    · rename_i here
      cases h
      rw [← here]
      exact List.mem_cons_self
    · exact List.mem_cons_of_mem _ (ih h)

theorem find_eq_none_of_below {m : List Host.Cell} {a : Nat} (h : ∀ c ∈ m, a < c.1) : Memory.find m a = none := by
  cases found : Memory.find m a with
  | none => rfl
  | some b => exact absurd (h _ (find_mem found)) (lt_irrefl a)

/-- Sorted lists in which every address is found alike are equal. -/
theorem eq_of_find_eq {m m' : List Host.Cell} (sorted : m.Pairwise (fun a b => a.1 < b.1))
    (sorted' : m'.Pairwise (fun a b => a.1 < b.1)) (h : ∀ a, Memory.find m a = Memory.find m' a) : m = m' := by
  induction m generalizing m' with
  | nil =>
    cases m' with
    | nil => rfl
    | cons d m' => simpa [Memory.find] using h d.1
  | cons c m ih =>
    obtain ⟨head, tail⟩ := List.pairwise_cons.mp sorted
    cases m' with
    | nil => simpa [Memory.find] using h c.1
    | cons d m' =>
      obtain ⟨head', tail'⟩ := List.pairwise_cons.mp sorted'
      have first : c.1 = d.1 := by
        rcases lt_trichotomy c.1 d.1 with below | same | above
        · have absent := find_eq_none_of_below (m := d :: m') (a := c.1)
            (List.forall_mem_cons.mpr ⟨below, fun e he => below.trans (head' e he)⟩)
          rw [← h c.1] at absent
          simp [Memory.find] at absent
        · exact same
        · have absent := find_eq_none_of_below (m := c :: m) (a := d.1)
            (List.forall_mem_cons.mpr ⟨above, fun e he => above.trans (head e he)⟩)
          rw [h d.1] at absent
          simp [Memory.find] at absent
      have byte : c.2 = d.2 := by simpa [Memory.find, first] using h c.1
      have rest : m = m' := ih tail tail' fun a => by
        by_cases here : c.1 = a
        · rw [find_eq_none_of_below fun e he => here ▸ head e he,
            find_eq_none_of_below fun e he => here ▸ first ▸ head' e he]
        · simpa [Memory.find, here, first ▸ here] using h a
      rw [rest, Prod.ext first byte]

/-- In canonical form the list shows exactly the bytes that differ from what an unlisted one reads as. -/
theorem find_eq_of_loadByte_eq {r : Ram} {m m' : List Host.Cell} (wf : Memory.wf r m) (wf' : Memory.wf r m') {a : Nat}
    (h : Memory.loadByte r m a = Memory.loadByte r m' a) : Memory.find m a = Memory.find m' a := by
  unfold Memory.loadByte at h
  cases found : Memory.find m a with
  | none =>
    cases found' : Memory.find m' a with
    | none => rfl
    | some b' => simp only [found, found'] at h; exact absurd h (wf'.2 _ (find_mem found'))
  | some b =>
    cases found' : Memory.find m' a with
    | none => simp only [found, found'] at h; exact absurd h.symm (wf.2 _ (find_mem found))
    | some b' => simpa only [found, found'] using h

/-- Settles O13. -/
theorem equalReadsMeanEqualMemories : Obligations.EqualReadsMeanEqualMemories := by
  intro r m m' wf wf' h
  exact eq_of_find_eq wf.1 wf'.1 fun a => find_eq_of_loadByte_eq wf wf' (h a)

/-! ### `create` as a loop (R89) -/

/-- Words 0 to `n - 1` written with +0.0, one after another. -/
def zeroLoop (m : List Host.Cell) (n : Nat) : List Host.Cell :=
  (List.range n).foldl (fun m k => Memory.storeWord .line m k fZero) m

theorem zeroLoop_succ (m : List Host.Cell) (n : Nat) :
    zeroLoop m (n + 1) = Memory.storeWord .line (zeroLoop m n) n fZero := by
  simp only [zeroLoop, List.range_succ, List.foldl_append, List.foldl_cons, List.foldl_nil]

theorem wf_zeroLoop {m : List Host.Cell} (wf : Memory.wf .line m) (n : Nat) : Memory.wf .line (zeroLoop m n) := by
  induction n with
  | zero => exact wf
  | succ n ih => rw [zeroLoop_succ]; exact Memory.wf_storeWord _ _ _ _ ih

theorem byteLane_fZero (n : Nat) : byteLane fZero n = 0#8 := by
  apply BitVec.eq_of_toNat_eq
  simp [byteLane, fZero]

theorem loadByte_zeroLoop (m : List Host.Cell) (n a : Nat) :
    Memory.loadByte .line (zeroLoop m n) a = if a < 4 * n then some 0#8 else Memory.loadByte .line m a := by
  induction n with
  | zero => rfl
  | succ n ih =>
    rw [zeroLoop_succ]
    by_cases inside : 4 * n ≤ a ∧ a < 4 * n + 4
    · rw [Memory.loadByte_storeWord, if_pos (by omega : a < 4 * (n + 1))]
      simp only [byteLane_fZero]
      obtain e | e | e | e : a = 4 * n ∨ a = 4 * n + 1 ∨ a = 4 * n + 2 ∨ a = 4 * n + 3 := by omega
      all_goals simp [e]
    · rw [loadByte_storeWord_outside _ _ _ (by omega), ih]
      exact if_congr (by omega) rfl rfl

/-- Settles O14: both memories are canonical and read alike. -/
theorem createIsTheLoopOfZeroWrites : Obligations.CreateIsTheLoopOfZeroWrites := by
  intro s c wf
  have same : Memory.zeroWords s.dlRam c.toNat = zeroLoop s.dlRam c.toNat :=
    equalReadsMeanEqualMemories .line _ _ (Memory.wf_zeroWords _ _ wf) (wf_zeroLoop wf _) fun a => by
      rw [Memory.loadByte_zeroWords, loadByte_zeroLoop]
  rw [createLine, same, zeroLoop]

end Sys2Proof.Proofs
end

section
/-! The host's side (10_state section 3, 20_memory R53 to R61): STATUS and IRQEN as words, every bus access by what it
names, and what an access changes. -/

namespace Sys2Proof.Proofs

open Sys2Proof Sys2Proof.Machine Sys2Proof.Statements

/-! ### STATUS and IRQEN as words (R32, R33) -/

theorem toNat_statusWord (st : Status) :
    (statusWord st).toNat =
      st.busy.toNat + 2 * st.done.toNat + 4 * st.err.toNat + 8 * st.nonfinite.toNat + 256 * st.errcode.toNat := by
  have codeLt := st.errcode.isLt
  have busyLt := st.busy.toNat_lt
  have doneLt := st.done.toNat_lt
  have errLt := st.err.toNat_lt
  have nonfiniteLt := st.nonfinite.toNat_lt
  simp only [statusWord, BitVec.toNat_append, BitVec.toNat_ofBool, BitVec.toNat_ofNat, Nat.shiftLeft_eq]
  simp only [Nat.mul_comm _ (2 ^ _)]
  repeat rw [← Nat.two_pow_add_eq_or_of_lt (by omega)]
  omega

theorem toNat_irqenWord (e : IrqEnable) :
    (irqenWord e).toNat = e.doneIe.toNat + 2 * e.errIe.toNat + 4 * e.nfIe.toNat := by
  obtain ⟨doneIe, errIe, nfIe⟩ := e
  cases doneIe <;> cases errIe <;> cases nfIe <;> rfl

/-- Settles O59: the flags are the low bits, the code the second byte, and the rest of the number is 0. -/
theorem statusWordLayout : Obligations.StatusWordLayout := by
  intro st
  have word := toNat_statusWord st
  have busyLt := st.busy.toNat_lt
  have doneLt := st.done.toNat_lt
  have errLt := st.err.toNat_lt
  have nonfiniteLt := st.nonfinite.toNat_lt
  have codeLt := st.errcode.isLt
  refine ⟨?_, statusWord_getLsbD_done st, statusWord_getLsbD_err st, statusWord_getLsbD_nonfinite st, ?_, ?_, ?_⟩
  · have bit := getLsbD_toNat (statusWord st) 0
    have boolEq : ∀ a b : Bool, a.toNat = b.toNat → a = b := by decide
    exact boolEq _ _ (by omega)
  all_goals
    apply BitVec.eq_of_toNat_eq
    simp only [BitVec.extractLsb'_toNat, Nat.shiftRight_eq_div_pow, word, BitVec.toNat_ofNat]
    omega

/-- The host reads at each register what its row of the table says. -/
theorem readReg_eq_hostReads (r : Reg) (s : State) : readReg r s = hostReads s r := by
  cases r
  case status =>
    apply BitVec.eq_of_toNat_eq
    have word := toNat_statusWord s.status
    have bound := (statusWord s.status).isLt
    rw [readReg, hostReads, BitVec.toNat_ofNat, ← word, Nat.mod_eq_of_lt bound]
  case irqen =>
    apply BitVec.eq_of_toNat_eq
    have word := toNat_irqenWord s.irqen
    have bound := (irqenWord s.irqen).isLt
    rw [readReg, hostReads, BitVec.toNat_ofNat, ← word, Nat.mod_eq_of_lt bound]
  all_goals rfl

/-! ### Bus reads by what they name -/

theorem busRead_register (r : Reg) (s : State) :
    busRead (at24 (regOffset r)) .word s =
      if s.status.busy && !busyReadable r then (.error, s) else (.data (readReg r s), s) := by
  rw [busRead, if_pos (wholeWord_regOffset r), targetAt_regOffset]

/-- Settles O53. -/
theorem registersReadAtTheirOffsets : Obligations.RegistersReadAtTheirOffsets := by
  intro r s idle
  rw [busRead_register, idle, readReg_eq_hostReads]
  rfl

/-- An aligned address that names a register is that register's offset. -/
theorem addr_eq_of_targetAt {nMax : Word} {addr : BitVec 24} {r : Reg} (aligned : addr.toNat % 4 = 0)
    (h : targetAt nMax addr = .reg r) : addr = at24 (regOffset r) := by
  have low : addr.toNat < 0x400000 := by
    by_contra high
    unfold targetAt at h
    simp only [high, if_false] at h
    split at h
    · split at h <;> cases h
    · split at h
      · split at h <;> cases h
      · cases h
  rw [targetAt_registers nMax low] at h
  cases found : regAt (addr.toNat / 4) with
  | none => rw [found] at h; cases h
  | some r' =>
    rw [found] at h
    cases h
    apply BitVec.eq_of_toNat_eq
    rw [toNat_at24_regOffset, regAt_eq_some_iff.mp found]
    omega

theorem word_lt_nMax_of_targetAt {nMax : Word} {addr : BitVec 24} {k : Nat}
    (h : targetAt nMax addr = .input k) : k < nMax.toNat := by
  unfold targetAt at h
  dsimp only at h
  split at h
  · split at h <;> cases h
  · split at h
    · split at h
      · cases h; assumption
      · cases h
    · split at h
      · split at h <;> cases h
      · cases h

/-- A read answers ERROR and changes nothing, or answers data and changes only the count of draws (R53, R60). -/
theorem busRead_cases (addr : BitVec 24) (size : AccessSize) (s : State) :
    busRead addr size s = (.error, s) ∨ ∃ v d, busRead addr size s = (.data v, { s with draws := d }) := by
  unfold busRead
  split
  · split
    · split
      · exact .inl rfl
      · exact .inr ⟨_, s.draws, rfl⟩
    · rename_i k _
      split
      · exact .inl rfl
      · obtain ⟨d, read⟩ := readIn_state k s
        exact .inr ⟨_, d, Prod.ext rfl read⟩
    · rename_i k _
      split
      · exact .inl rfl
      · obtain ⟨d, read⟩ := readOut_state k s
        exact .inr ⟨_, d, Prod.ext rfl read⟩
    · exact .inl rfl
  · exact .inl rfl

/-- A write answers ERROR and changes nothing, or reaches a register or a word of IN while no command runs (R53 to
R57). -/
theorem busWrite_cases (addr : BitVec 24) (size : AccessSize) (v : Word) (s : State) :
    busWrite addr size v s = (.error, s) ∨
      (s.status.busy = false ∧ size = .word ∧
        ((∃ r t, addr = at24 (regOffset r) ∧ writeReg r v s = some t ∧ busWrite addr size v s = (.okay, t)) ∨
          ∃ k, k < s.nMax.toNat ∧
            busWrite addr size v s = (.okay, { s with inRam := Memory.storeWord .input s.inRam k v }))) := by
  by_cases served : (wholeWord addr size && !s.status.busy) = true
  · obtain ⟨whole, idle⟩ := Bool.and_eq_true_iff.mp served
    obtain ⟨rfl, aligned⟩ := (wholeWord_iff addr size).mp whole
    rw [Bool.not_eq_true'] at idle
    cases target : targetAt s.nMax addr with
    | reg r =>
      have here := addr_eq_of_targetAt aligned target
      cases write : writeReg r v s with
      | none => exact .inl (here ▸ busWrite_readOnly write)
      | some t => exact .inr ⟨idle, rfl, .inl ⟨r, t, here, write, here ▸ busWrite_register idle write⟩⟩
    | input k =>
      refine .inr ⟨idle, rfl, .inr ⟨k, word_lt_nMax_of_targetAt target, ?_⟩⟩
      rw [busWrite, if_pos served, target]
    | output k => exact .inl (busWrite_output .word v target)
    | reserved => exact .inl (busWrite_reserved .word v target)
  · left
    rw [busWrite, if_neg served]

/-- Settles O51. -/
theorem errorAndReadChangeNothing : Obligations.ErrorAndReadChangeNothing := by
  intro addr size v s
  refine ⟨fun error => ?_, fun error => ?_, ?_⟩
  · rcases busRead_cases addr size s with read | ⟨w, d, read⟩
    · rw [read]
    · rw [read] at error; cases error
  · rcases busWrite_cases addr size v s with write | ⟨-, -, ⟨r, t, -, -, write⟩ | ⟨k, -, write⟩⟩
    · rw [write]
    · rw [write] at error; cases error
    · rw [write] at error; cases error
  · rcases busRead_cases addr size s with read | ⟨w, d, read⟩ <;> rw [read]

/-! ### Register writes (R60) -/

theorem readReg_irqenOf (v : Word) : irqenWord (irqenOf v) = v &&& 7#32 := by
  apply BitVec.eq_of_toNat_eq
  have b0 := getLsbD_toNat v 0
  have b1 := getLsbD_toNat v 1
  have b2 := getLsbD_toNat v 2
  have mask : v.toNat &&& 7 = v.toNat % 8 := Nat.and_two_pow_sub_one_eq_mod v.toNat 3
  rw [toNat_irqenWord, irqenOf, BitVec.toNat_and, BitVec.toNat_ofNat, b0, b1, b2, show 7 % 2 ^ 32 = 7 from rfl, mask]
  omega

/-- What a write to a register that only stores leaves in each register. -/
theorem writeReg_storesOnly {r : Reg} (stores : storesOnly r = true) (v : Word) (s : State) :
    ∃ t, writeReg r v s = some t ∧ readReg r t = (if r = .irqen then v &&& 7#32 else v) ∧
      (∀ r', r' ≠ r → readReg r' t = readReg r' s) ∧
      t.inRam = s.inRam ∧ t.outRam = s.outRam ∧ t.dlRam = s.dlRam ∧ t.draws = s.draws := by
  cases r <;> cases stores
  case irqen =>
    refine ⟨_, rfl, readReg_irqenOf v, fun r' other => ?_, rfl, rfl, rfl, rfl⟩
    cases r' <;> simp_all [readReg]
  case p k =>
    refine ⟨_, rfl, ?_, fun r' other => ?_, rfl, rfl, rfl, rfl⟩
    · simp [readReg]
    · cases r' with
      | p j =>
        have apart : k.val ≠ j.val := fun same => other (by rw [Fin.ext same])
        simp [readReg, Vector.getElem_set_ne _ _ apart]
      | _ => rfl
  case band k =>
    refine ⟨_, rfl, ?_, fun r' other => ?_, rfl, rfl, rfl, rfl⟩
    · simp [readReg]
    · cases r' with
      | band j =>
        have apart : k.val ≠ j.val := fun same => other (by rw [Fin.ext same])
        simp [readReg, Vector.getElem_set_ne _ _ apart]
      | _ => rfl
  all_goals
    refine ⟨_, rfl, rfl, fun r' other => ?_, rfl, rfl, rfl, rfl⟩
    cases r' <;> simp_all [readReg]

/-- Settles O54. -/
theorem registerWritesReadBack : Obligations.RegisterWritesReadBack := by
  intro r s v idle stores
  obtain ⟨t, write, leaves⟩ := writeReg_storesOnly stores v s
  exact ⟨t, busWrite_register idle write, leaves⟩

/-! ### The sample windows (R61) -/

section
variable {s : State} {k : Nat}

theorem toNat_at24 {n : Nat} (h : n < 2 ^ 24) : (at24 n).toNat = n := by
  rw [at24, BitVec.toNat_ofNat, Nat.mod_eq_of_lt h]

theorem targetAt_input {nMax : Word} (hk : k < nMax.toNat) (size : nMax.toNat ≤ 2 ^ 20) :
    targetAt nMax (at24 (0x400000 + 4 * k)) = .input k := by
  have addr := toNat_at24 (n := 0x400000 + 4 * k) (by omega)
  rw [targetAt_inputWindow nMax (by omega) (by omega), addr, show (0x400000 + 4 * k - 0x400000) / 4 = k by omega,
    if_pos hk]

theorem targetAt_output {nMax : Word} (hk : k < nMax.toNat) (size : nMax.toNat ≤ 2 ^ 20) :
    targetAt nMax (at24 (0x800000 + 4 * k)) = .output k := by
  have addr := toNat_at24 (n := 0x800000 + 4 * k) (by omega)
  rw [targetAt_outputWindow nMax (by omega) (by omega), addr, show (0x800000 + 4 * k - 0x800000) / 4 = k by omega,
    if_pos hk]

theorem wholeWord_at24 {n : Nat} (h : n < 2 ^ 24) (aligned : n % 4 = 0) : wholeWord (at24 n) .word = true :=
  (wholeWord_iff _ _).mpr ⟨rfl, by rw [toNat_at24 h]; exact aligned⟩

theorem busRead_input (idle : s.status.busy = false) (hk : k < s.nMax.toNat) (size : s.nMax.toNat ≤ 2 ^ 20) :
    busRead (at24 (0x400000 + 4 * k)) .word s = (.data (readIn k s).1, (readIn k s).2) := by
  rw [busRead, if_pos (wholeWord_at24 (by omega) (by omega)), targetAt_input hk size]
  simp only [idle, Bool.false_eq_true, if_false]

theorem busRead_output (idle : s.status.busy = false) (hk : k < s.nMax.toNat) (size : s.nMax.toNat ≤ 2 ^ 20) :
    busRead (at24 (0x800000 + 4 * k)) .word s = (.data (readOut k s).1, (readOut k s).2) := by
  rw [busRead, if_pos (wholeWord_at24 (by omega) (by omega)), targetAt_output hk size]
  simp only [idle, Bool.false_eq_true, if_false]

theorem busWrite_input (idle : s.status.busy = false) (hk : k < s.nMax.toNat) (size : s.nMax.toNat ≤ 2 ^ 20)
    (v : Word) :
    busWrite (at24 (0x400000 + 4 * k)) .word v s =
      (.okay, { s with inRam := Memory.storeWord .input s.inRam k v }) := by
  rw [busWrite, wholeWord_at24 (by omega) (by omega), idle, targetAt_input hk size]
  rfl

end

theorem readOut_of_unwritten (k : Nat) (s : State) (h : Memory.loadWord .output s.outRam k = none) :
    readOut k s = (Config.freeWord s.draws, { s with draws := s.draws + 1 }) := by
  simp only [readOut, h, drawWord]

/-- Settles O56. -/
theorem sampleWindows : Obligations.SampleWindows := by
  intro s k v idle hk size
  refine ⟨⟨_, busWrite_input idle hk size v, rfl, ?_, fun a ha => ?_⟩, fun word => ?_, fun none => ?_, fun none => ?_⟩
  · rw [busRead_input (s := { s with inRam := Memory.storeWord .input s.inRam k v }) idle hk size,
      readIn_of_written k _ v (Memory.loadWord_storeWord_same _ _ _ _)]
  · exact loadByte_storeWord_outside .input s.inRam v ha
  · rw [busRead_output idle hk size, readOut_of_written k s v word]
  · rw [busRead_input idle hk size, readIn_of_unwritten k s none]
  · rw [busRead_output idle hk size, readOut_of_unwritten k s none]

end Sys2Proof.Proofs
end

section
/-! The step (30_encoding R86, 70_reset_and_hazards R137 to R143): which of its three actions is taken, the busy window,
and what a run of steps leads to. -/

namespace Sys2Proof.Proofs

open Sys2Proof Sys2Proof.Machine Sys2Proof.Statements

/-! ### What happens next (log 2) -/

section
variable {s : State}

theorem step_idle (idle : s.status.busy = false) (queue : s.hostQueue = []) : step s = .next s := by
  simp only [step, nextAction, idle, queue, Bool.false_eq_true, if_false]

theorem step_serve_idle {e : HostEvent} {rest : List HostEvent} (idle : s.status.busy = false)
    (queue : s.hostQueue = e :: rest) : step s = .next (serve e rest s.busyLeft s) := by
  simp only [step, nextAction, idle, queue, Bool.false_eq_true, if_false]

theorem step_serve_busy {e : HostEvent} {rest : List HostEvent} {left : Nat} (busy : s.status.busy = true)
    (queue : s.hostQueue = e :: rest) (window : s.busyLeft = left + 1) : step s = .next (serve e rest left s) := by
  simp only [step, nextAction, busy, queue, window, if_true]

theorem step_run (busy : s.status.busy = true) (closed : s.busyLeft = 0 ∨ s.hostQueue = []) :
    step s = runWord s.cmd s := by
  have action : nextAction s = .run s.cmd := by
    unfold nextAction
    rw [if_pos busy]
    split
    · rename_i left event
      rcases closed with zero | empty
      · rw [zero] at left; cases left
      · rw [empty] at event; cases event
    · rfl
  rw [step, action]

/-- A step holds the state, serves the host's next event, or runs the accepted word. -/
theorem step_cases (s : State) :
    step s = .next s ∨ (∃ e rest left, s.hostQueue = e :: rest ∧ step s = .next (serve e rest left s)) ∨
      (s.status.busy = true ∧ step s = runWord s.cmd s) := by
  cases busy : s.status.busy
  · cases queue : s.hostQueue with
    | nil => exact .inl (step_idle busy queue)
    | cons e rest => exact .inr (.inl ⟨e, rest, _, rfl, step_serve_idle busy queue⟩)
  · cases queue : s.hostQueue with
    | nil => exact .inr (.inr ⟨rfl, step_run busy (.inr queue)⟩)
    | cons e rest =>
      cases window : s.busyLeft with
      | zero => exact .inr (.inr ⟨rfl, step_run busy (.inl window)⟩)
      | succ left => exact .inr (.inl ⟨e, rest, left, rfl, step_serve_busy busy queue window⟩)

end

/-! ### Running a word (R81) -/

theorem runWord_ok {w : Word} {i : Instr} (h : decode w = .ok i) (s : State) : runWord w s = exec i s := by
  rw [runWord, h]

theorem runWord_error {w : Word} {e : Reject} (h : decode w = .error e) (s : State) :
    runWord w s = .next (rejected e s) := by
  rw [runWord, h]
  exact congrArg _ (complete_some_beginRun e s)

/-- Every accepted word is rejected, or its command is validated and runs. -/
theorem runWord_cases (w : Word) (s : State) :
    (∃ e, runWord w s = .next (rejected e s)) ∨
      ∃ i c, firstFailure i s = none ∧ capacityOf i s = .ok c ∧ runWord w s = .next (complete none (ran i s c)) := by
  cases decoded : decode w with
  | error e => exact .inl ⟨e, runWord_error decoded s⟩
  | ok i =>
    rw [runWord_ok decoded]
    rcases exec_cases i s with ⟨e, -, run⟩ | ⟨pass, c, cap, run⟩
    · exact .inl ⟨e, run⟩
    · exact .inr ⟨i, c, pass, cap, run⟩

/-- Settles O5. -/
theorem stepRunsTheDecodedCommand : Obligations.StepRunsTheDecodedCommand := by
  intro s i busy closed decoded
  rw [step_run busy closed, runWord_ok decoded]

/-- Settles O6. -/
theorem stepRejectsUndecodableWord : Obligations.StepRejectsUndecodableWord := by
  intro s e busy closed decoded
  rw [step_run busy closed, runWord_error decoded]

/-- Settles O7: no action stops, and no command is refused. -/
theorem everyStepHasANextState : Obligations.EveryStepHasANextState := by
  intro s
  rcases step_cases s with hold | ⟨e, rest, left, -, served⟩ | ⟨-, run⟩
  · exact ⟨_, hold⟩
  · exact ⟨_, served⟩
  · rcases runWord_cases s.cmd s with ⟨e, rejection⟩ | ⟨i, c, -, -, ends⟩
    · exact ⟨_, run.trans rejection⟩
    · exact ⟨_, run.trans ends⟩

/-! ### The busy window (R57, R143) -/

/-- While a command runs, a read of an address that is no register's answers ERROR. -/
theorem busRead_busy_elsewhere {s : State} (busy : s.status.busy = true) {addr : BitVec 24}
    (elsewhere : ∀ r, addr ≠ at24 (regOffset r)) : busRead addr .word s = (.error, s) := by
  by_cases whole : wholeWord addr .word = true
  · rw [busRead, if_pos whole]
    cases target : targetAt s.nMax addr with
    | reg r => exact absurd (addr_eq_of_targetAt ((wholeWord_iff _ _).mp whole).2 target) (elsewhere r)
    | input k => simp only [busy, if_true]
    | output k => simp only [busy, if_true]
    | reserved => rfl
  · exact busRead_of_not_wholeWord s (Bool.eq_false_of_not_eq_true whole)

theorem busWrite_busy {s : State} (busy : s.status.busy = true) (addr : BitVec 24) (size : AccessSize) (v : Word) :
    busWrite addr size v s = (.error, s) := by
  rcases busWrite_cases addr size v s with write | ⟨idle, -⟩
  · exact write
  · rw [busy] at idle; cases idle

theorem busRead_busy {s : State} (busy : s.status.busy = true) (addr : BitVec 24) (size : AccessSize) :
    busRead addr size s = (busyResponse s (.read addr size), s) := by
  cases size
  case word =>
    by_cases register : ∃ r, addr = at24 (regOffset r)
    · obtain ⟨r, rfl⟩ := register
      rw [busRead_register, busy]
      cases r with
      | p k => fin_cases k <;> rfl
      | band k => fin_cases k <;> rfl
      | _ => rfl
    · have elsewhere := not_exists.mp register
      have status : addr ≠ 0x000004#24 := elsewhere .status
      have fs : addr ≠ 0x000024#24 := elsewhere .fs
      have dlDepth : addr ≠ 0x000028#24 := elsewhere .dlDepth
      have nMax : addr ≠ 0x00002C#24 := elsewhere .nMax
      rw [busRead_busy_elsewhere busy elsewhere]
      simp only [busyResponse, status, fs, dlDepth, nMax, if_false]
  all_goals
    refine (busRead_of_not_wholeWord s ?_).trans rfl
    rfl

/-- Every host access while a command runs. -/
theorem hostEvent_busy {s : State} (busy : s.status.busy = true) {e : HostEvent} (access : e ≠ .reset) :
    hostEvent e s = { s with responses := busyResponse s e :: s.responses } := by
  cases e with
  | reset => exact absurd rfl access
  | read addr size => rw [hostEvent, busRead_busy busy, respond]
  | write addr size v => rw [hostEvent, busWrite_busy busy, respond]; rfl

/-- Settles O50. -/
theorem busyWindowRefusesTheRest : Obligations.BusyWindowRefusesTheRest := by
  intro s e rest left busy access queue window
  rw [step_serve_busy busy queue window, serve,
    hostEvent_busy (s := { s with hostQueue := rest, busyLeft := left }) busy access]
  cases e <;> rfl

/-- Settles O12: a reset is served whenever the busy window is not used up. -/
theorem resetAbandonsEverything : Obligations.ResetAbandonsEverything := by
  intro s rest queue window
  cases busy : s.status.busy
  · rw [step_serve_idle busy queue]
    rfl
  · obtain ⟨left, positive⟩ := Nat.exists_eq_succ_of_ne_zero (window busy)
    rw [step_serve_busy busy queue positive]
    rfl

/-- Settles O49. -/
theorem cmdWriteAcceptsTheWord : Obligations.CmdWriteAcceptsTheWord := by
  intro s w rest idle queue
  have write := busWrite_register (r := .cmd) (v := w) (s := { s with hostQueue := rest }) idle rfl
  refine ⟨_, step_serve_idle idle queue, ?_⟩
  rw [serve, hostEvent, show (0x000000#24) = at24 (regOffset .cmd) from rfl,
    show ({ s with hostQueue := rest, busyLeft := s.busyLeft } : State) = { s with hostQueue := rest } from rfl, write]
  rfl

/-! ### Completion (R85, R149) -/

/-- A run of the accepted word ends with BUSY = 0 and DONE = 1. -/
theorem runWord_completes (w : Word) (s : State) :
    ∃ t, runWord w s = .next t ∧ t.status.busy = false ∧ t.status.done = true ∧ t.cmd = s.cmd := by
  rcases runWord_cases w s with ⟨e, run⟩ | ⟨i, c, -, -, run⟩
  · exact ⟨_, run, rfl, rfl, rfl⟩
  · refine ⟨_, run, ?_⟩
    rw [complete_ran]
    exact ⟨rfl, rfl, rfl⟩

theorem run_one {s t : State} (h : step s = .next t) : Host.Core.run core 1 s = .next t := by
  simp only [Host.Core.run, show core.step s = .next t from h]

theorem run_succ {s t : State} (h : step s = .next t) (k : Nat) :
    Host.Core.run core (k + 1) s = Host.Core.run core k t := by
  simp only [Host.Core.run, show core.step s = .next t from h]

/-- Settles O8, by induction on the events left in the window. -/
theorem acceptedCommandCompletes : Obligations.AcceptedCommandCompletes := by
  intro s busy
  induction window : s.busyLeft generalizing s with
  | zero =>
    obtain ⟨t, run, ends⟩ := runWord_completes s.cmd s
    exact ⟨1, t, le_rfl, run_one ((step_run busy (.inl window)).trans run), ends.1, fun _ => ends.2⟩
  | succ left ih =>
    cases queue : s.hostQueue with
    | nil =>
      obtain ⟨t, run, ends⟩ := runWord_completes s.cmd s
      exact ⟨1, t, by omega, run_one ((step_run busy (.inr queue)).trans run), ends.1, fun _ => ends.2⟩
    | cons e rest =>
      by_cases reset : e = .reset
      · subst reset
        refine ⟨1, _, by omega, run_one (step_serve_busy busy queue window), rfl, fun none => ?_⟩
        exact absurd List.mem_cons_self none
      · have served := busyWindowRefusesTheRest s e rest left busy reset queue window
        obtain ⟨k, t, short, run, ends, completes⟩ :=
          ih { s with hostQueue := rest, busyLeft := left, responses := busyResponse s e :: s.responses } busy rfl
        refine ⟨k + 1, t, by omega, (run_succ served k).trans run, ends, fun none => completes ?_⟩
        exact fun later => none (List.mem_cons_of_mem _ later)

/-! ### NONFINITE (R127) -/

theorem clearStatus_nonfinite {v : Word} {st : Status} (before : st.nonfinite = true)
    (after : (clearStatus v st).nonfinite = false) : v.getLsbD 3 = true := by
  rw [clearStatus_eq, before] at after
  by_contra h
  rw [if_neg h] at after
  cases after

/-- Of the writes only one of 1 to bit 3 of STATUS clears NONFINITE. -/
theorem busWrite_nonfinite {addr : BitVec 24} {size : AccessSize} {v : Word} {s : State}
    (before : s.status.nonfinite = true) (after : (busWrite addr size v s).2.status.nonfinite = false) :
    addr = 0x000004#24 ∧ size = .word ∧ v.getLsbD 3 = true ∧ s.status.busy = false := by
  rcases busWrite_cases addr size v s with write | ⟨idle, word, ⟨r, t, here, write, access⟩ | ⟨k, -, access⟩⟩
  · rw [write, before] at after; cases after
  · rw [access] at after
    cases r
    case status =>
      cases write
      exact ⟨here, word, clearStatus_nonfinite before after, idle⟩
    all_goals
      cases write <;> exact absurd (before.symm.trans after) Bool.noConfusion
  · rw [access] at after
    exact absurd (before.symm.trans after) Bool.noConfusion

/-- Settles O28: no command clears it, and of the host's events only those two. -/
theorem nonfiniteClearedOnlyByTheHost : Obligations.NonfiniteClearedOnlyByTheHost := by
  intro s t next before after
  rcases step_cases s with hold | ⟨e, rest, left, queue, served⟩ | ⟨-, run⟩
  · cases next.symm.trans hold
    rw [before] at after; cases after
  · cases next.symm.trans served
    cases e with
    | reset => exact .inl ⟨rest, queue⟩
    | read addr size =>
      have kept : (serve (.read addr size) rest left s).status = s.status := by
        rw [serve, hostEvent, respond]
        rcases busRead_cases addr size { s with hostQueue := rest, busyLeft := left } with read | ⟨v, d, read⟩ <;>
          rw [read]
      rw [kept, before] at after; cases after
    | write addr size v =>
      obtain ⟨rfl, rfl, bit, idle⟩ :=
        busWrite_nonfinite (s := { s with hostQueue := rest, busyLeft := left }) before after
      exact .inr ⟨v, rest, queue, bit, idle⟩
  · rcases runWord_cases s.cmd s with ⟨e, ends⟩ | ⟨i, c, -, -, ends⟩
    · cases next.symm.trans (run.trans ends)
      rw [show (rejected e s).status.nonfinite = s.status.nonfinite from rfl, before] at after; cases after
    · cases next.symm.trans (run.trans ends)
      rw [complete_ran, finished, before] at after; cases after

end Sys2Proof.Proofs
end

section
/-! Reset (10_state section 7, 70_reset_and_hazards R137) and the invariant that every step keeps. -/

namespace Sys2Proof.Proofs

open Sys2Proof Sys2Proof.Machine Sys2Proof.Statements

/-! ### Reset -/

/-- Settles O9. -/
theorem resetValues : Obligations.ResetValues := by
  refine ⟨rfl, rfl, rfl, rfl, rfl, rfl, rfl, rfl, rfl, fun k => ?_, fun k => ?_, rfl, rfl, ?_, ?_, ?_⟩
  · fin_cases k <;> rfl
  · fin_cases k <;> rfl
  · exact congrArg Prod.fst (registersReadAtTheirOffsets .fs State.reset rfl)
  · exact congrArg Prod.fst (registersReadAtTheirOffsets .dlDepth State.reset rfl)
  · exact congrArg Prod.fst (registersReadAtTheirOffsets .nMax State.reset rfl)

/-- The block after a reset satisfies the invariant for all parameters in their ranges. -/
theorem inv_resetBlock {s : State} (params : s.paramsOk) : (resetBlock s).Inv := by
  refine ⟨params, ⟨le_rfl, params.1⟩, ⟨Memory.wf_nil _, ?_, Memory.wf_nil _, ?_, Memory.wf_nil _, ?_⟩,
    ⟨Nat.zero_le 8, ⟨fun _ => rfl, fun _ => rfl⟩, nofun⟩, rfl, rfl, rfl⟩ <;> exact nofun

theorem paramsOk_reset : State.reset.paramsOk := by
  have depth := Config.dlDepthLessOne.isLt
  have frame := Config.nMaxLessOne.isLt
  simp only [State.paramsOk, State.reset, BitVec.toNat_ofNat, Config.dlDepth, Config.nMax]
  omega

/-- Settles O10. -/
theorem invariantHoldsAtReset : Obligations.InvariantHoldsAtReset := inv_resetBlock paramsOk_reset

/-! ### The capacity and the memories after a command (R39, R45 to R47) -/

/-- A creating command's capacity is in 1 to DL_DEPTH (R25, R26). -/
theorem capacityOf_range {i : Instr} {s : State} {c : Word} (params : s.paramsOk) (line : creates i = true)
    (cap : capacityOf i s = .ok c) : 1 ≤ c.toNat ∧ c.toNat ≤ s.dlDepth.toNat := by
  cases i <;> cases line
  case dlCreate | flangerMod | flangerManual => exact capArg_range _ _ _ params.1 cap
  case dlCreateMs | delay | dlCreateFrac | reverb => exact capClamp_range _ _ _ params.1 cap

theorem capOk_ran {i : Instr} {s : State} {c : Word} (params : s.paramsOk) (capOk : s.capOk)
    (cap : capacityOf i s = .ok c) : 1 ≤ (ran i s c).cap.toNat ∧ (ran i s c).cap.toNat ≤ s.dlDepth.toNat := by
  rw [ran_cap]
  split
  · rename_i line
    exact capacityOf_range params line cap
  · exact capOk

/-- A memory in canonical form that lists no word from `n` on. -/
def RamOk (r : Ram) (n : Nat) (m : List Host.Cell) : Prop := Memory.wf r m ∧ Memory.within n m

theorem ramOk_storeWord {r : Ram} {n : Nat} {m : List Host.Cell} (ok : RamOk r n m) {k : Nat} (hk : k < n) (v : Word) :
    RamOk r n (Memory.storeWord r m k v) :=
  ⟨Memory.wf_storeWord r m k v ok.1, Memory.within_storeWord r n m k v ok.2 hk⟩

theorem ramOk_zeroWords {n : Nat} {m : List Host.Cell} (ok : RamOk .line n m) (c : Nat) :
    RamOk .line n (Memory.zeroWords m c) :=
  ⟨Memory.wf_zeroWords m c ok.1, Memory.within_zeroWords n m c ok.2⟩

theorem ramOk_frameAt_output {i : Instr} (frame : isFrame i = true) {s : State} (start : s.sample = 0#32) {m n : Nat}
    (hn : n ≤ 2 ^ 32) (fits : n ≤ m) (ok : RamOk .output m s.outRam) : RamOk .output m (frameAt i s n).outRam := by
  induction n with
  | zero => exact ok
  | succ n ih =>
    rw [frameAt_outRam frame start hn]
    exact ramOk_storeWord (ih (by omega) (by omega)) (by omega) _

theorem ramOk_frameAt_line {i : Instr} (frame : isFrame i = true) {s : State}
    (start : s.sample = 0#32) {m n : Nat} (hn : n ≤ 2 ^ 32) (positive : 0 < s.cap.toNat) (fits : s.cap.toNat ≤ m)
    (ok : RamOk .line m s.dlRam) : RamOk .line m (frameAt i s n).dlRam := by
  cases line : creates i
  · rw [frameAt_dlRam_plain frame line]
    exact ok
  · induction n with
    | zero => exact ok
    | succ n ih =>
      rw [frameAt_dlRam_line frame line start hn]
      exact ramOk_storeWord (ih (by omega)) ((Nat.mod_lt n positive).trans_le fits) _

/-- A frame that passes validation fits the memories (R82). -/
theorem len_le_nMax {i : Instr} {s : State} (frame : isFrame i = true) (pass : firstFailure i s = none) :
    s.len.toNat ≤ s.nMax.toNat := by
  by_contra long
  unfold firstFailure at pass
  split at pass
  · cases pass
  · rw [if_pos ⟨frame, not_le.mp long⟩] at pass
    cases pass

theorem ramOk_ran_output {i : Instr} {s : State} {c : Word} (pass : firstFailure i s = none)
    (ok : RamOk .output s.nMax.toNat s.outRam) : RamOk .output s.nMax.toNat (ran i s c).outRam := by
  cases frame : isFrame i
  · rw [(ran_outRam_draws frame s c).1]
    exact ok
  · rw [ran_frame frame]
    refine ramOk_frameAt_output frame (launched_sample i s c) s.len.isLt.le (len_le_nMax frame pass) ?_
    rw [launched_outRam]
    exact ok

theorem ramOk_launched {i : Instr} {s : State} (c : Word) {m : Nat} (ok : RamOk .line m s.dlRam) :
    RamOk .line m (launched i s c).dlRam := by
  unfold launched
  split
  · exact ramOk_zeroWords ok _
  · exact ok

theorem ramOk_ran_line {i : Instr} {s : State} {c : Word} (params : s.paramsOk) (capOk : s.capOk)
    (cap : capacityOf i s = .ok c) (ok : RamOk .line s.dlDepth.toNat s.dlRam) :
    RamOk .line s.dlDepth.toNat (ran i s c).dlRam := by
  have range := capOk_ran params capOk cap
  cases frame : isFrame i
  · have index : ∀ j : Word, j.toNat % s.cap.toNat < s.dlDepth.toNat := fun j =>
      (Nat.mod_lt _ capOk.1).trans_le capOk.2
    cases i
    case dlCreate | dlCreateMs | dlCreateFrac => exact ramOk_zeroWords ok _
    case dlWrite => exact ramOk_storeWord ok (index s.arg) _
    case dlStep => exact ramOk_storeWord ok (index s.arg) _
    case nop | dlRead | oscValue => rw [ran_dlRam rfl]; exact ok
    all_goals cases frame
  · rw [ran_frame frame] at range ⊢
    rw [frameAt_cap frame] at range
    exact ramOk_frameAt_line frame (launched_sample i s c) s.len.isLt.le range.1 range.2 (ramOk_launched c ok)

/-! ### The invariant -/

theorem codeOf_range (e : Reject) : (codeOf e).toNat ≤ 8 ∧ codeOf e ≠ 0#8 := by cases e <;> decide

theorem inv_rejected {s : State} (inv : s.Inv) (e : Reject) : (rejected e s).Inv := by
  obtain ⟨params, capOk, rams, -, -⟩ := inv
  obtain ⟨small, nonzero⟩ := codeOf_range e
  exact ⟨params, capOk, rams, ⟨small, iff_of_false (nofun : true ≠ false) nonzero, nofun⟩, rfl, rfl, rfl⟩

theorem inv_complete_ran {i : Instr} {s : State} {c : Word} (inv : s.Inv) (pass : firstFailure i s = none)
    (cap : capacityOf i s = .ok c) : (complete none (ran i s c)).Inv := by
  obtain ⟨params, capOk, ⟨inWf, inWithin, outWf, outWithin, lineWf, lineWithin⟩, ⟨code, err, -⟩, -⟩ := inv
  have output := ramOk_ran_output (c := c) pass ⟨outWf, outWithin⟩
  have line := ramOk_ran_line params capOk cap ⟨lineWf, lineWithin⟩
  rw [complete_ran]
  exact ⟨params, capOk_ran params capOk cap, ⟨inWf, inWithin, output.1, output.2, line.1, line.2⟩,
    ⟨code, err, nofun⟩, rfl, rfl, rfl⟩

theorem inv_runWord {w : Word} {s t : State} (inv : s.Inv) (run : runWord w s = .next t) : t.Inv := by
  rcases runWord_cases w s with ⟨e, ends⟩ | ⟨i, c, pass, cap, ends⟩
  · cases run.symm.trans ends
    exact inv_rejected inv e
  · cases run.symm.trans ends
    exact inv_complete_ran inv pass cap

theorem statusOk_accept (w : Word) (s : State) : (accept w s).statusOk :=
  ⟨Nat.zero_le 8, ⟨fun _ => rfl, fun _ => rfl⟩, fun _ => ⟨rfl, rfl⟩⟩

/-- Clearing ERR clears ERRCODE with it (R32). -/
theorem statusOk_clearStatus {s : State} (idle : s.status.busy = false) (ok : s.statusOk) (v : Word) :
    ({ s with status := clearStatus v s.status } : State).statusOk := by
  obtain ⟨code, err, -⟩ := ok
  rw [clearStatus_eq]
  refine ⟨?_, ?_, fun busy => ?_⟩
  · dsimp only
    split
    · decide
    · exact code
  · dsimp only
    split
    · exact ⟨fun _ => rfl, fun _ => rfl⟩
    · exact err
  · exact absurd (idle.symm.trans busy) Bool.noConfusion

theorem inv_writeReg {r : Reg} {v : Word} {s t : State} (inv : s.Inv) (idle : s.status.busy = false)
    (write : writeReg r v s = some t) : t.Inv := by
  obtain ⟨params, capOk, rams, status, inside⟩ := inv
  cases r
  case cmd => cases write; exact ⟨params, capOk, rams, statusOk_accept v s, inside⟩
  case status => cases write; exact ⟨params, capOk, rams, statusOk_clearStatus idle status v, inside⟩
  all_goals cases write <;> exact ⟨params, capOk, rams, status, inside⟩

theorem inv_busWrite {s : State} (inv : s.Inv) (addr : BitVec 24) (size : AccessSize) (v : Word) :
    (busWrite addr size v s).2.Inv := by
  rcases busWrite_cases addr size v s with write | ⟨idle, -, ⟨r, t, -, write, access⟩ | ⟨k, hk, access⟩⟩
  · rw [write]
    exact inv
  · rw [access]
    exact inv_writeReg inv idle write
  · rw [access]
    obtain ⟨params, capOk, ⟨inWf, inWithin, rest⟩, status, inside⟩ := inv
    have input := ramOk_storeWord ⟨inWf, inWithin⟩ hk v
    exact ⟨params, capOk, ⟨input.1, input.2, rest⟩, status, inside⟩

theorem inv_busRead {s : State} (inv : s.Inv) (addr : BitVec 24) (size : AccessSize) :
    (busRead addr size s).2.Inv := by
  rcases busRead_cases addr size s with read | ⟨v, d, read⟩ <;> rw [read] <;> exact inv

theorem inv_serve {s : State} (inv : s.Inv) (e : HostEvent) (rest : List HostEvent) (left : Nat) :
    (serve e rest left s).Inv := by
  have taken : ({ s with hostQueue := rest, busyLeft := left } : State).Inv := inv
  cases e with
  | read addr size => exact inv_busRead taken addr size
  | write addr size v => exact inv_busWrite taken addr size v
  | reset => exact inv_resetBlock taken.1

/-- Settles O11, by the three actions of a step. -/
theorem everyStepKeepsTheInvariant : Obligations.EveryStepKeepsTheInvariant := by
  intro s t inv next
  rcases step_cases s with hold | ⟨e, rest, left, -, served⟩ | ⟨-, run⟩
  · cases next.symm.trans hold
    exact inv
  · cases next.symm.trans served
    exact inv_serve inv e rest left
  · exact inv_runWord inv (run.symm.trans next)

end Sys2Proof.Proofs
end

section
/-! Binary32 (00_scope R12 to R16): magnitudes as a strictly rising function of their bits, rounding as the choice
between the two neighbours, and the operations on the values where rounding is exact. -/

namespace Sys2Proof.Proofs

open Sys2Proof Sys2Proof.Machine Sys2Proof.Statements

/-! ### Magnitudes and their bits (R12) -/

/-- The magnitude whose bits 30:0 are `b`, in units of 2^-149. -/
def magOf (b : Nat) : Nat :=
  if b / 2 ^ 23 = 0 then b % 2 ^ 23 else (2 ^ 23 + b % 2 ^ 23) * 2 ^ (b / 2 ^ 23 - 1)

theorem fMag_eq_magOf (v : F32) : fMag v = magOf (magBits v) := by
  rw [fMag_eq_of_magBits, magOf, Nat.shiftLeft_eq]

theorem magBits_ofNat {b : Nat} (h : b < 2 ^ 31) : magBits (BitVec.ofNat 32 b) = b := by
  rw [magBits_eq, BitVec.toNat_ofNat]
  omega

theorem fMag_ofNat {b : Nat} (h : b < 2 ^ 31) : fMag (BitVec.ofNat 32 b) = magOf b := by
  rw [fMag_eq_magOf, magBits_ofNat h]

/-- The magnitude of a 24-bit significand `r` at quantum `2^k`; the carry to `2^24` is the next power of two. -/
theorem magOf_quantum {k r : Nat} (upper : r ≤ 2 ^ 24) (lower : 0 < k → 2 ^ 23 ≤ r) :
    magOf (k * 2 ^ 23 + r) = r * 2 ^ k := by
  rcases Nat.lt_or_ge r (2 ^ 23) with subnormal | normal
  · obtain rfl : k = 0 := by omega
    rw [magOf, if_pos (by omega)]
    omega
  · rcases Nat.lt_or_eq_of_le upper with below | rfl
    · rw [magOf, if_neg (by omega), show (k * 2 ^ 23 + r) / 2 ^ 23 - 1 = k by omega,
        show 2 ^ 23 + (k * 2 ^ 23 + r) % 2 ^ 23 = r by omega]
    · rw [magOf, if_neg (by omega), show (k * 2 ^ 23 + 2 ^ 24) / 2 ^ 23 - 1 = k + 1 by omega,
        show 2 ^ 23 + (k * 2 ^ 23 + 2 ^ 24) % 2 ^ 23 = 2 ^ 23 by omega]
      ring

/-- Every bit pattern is a significand at a quantum, with room for the next one. -/
theorem exists_quantum (b : Nat) : ∃ k r, r < 2 ^ 24 ∧ (0 < k → 2 ^ 23 ≤ r) ∧ b = k * 2 ^ 23 + r := by
  refine ⟨b / 2 ^ 23 - 1, b - (b / 2 ^ 23 - 1) * 2 ^ 23, ?_, ?_, ?_⟩ <;> omega

/-- One more bit is one more quantum. -/
theorem magOf_lt_succ (b : Nat) : magOf b < magOf (b + 1) := by
  obtain ⟨k, r, upper, lower, rfl⟩ := exists_quantum b
  rw [magOf_quantum upper.le lower, add_assoc, magOf_quantum upper fun hk => (lower hk).trans (Nat.le_succ r)]
  exact Nat.mul_lt_mul_of_pos_right (Nat.lt_succ_self r) (Nat.two_pow_pos k)

theorem magOf_strictMono : StrictMono magOf := strictMono_nat_of_lt_succ magOf_lt_succ

/-! ### Rounding (R13) -/

/-- The bits of the magnitude at or next below `num / den`. -/
def floorBits (num den : Nat) : Nat :=
  quantumExp (num / den) * 2 ^ 23 + num / den / 2 ^ quantumExp (num / den)

/-- How far `num / den` lies above that magnitude, in `den`ths of a unit. -/
def excess (num den : Nat) : Nat := num - magOf (floorBits num den) * den

/-- The distance between the magnitude at or below and the next one, in `den`ths of a unit. -/
def gap (num den : Nat) : Nat := den * 2 ^ quantumExp (num / den)

theorem gap_pos {num den : Nat} (h : 0 < den) : 0 < gap num den := Nat.mul_pos h (Nat.two_pow_pos _)

theorem magOf_floorBits (num den : Nat) :
    magOf (floorBits num den) = num / den / 2 ^ quantumExp (num / den) * 2 ^ quantumExp (num / den) :=
  magOf_quantum (quantumExp_upper _).le (quantumExp_lower _)

theorem magOf_floorBits_succ (num den : Nat) :
    magOf (floorBits num den + 1) * den = magOf (floorBits num den) * den + gap num den := by
  rw [magOf_floorBits, floorBits, add_assoc,
    magOf_quantum (Nat.add_one_le_iff.mpr (quantumExp_upper _)) fun h =>
      (quantumExp_lower _ h).trans (Nat.le_add_right _ 1), gap]
  ring

/-- The exact magnitude is the one below and its excess, which is less than a gap. -/
theorem floorBits_spec {num den : Nat} (h : 0 < den) :
    num = magOf (floorBits num den) * den + excess num den ∧ excess num den < gap num den ∧
      excess num den = num % gap num den := by
  have split := Nat.div_add_mod num (gap num den)
  have lt := Nat.mod_lt num (gap_pos (num := num) h)
  have below : magOf (floorBits num den) * den = gap num den * (num / gap num den) := by
    rw [magOf_floorBits, gap, Nat.div_div_eq_div_mul]
    ring
  unfold excess
  omega

/-- Rounding goes up past the middle of the gap, and at it where the bits below are odd. -/
theorem roundMag_eq {num den : Nat} :
    roundMag num den =
      min (if gap num den < 2 * (num % gap num den) ∨
          (2 * (num % gap num den) = gap num den ∧ floorBits num den % 2 = 1)
        then floorBits num den + 1 else floorBits num den) 0x7F800000 := by
  have odd : floorBits num den % 2 = num / gap num den % 2 := by
    rw [floorBits, Nat.div_div_eq_div_mul, gap]
    omega
  have bits : floorBits num den = quantumExp (num / den) * 2 ^ 23 + num / gap num den := by
    rw [floorBits, Nat.div_div_eq_div_mul, gap]
  rw [odd, bits, roundMag, roundEven, Nat.shiftLeft_eq, ← gap]
  split
  · rw [add_assoc]
  · rfl

/-- The distance from a magnitude to the exact one, in `den`ths of a unit. -/
def distance (num den b : Nat) : Nat := ((magOf b : Int) * den - num).natAbs

theorem distance_floorBits {num den : Nat} (h : 0 < den) :
    distance num den (floorBits num den) = excess num den := by
  obtain ⟨exact_, -, -⟩ := floorBits_spec (num := num) h
  unfold distance
  rw [← Nat.cast_mul]
  omega

theorem distance_floorBits_succ {num den : Nat} (h : 0 < den) :
    distance num den (floorBits num den + 1) = gap num den - excess num den := by
  obtain ⟨exact_, less, -⟩ := floorBits_spec (num := num) h
  have next := magOf_floorBits_succ num den
  unfold distance
  rw [← Nat.cast_mul]
  omega

/-- Every magnitude at or below the exact one is no nearer than the greatest of them. -/
theorem distance_of_le {num den c : Nat} (h : 0 < den) (below : c ≤ floorBits num den) :
    excess num den ≤ distance num den c ∧ (c ≠ floorBits num den → excess num den < distance num den c) := by
  obtain ⟨exact_, -, -⟩ := floorBits_spec (num := num) h
  have ordered := Nat.mul_le_mul_right den (magOf_strictMono.monotone below)
  have strict : c ≠ floorBits num den → magOf c * den < magOf (floorBits num den) * den := fun other =>
    Nat.mul_lt_mul_of_pos_right (magOf_strictMono (lt_of_le_of_ne below other)) h
  unfold distance
  rw [← Nat.cast_mul]
  exact ⟨by omega, fun other => by have := strict other; omega⟩

/-- And every magnitude above it no nearer than the least of them. -/
theorem distance_of_gt {num den c : Nat} (h : 0 < den) (above : floorBits num den < c) :
    gap num den - excess num den ≤ distance num den c ∧
      (c ≠ floorBits num den + 1 → gap num den - excess num den < distance num den c) := by
  obtain ⟨exact_, less, -⟩ := floorBits_spec (num := num) h
  have next := magOf_floorBits_succ num den
  have ordered := Nat.mul_le_mul_right den (magOf_strictMono.monotone (Nat.succ_le_of_lt above))
  have strict : c ≠ floorBits num den + 1 → magOf (floorBits num den + 1) * den < magOf c * den := fun other =>
    Nat.mul_lt_mul_of_pos_right (magOf_strictMono (lt_of_le_of_ne (Nat.succ_le_of_lt above) (Ne.symm other))) h
  rw [Nat.succ_eq_add_one] at ordered
  unfold distance
  rw [← Nat.cast_mul]
  exact ⟨by omega, fun other => by have := strict other; omega⟩

/-- One rounding is the nearest magnitude, the even one at a tie. -/
theorem roundMag_nearest {num den : Nat} (h : 0 < den) (finite : roundMag num den < 0x7F800000) (c : Nat) :
    distance num den (roundMag num den) ≤ distance num den c ∧
      (distance num den (roundMag num den) = distance num den c → c ≠ roundMag num den →
        roundMag num den % 2 = 0) := by
  obtain ⟨-, less, remainder⟩ := floorBits_spec (num := num) h
  have rounded := roundMag_eq (num := num) (den := den)
  rw [← remainder] at rounded
  have below := distance_of_le (num := num) (c := c) h
  have above := distance_of_gt (num := num) (c := c) h
  split at rounded
  · rename_i up
    obtain up' : roundMag num den = floorBits num den + 1 := by omega
    rw [up', distance_floorBits_succ h]
    rcases Nat.lt_or_ge (floorBits num den) c with hc | hc
    · obtain ⟨near, strict⟩ := above hc
      exact ⟨near, fun tie other => absurd tie (strict other).ne⟩
    · obtain ⟨near, -⟩ := below hc
      exact ⟨by omega, fun tie _ => by omega⟩
  · rename_i down
    obtain down' : roundMag num den = floorBits num den := by omega
    rw [down', distance_floorBits h]
    rcases Nat.lt_or_ge (floorBits num den) c with hc | hc
    · obtain ⟨near, -⟩ := above hc
      exact ⟨by omega, fun tie _ => by omega⟩
    · obtain ⟨near, strict⟩ := below hc
      exact ⟨near, fun tie other => absurd tie (strict other).ne⟩

/-! ### The overflow threshold (log 15) -/

/-- The middle between the largest finite magnitude and 2^128, in units of 2^-149. -/
def overflowAt : Nat := (2 ^ 25 - 1) * 2 ^ 252

/-- Below the threshold the quantum is at most `2^253`, and there the significand does not carry to `2^24`. -/
theorem roundMag_lt_of_below {num den : Nat} (h : 0 < den) (below : num < den * overflowAt) :
    roundMag num den < 0x7F800000 := by
  have quotient : num / den < 2 ^ (25 + 252) := (Nat.div_lt_of_lt_mul below).trans (by
    rw [overflowAt, pow_add]
    exact Nat.mul_lt_mul_of_pos_right (by decide) (Nat.two_pow_pos 252))
  have quantum : quantumExp (num / den) ≤ 253 := by
    unfold quantumExp
    rcases Nat.eq_zero_or_pos (num / den) with zero | pos
    · rw [zero]; decide
    · have := (Nat.log2_lt (Nat.pos_iff_ne_zero.mp pos)).mpr quotient
      omega
  have significand := quantumExp_upper (num / den)
  have bits : floorBits num den =
      quantumExp (num / den) * 2 ^ 23 + num / den / 2 ^ quantumExp (num / den) := rfl
  obtain ⟨exact_, less, remainder⟩ := floorBits_spec (num := num) h
  have value := magOf_floorBits num den
  have rounded := roundMag_eq (num := num) (den := den)
  rw [← remainder] at rounded
  by_cases last : quantumExp (num / den) = 253 ∧ num / den / 2 ^ quantumExp (num / den) = 2 ^ 24 - 1
  · obtain ⟨top, full⟩ := last
    rw [top] at full value bits
    rw [full] at value bits
    have width : gap num den = 2 * (den * 2 ^ 252) := by rw [gap, top]; ring
    have low : magOf (floorBits num den) * den = (2 ^ 25 - 2) * (den * 2 ^ 252) := by rw [value]; ring
    have high : den * overflowAt = (2 ^ 25 - 1) * (den * 2 ^ 252) := by rw [overflowAt]; ring
    rw [low] at exact_
    rw [high] at below
    generalize den * 2 ^ 252 = half at width exact_ below
    clear quotient quantum significand value low high full
    rw [if_neg (by omega)] at rounded
    omega
  · have room : floorBits num den + 1 < 0x7F800000 := by
      rw [bits]
      clear bits value exact_ less rounded remainder below quotient
      generalize num / den / 2 ^ quantumExp (num / den) = m at *
      generalize quantumExp (num / den) = k at *
      omega
    clear bits value exact_ less remainder below quotient last significand quantum
    split at rounded <;> omega

theorem roundMag_overflowAt : roundMag overflowAt 1 = 0x7F800000 := by decide

theorem roundMag_eq_inf_iff {num den : Nat} (h : 0 < den) :
    roundMag num den = 0x7F800000 ↔ den * overflowAt ≤ num := by
  constructor
  · intro inf
    by_contra below
    exact absurd inf (roundMag_lt_of_below h (not_le.mp below)).ne
  · intro above
    have mono := roundMag_mono overflowAt 1 num den one_pos h (by rw [mul_one, mul_comm]; exact above)
    rw [roundMag_overflowAt] at mono
    exact le_antisymm (roundMag_le_inf _ _) mono

/-- Settles O16. -/
theorem roundingGivesTheNearest : Obligations.RoundingGivesTheNearest := by
  intro num den h
  refine ⟨roundMag_eq_inf_iff h, fun finite c hc => ?_⟩
  intro dist
  have value : ∀ b, b < 0x7F800000 → dist b = distance num den b := fun b hb => by
    simp only [dist, distance, fMag_ofNat (show b < 2 ^ 31 by omega)]
  rw [value _ finite, value c hc]
  exact roundMag_nearest h finite c

end Sys2Proof.Proofs
end

section
/-! The operations of binary32 (00_scope R12 to R16) by their values, and where rounding is exact. -/

namespace Sys2Proof.Proofs

open Sys2Proof Sys2Proof.Machine Sys2Proof.Statements

/-! ### Signs, zeros and infinities (R12) -/

theorem signBit_eq_getLsbD (v : F32) : signBit v = v.getLsbD 31 := BitVec.msb_eq_getLsbD_last v

/-- A value is its sign and its bits 30:0. -/
theorem packSign_signBit_magBits (v : F32) : packSign (signBit v) (magBits v) = v := by
  have bound := v.isLt
  apply BitVec.eq_of_toNat_eq
  rw [packSign_toNat _ _ (by rw [magBits_eq]; omega), magBits_eq, signBit, BitVec.msb_eq_decide]
  by_cases h : 2 ^ 31 ≤ v.toNat
  · simp only [show 2 ^ (32 - 1) ≤ v.toNat from h, decide_true, if_true]
    omega
  · simp only [show ¬2 ^ (32 - 1) ≤ v.toNat from h, decide_false, Bool.false_eq_true, if_false]
    omega

theorem magOf_zero : magOf 0 = 0 := rfl

theorem magOf_eq_zero_iff (b : Nat) : magOf b = 0 ↔ b = 0 := by
  rw [← magOf_zero]
  exact magOf_strictMono.injective.eq_iff

theorem fVal_eq_magOf (v : F32) : fVal v = if signBit v then -(magOf (magBits v) : Int) else magOf (magBits v) := by
  rw [fVal, fMag_eq_magOf]

theorem fVal_eq_zero_iff (v : F32) : fVal v = 0 ↔ isZero v = true := by
  rw [← Int.natAbs_eq_zero, fVal_natAbs, fMag_eq_magOf, magOf_eq_zero_iff, isZero, beq_iff_eq]

/-- The order of the keys is the order of the values. -/
theorem fKey_fVal (a b : F32) : (fKey a < fKey b ↔ fVal a < fVal b) ∧ (fKey a ≤ fKey b ↔ fVal a ≤ fVal b) := by
  have lt := magOf_strictMono.lt_iff_lt (a := magBits a) (b := magBits b)
  have gt := magOf_strictMono.lt_iff_lt (a := magBits b) (b := magBits a)
  have zeroA := magOf_eq_zero_iff (magBits a)
  have zeroB := magOf_eq_zero_iff (magBits b)
  rw [fVal_eq_magOf, fVal_eq_magOf, fKey, fKey]
  cases signBit a <;> cases signBit b <;> simp only [Bool.false_eq_true, if_true, if_false] <;> omega

theorem flt_iff_fVal {a b : F32} (ha : isFinite a = true) (hb : isFinite b = true) :
    flt a b = true ↔ fVal a < fVal b := by
  rw [flt_iff, (fKey_fVal a b).1]
  exact ⟨fun h => h.2.2, fun h => ⟨isNaN_of_finite a ha, isNaN_of_finite b hb, h⟩⟩

theorem fle_iff_fVal {a b : F32} (ha : isFinite a = true) (hb : isFinite b = true) :
    fle a b = true ↔ fVal a ≤ fVal b := by
  rw [fle_iff, (fKey_fVal a b).2]
  exact ⟨fun h => h.2.2, fun h => ⟨isNaN_of_finite a ha, isNaN_of_finite b hb, h⟩⟩

/-- The keys of finite numbers lie strictly between those of the infinities. -/
theorem fKey_of_finite {a : F32} (ha : isFinite a = true) : -0x7F800000 < fKey a ∧ fKey a < 0x7F800000 := by
  have bound := (isFinite_iff a).mp ha
  unfold fKey
  split <;> omega

theorem fabs_eq (v : F32) : fabs v = 0#1 ++ v.extractLsb' 0 31 := by
  apply BitVec.eq_of_toNat_eq
  rw [fabs, BitVec.toNat_and, BitVec.toNat_append, BitVec.extractLsb'_toNat]
  simp only [BitVec.toNat_ofNat, Nat.shiftRight_zero, Nat.zero_mod, Nat.zero_shiftLeft, Nat.zero_or]
  exact Nat.and_two_pow_sub_one_eq_mod v.toNat 31

theorem fneg_eq (v : F32) : fneg v = ~~~(v.extractLsb' 31 1) ++ v.extractLsb' 0 31 := by
  apply BitVec.eq_of_getLsbD_eq
  intro i hi
  have sign : (0x80000000#32).getLsbD i = decide (i = 31) := by
    rw [show 0x80000000#32 = BitVec.twoPow 32 31 from rfl, BitVec.getLsbD_twoPow]
    simp only [show 31 < 32 by omega, decide_true, Bool.true_and, eq_comm]
  rw [fneg, BitVec.getLsbD_xor, sign, BitVec.getLsbD_append]
  by_cases low : i < 31
  · simp [low, show i ≠ 31 by omega]
  · obtain rfl : i = 31 := by omega
    simp

/-- Settles O17. -/
theorem comparisonsFollowTheValues : Obligations.ComparisonsFollowTheValues := by
  refine ⟨fun v => ⟨?_, ?_, fun finite => ?_, fabs_eq v, fneg_eq v⟩,
    fun a b ha hb => ⟨flt_iff_fVal ha hb, fle_iff_fVal ha hb⟩, fun a ha => ?_, by decide, by decide, by decide,
    by decide, fun a b nan => ?_⟩
  · exact bne_iff_ne
  · rw [isNaN, Bool.and_eq_true, beq_iff_eq, bne_iff_ne]
    exact Iff.rfl
  · rw [fVal, fMag, signBit_eq_getLsbD, Nat.shiftLeft_eq]
    cases v.getLsbD 31
    · exact (one_mul _).symm
    · exact (neg_one_mul _).symm
  · have nan := isNaN_of_finite a ha
    obtain ⟨above, below⟩ := fKey_of_finite ha
    have inf : isNaN 0x7F800000#32 = false ∧ fKey 0x7F800000#32 = 0x7F800000 := by decide
    have negInf : isNaN 0xFF800000#32 = false ∧ fKey 0xFF800000#32 = -0x7F800000 := by decide
    simp only [flt, fle, nan, inf, negInf, Bool.not_false, Bool.true_and, decide_eq_true_eq, decide_eq_false_iff_not]
    omega
  · refine ⟨flt_eq_false_of_isNaN nan, ?_⟩
    rcases nan with nan | nan <;> simp [fle, nan]

end Sys2Proof.Proofs
end

section
/-! The four operations and the conversion of binary32 as single roundings (00_scope R13, R14, R16), and the operations
that are exact. -/

namespace Sys2Proof.Proofs

open Sys2Proof Sys2Proof.Machine Sys2Proof.Statements

/-! ### One rounding (R13) -/

theorem roundsOnce_roundSigned (neg : Bool) (num den : Nat) : RoundsOnce (roundSigned neg num den) neg num den := by
  have bound := roundMag_le_inf num den
  refine ⟨?_, magBits_packSign neg _ (by omega)⟩
  rw [← signBit_eq_getLsbD]
  exact signBit_packSign neg _ (by omega)

theorem zeroOf_eq_packSign (neg : Bool) : zeroOf neg = packSign neg 0 := by cases neg <;> rfl

theorem infOf_eq_packSign (neg : Bool) : infOf neg = packSign neg 0x7F800000 := by cases neg <;> rfl

theorem signsDiffer_eq (a b : F32) : signsDiffer a b = (signBit a != signBit b) := by
  rw [signsDiffer, signBit_eq_getLsbD, signBit_eq_getLsbD]

theorem signBit_fneg (v : F32) : signBit (fneg v) = !signBit v := by
  rw [signBit_eq_getLsbD, signBit_eq_getLsbD, fneg, BitVec.getLsbD_xor, show (0x80000000#32).getLsbD 31 = true from rfl,
    Bool.xor_true]

theorem fVal_fneg (v : F32) : fVal (fneg v) = -fVal v := by
  rw [fVal, fVal, fMag_fneg, signBit_fneg]
  cases signBit v <;> simp

@[simp] theorem isNaN_fneg (v : F32) : isNaN (fneg v) = isNaN v := by
  rw [Bool.eq_iff_iff, isNaN_iff, isNaN_iff, magBits_fneg]

theorem fneg_infOf (neg : Bool) : fneg (infOf neg) = infOf !neg := by cases neg <;> rfl

/-! ### The operations on finite operands -/

section
variable {a b : F32}

theorem fadd_of_finite (ha : isFinite a = true) (hb : isFinite b = true) :
    fadd a b = if fVal a + fVal b = 0 then zeroOf (signBit a && signBit b)
      else roundSigned (decide (fVal a + fVal b < 0)) (fVal a + fVal b).natAbs 1 := by
  simp only [fadd, isNaN_of_finite a ha, isNaN_of_finite b hb, isInf_of_finite a ha, isInf_of_finite b hb,
    Bool.or_self, Bool.false_eq_true, if_false, zeroOf_eq_packSign]

theorem fmul_of_finite (ha : isFinite a = true) (hb : isFinite b = true) :
    fmul a b = roundSigned (signBit a != signBit b) (fMag a * fMag b) fUnit := by
  simp only [fmul, isNaN_of_finite a ha, isNaN_of_finite b hb, isInf_of_finite a ha, isInf_of_finite b hb,
    Bool.or_self, Bool.false_eq_true, if_false]

theorem fdiv_zero_of_finite (ha : isFinite a = true) (hb : isFinite b = true) (zero : isZero b = true) :
    fdiv a b = if isZero a then canonicalNaN else infOf (signBit a != signBit b) := by
  simp only [fdiv, isNaN_of_finite a ha, isNaN_of_finite b hb, isInf_of_finite a ha, isInf_of_finite b hb, zero,
    Bool.or_self, Bool.false_eq_true, if_false, if_true, infOf_eq_packSign]

theorem fadd_roundsOnce (ha : isFinite a = true) (hb : isFinite b = true) :
    let z := fVal a + fVal b
    if z = 0 then fadd a b = zeroOf (a.getLsbD 31 && b.getLsbD 31)
    else RoundsOnce (fadd a b) (decide (z < 0)) z.natAbs 1 := by
  intro z
  rw [fadd_of_finite ha hb, ← signBit_eq_getLsbD, ← signBit_eq_getLsbD]
  by_cases zero : z = 0
  · rw [if_pos zero, if_pos zero]
  · rw [if_neg zero, if_neg zero]
    exact roundsOnce_roundSigned _ _ _

theorem fsub_roundsOnce (ha : isFinite a = true) (hb : isFinite b = true) :
    let z := fVal a - fVal b
    if z = 0 then fsub a b = zeroOf (a.getLsbD 31 && !b.getLsbD 31)
    else RoundsOnce (fsub a b) (decide (z < 0)) z.natAbs 1 := by
  have sum := fadd_roundsOnce ha (by rw [isFinite_fneg]; exact hb : isFinite (fneg b) = true)
  rw [fVal_fneg, ← Int.sub_eq_add_neg, ← signBit_eq_getLsbD (fneg b), signBit_fneg, signBit_eq_getLsbD b] at sum
  exact sum

theorem fdiv_roundsOnce (ha : isFinite a = true) (hb : isFinite b = true) :
    (fVal b ≠ 0 → RoundsOnce (fdiv a b) (signsDiffer a b) ((fVal a).natAbs * 2 ^ 149) (fVal b).natAbs) ∧
      (fVal b = 0 → fVal a ≠ 0 → fdiv a b = infOf (signsDiffer a b)) ∧
      (fVal b = 0 → fVal a = 0 → fdiv a b = 0x7FC00000#32) := by
  rw [ne_eq, ne_eq, fVal_eq_zero_iff a, fVal_eq_zero_iff b, fVal_natAbs, fVal_natAbs, signsDiffer_eq]
  refine ⟨fun nonzero => ?_, fun zero nonzero => ?_, fun zero both => ?_⟩
  · rw [fdiv_finite a b ha hb (Bool.eq_false_of_not_eq_true nonzero)]
    exact roundsOnce_roundSigned _ _ _
  · rw [fdiv_zero_of_finite ha hb zero, if_neg nonzero]
  · rw [fdiv_zero_of_finite ha hb zero, if_pos both]
    rfl

/-! ### NaNs and infinities (R14, log 15) -/

theorem operations_of_isNaN (h : isNaN a = true ∨ isNaN b = true) :
    fadd a b = canonicalNaN ∧ fsub a b = canonicalNaN ∧ fmul a b = canonicalNaN ∧ fdiv a b = canonicalNaN := by
  have nan : (isNaN a || isNaN b) = true := Bool.or_eq_true_iff.mpr h
  simp only [fadd, fsub, fmul, fdiv, isNaN_fneg, nan, if_true, and_self]

theorem infOf_fields (n : Bool) :
    isNaN (infOf n) = false ∧ isInf (infOf n) = true ∧ isZero (infOf n) = false ∧ signBit (infOf n) = n := by
  revert n; decide

theorem operations_of_infOf (n : Bool) (hb : isFinite b = true) :
    fadd (infOf n) b = infOf n ∧ fadd b (infOf n) = infOf n ∧
    fsub (infOf n) b = infOf n ∧ fsub b (infOf n) = infOf (!n) ∧
    fmul (infOf n) b = (if fVal b = 0 then 0x7FC00000#32 else infOf (signsDiffer (infOf n) b)) ∧
    fmul b (infOf n) = (if fVal b = 0 then 0x7FC00000#32 else infOf (signsDiffer (infOf n) b)) ∧
    fdiv (infOf n) b = infOf (signsDiffer (infOf n) b) ∧ fdiv b (infOf n) = zeroOf (signsDiffer (infOf n) b) := by
  have nan := isNaN_of_finite b hb
  have inf := isInf_of_finite b hb
  have sum : ∀ m c, isFinite c = true → fadd (infOf m) c = infOf m ∧ fadd c (infOf m) = infOf m := fun m c hc => by
    obtain ⟨infNaN, infInf, -, -⟩ := infOf_fields m
    simp only [fadd, isNaN_of_finite c hc, isInf_of_finite c hc, infNaN, infInf, Bool.or_self, Bool.false_and,
      Bool.false_eq_true, if_false, if_true, and_self]
  obtain ⟨infNaN, infInf, infZero, infSign⟩ := infOf_fields n
  have swap : (signBit b != n) = (n != signBit b) := Bool.xor_comm _ _
  refine ⟨(sum n b hb).1, (sum n b hb).2, (sum n (fneg b) (by rwa [isFinite_fneg])).1, ?_, ?_, ?_, ?_, ?_⟩
  · rw [fsub, fneg_infOf]
    exact (sum _ b hb).2
  all_goals
    simp only [fmul, fdiv, nan, inf, infNaN, infInf, infZero, infSign, signsDiffer_eq, fVal_eq_zero_iff, swap,
      Bool.or_self, Bool.or_true, Bool.or_false, Bool.false_or, Bool.false_eq_true, if_false, if_true,
      ← infOf_eq_packSign, ← zeroOf_eq_packSign, canonicalNaN]

end

/-- Settles O60. -/
theorem arithmeticRoundsOnce : Obligations.ArithmeticRoundsOnce := by
  refine ⟨fun a b ha hb => ⟨fadd_roundsOnce ha hb, fsub_roundsOnce ha hb, ?_, fdiv_roundsOnce ha hb⟩,
    fun n => roundsOnce_roundSigned _ _ _, fun a b nan => operations_of_isNaN nan,
    fun n b hb => operations_of_infOf n hb, by decide⟩
  rw [fmul_of_finite ha hb, fVal_natAbs, fVal_natAbs, signsDiffer_eq]
  exact roundsOnce_roundSigned _ _ _

/-! ### Exact results -/

/-- A magnitude that is a binary32 magnitude is rounded to itself. -/
theorem roundMag_exact {b den : Nat} (h : 0 < den) (hb : b < 0x7F800000) : roundMag (magOf b * den) den = b := by
  have largest : magOf 0x7F7FFFFF < overflowAt := by decide
  have below : magOf b < overflowAt := (magOf_strictMono.monotone (show b ≤ 0x7F7FFFFF by omega)).trans_lt largest
  have finite : roundMag (magOf b * den) den < 0x7F800000 :=
    roundMag_lt_of_below h (by rw [mul_comm]; exact Nat.mul_lt_mul_of_pos_left below h)
  have near := (roundMag_nearest h finite b).1
  have zero : distance (magOf b * den) den b = 0 := by simp [distance]
  rw [zero, distance, Nat.le_zero, Int.natAbs_eq_zero, sub_eq_zero] at near
  exact magOf_strictMono.injective (Nat.eq_of_mul_eq_mul_right h (by exact_mod_cast near))

theorem roundSigned_exact {neg : Bool} {b den : Nat} (h : 0 < den) (hb : b < 0x7F800000) :
    roundSigned neg (magOf b * den) den = packSign neg b := by rw [roundSigned, roundMag_exact h hb]

theorem fUnit_pos : 0 < fUnit := Nat.two_pow_pos 149

theorem fMag_fOne : fMag fOne = fUnit := by decide

theorem isNaN_eq_false_iff (v : F32) : isNaN v = false ↔ isFinite v = true ∨ isInf v = true := by
  rw [← Bool.not_eq_true, isNaN_iff, isFinite_iff, isInf_iff]
  omega

theorem eq_infOf_of_isInf {v : F32} (h : isInf v = true) : v = infOf (signBit v) := by
  rw [infOf_eq_packSign, ← (isInf_iff v).mp h, packSign_signBit_magBits]

theorem fmul_fOne {v : F32} (h : isNaN v = false) : fmul v fOne = v := by
  rcases (isNaN_eq_false_iff v).mp h with finite | inf
  · rw [fmul_of_finite finite (by decide), fMag_fOne, fMag_eq_magOf,
      roundSigned_exact fUnit_pos ((isFinite_iff v).mp finite), show signBit fOne = false by decide, Bool.bne_false,
      packSign_signBit_magBits]
  · obtain ⟨-, -, -, -, product, -⟩ := operations_of_infOf (b := fOne) (signBit v) (by decide)
    rw [eq_infOf_of_isInf inf, product, if_neg (by decide), signsDiffer_eq, (infOf_fields _).2.2.2,
      show signBit fOne = false by decide, Bool.bne_false]

/-- Settles O21. -/
theorem multiplyingByOneKeepsBits : Obligations.MultiplyingByOneKeepsBits := by
  refine ⟨fun v => fmul_fOne, fun v nan => ?_, by decide⟩
  obtain ⟨-, -, product, -⟩ := operations_of_isNaN (b := fOne) (.inl nan)
  exact product

/-- A multiple of `2^k` with a significand of at most 24 bits is a magnitude. -/
theorem exists_magOf_eq {n k : Nat} (upper : n ≤ 2 ^ 24) : ∃ b, magOf b = n * 2 ^ k := by
  induction k generalizing n with
  | zero => exact ⟨n, by simpa using magOf_quantum (k := 0) upper nofun⟩
  | succ k ih =>
    rcases Nat.lt_or_ge n (2 ^ 23) with small | large
    · obtain ⟨b, hb⟩ := ih (n := n * 2) (by omega)
      exact ⟨b, by rw [hb, pow_succ]; ring⟩
    · exact ⟨_, magOf_quantum (k := k + 1) upper fun _ => large⟩

/-- Settles O19: `n` is a magnitude, and rounding keeps it. -/
theorem smallIntegersConvertExactly : Obligations.SmallIntegersConvertExactly := by
  intro n small
  obtain ⟨b, value⟩ := exists_magOf_eq (k := 149) small
  have finite : b < 0x7F800000 := by
    have ceiling : 2 ^ 24 * 2 ^ 149 < magOf 0x7F800000 := by decide
    refine magOf_strictMono.lt_iff_lt.mp ?_
    rw [value]
    exact (Nat.mul_le_mul_right _ small).trans_lt ceiling
  have converted : u32tof n = packSign false b := by
    rw [u32tof, fUnit, ← value, ← roundSigned_exact (neg := false) one_pos finite, mul_one]
  have bits : magBits (u32tof n) = b := by rw [converted, magBits_packSign _ _ (by omega)]
  refine ⟨(isFinite_iff _).mpr (by rw [bits]; exact finite), ?_⟩
  rw [fVal_eq_magOf, bits, converted, signBit_packSign _ _ (by omega), value]
  simp

end Sys2Proof.Proofs
end

section
/-! Zeros and bounds in the per-sample arithmetic: the oscillator at phase zero (41_oscillator R107), the bounded
output of the waveshaper (42_waveshaper R114) and the dry Delay (40_delay_line R101). -/

namespace Sys2Proof.Proofs

open Sys2Proof Sys2Proof.Machine Sys2Proof.Statements

/-! ### Operations on zeros -/

theorem zeroOf_fields (n : Bool) : isFinite (zeroOf n) = true ∧ isZero (zeroOf n) = true ∧ signBit (zeroOf n) = n := by
  revert n; decide

theorem fMag_eq_zero_iff (v : F32) : fMag v = 0 ↔ isZero v = true := by
  rw [← fVal_natAbs, Int.natAbs_eq_zero, fVal_eq_zero_iff]

theorem roundSigned_zero (neg : Bool) {den : Nat} (h : 0 < den) : roundSigned neg 0 den = zeroOf neg := by
  have exact_ := roundSigned_exact (neg := neg) (b := 0) h (by decide)
  rw [magOf_zero, Nat.zero_mul] at exact_
  rw [exact_, zeroOf_eq_packSign]

section
variable {a b : F32}

theorem fmul_of_isZero (ha : isFinite a = true) (hb : isFinite b = true) (zero : isZero a = true ∨ isZero b = true) :
    fmul a b = zeroOf (signBit a != signBit b) := by
  have product : fMag a * fMag b = 0 := by
    rw [Nat.mul_eq_zero, fMag_eq_zero_iff, fMag_eq_zero_iff]
    exact zero
  rw [fmul_of_finite ha hb, product, roundSigned_zero _ fUnit_pos]

theorem fdiv_of_isZero (ha : isFinite a = true) (hb : isFinite b = true) (zero : isZero a = true)
    (nonzero : isZero b = false) : fdiv a b = zeroOf (signBit a != signBit b) := by
  have divisor : 0 < fMag b := Nat.pos_of_ne_zero fun h => by
    rw [fMag_eq_zero_iff, nonzero] at h
    cases h
  rw [fdiv_finite a b ha hb nonzero, (fMag_eq_zero_iff a).mpr zero, Nat.zero_mul, roundSigned_zero _ divisor]

/-- Adding a zero keeps a finite number, though -0.0 may become +0.0. -/
theorem fadd_zero_right (ha : isFinite a = true) (hb : isFinite b = true) (zero : isZero b = true) :
    isFinite (fadd a b) = true ∧ fVal (fadd a b) = fVal a := by
  have finite := (isFinite_iff a).mp ha
  rw [fadd_of_finite ha hb, (fVal_eq_zero_iff b).mpr zero, Int.add_zero]
  split
  · rename_i none
    obtain ⟨finiteZero, isZeroZero, -⟩ := zeroOf_fields (signBit a && signBit b)
    exact ⟨finiteZero, ((fVal_eq_zero_iff _).mpr isZeroZero).trans none.symm⟩
  · rename_i some_
    have sign : decide (fVal a < 0) = signBit a := by
      rw [fVal] at some_ ⊢
      cases signBit a <;> simp only [Bool.false_eq_true, if_true, if_false, decide_eq_true_eq,
        decide_eq_false_iff_not] at some_ ⊢ <;> omega
    have same : roundSigned (signBit a) (fMag a) 1 = a := by
      rw [fMag_eq_magOf, ← Nat.mul_one (magOf _), roundSigned_exact one_pos finite, packSign_signBit_magBits]
    rw [sign, fVal_natAbs, same]
    exact ⟨ha, rfl⟩

end

/-! ### The oscillator at phase zero (R107) -/

theorem fsin_zeroOf (n : Bool) : fsin (zeroOf n) = zeroOf n := if_pos (zeroOf_fields n).2.1

theorem u32tof_bounds (n : Word) :
    isFinite (u32tof n) = true ∧ signBit (u32tof n) = false ∧ magBits (u32tof n) ≤ 0x4F800000 := by
  have bound : magBits (u32tof n) ≤ 0x4F800000 := by
    have above := roundMag_le_inf (n.toNat * fUnit) 1
    have largest : roundMag (2 ^ 32 * fUnit) 1 = 0x4F800000 := by decide
    rw [u32tof, roundSigned, magBits_packSign _ _ (by omega), ← largest]
    exact roundMag_mono _ _ _ _ one_pos one_pos
      (Nat.mul_le_mul_right _ (Nat.mul_le_mul_right _ n.isLt.le))
  refine ⟨(isFinite_iff _).mpr (by omega), ?_, bound⟩
  have above := roundMag_le_inf (n.toNat * fUnit) 1
  exact signBit_packSign _ _ (by omega)

/-- `TWO_PI · u32tof(i)` does not overflow. -/
theorem twoPi_index (i : Word) :
    isFinite (fmul Config.twoPi (u32tof i)) = true ∧ signBit (fmul Config.twoPi (u32tof i)) = false := by
  obtain ⟨finite, positive, bound⟩ := u32tof_bounds i
  have above := roundMag_le_inf (fMag Config.twoPi * fMag (u32tof i)) fUnit
  have factor : fMag (u32tof i) ≤ fMag 0x4F800000#32 := fMag_mono _ _ (bound.trans (by decide))
  have room : fMag Config.twoPi * fMag 0x4F800000#32 < fUnit * overflowAt := by decide
  rw [fmul_of_finite (by decide) finite, isFinite_roundSigned, roundSigned, signBit_packSign _ _ (by omega), positive]
  exact ⟨roundMag_lt_of_below fUnit_pos ((Nat.mul_le_mul_left _ factor).trans_lt room), by decide⟩

/-- A zero factor in the phase makes the oscillator a zero with the sign of the product. -/
theorem osc_of_isZero {i : Word} {rate : F32} (finite : isFinite rate = true)
    (zero : isZero (fmul Config.twoPi (u32tof i)) = true ∨ isZero rate = true) :
    osc i rate = zeroOf (signBit rate) := by
  obtain ⟨finiteIndex, positive⟩ := twoPi_index i
  obtain ⟨finiteZero, isZeroZero, signZero⟩ := zeroOf_fields (signBit rate)
  rw [osc, oscPhase, fmul_of_isZero finiteIndex finite zero, positive, Bool.false_bne,
    fdiv_of_isZero finiteZero (by decide) isZeroZero (by decide), signZero,
    show signBit Config.fs = false by decide, Bool.bne_false, fsin_zeroOf]

/-- Settles O22. -/
theorem oscillatorPhaseZero : Obligations.OscillatorPhaseZero := by
  refine ⟨fun rate finite => ?_, fun i => ?_⟩
  · rw [osc_of_isZero finite (.inl (by decide))]
    cases signBit rate <;> rfl
  · rw [osc_of_isZero (by decide) (.inr (by decide))]
    rfl

/-! ### The output of the waveshaper (R114) -/

theorem isNaN_packSign {neg : Bool} {mag : Nat} (h : mag ≤ 0x7F800000) : isNaN (packSign neg mag) = false := by
  rw [← Bool.not_eq_true, isNaN_iff, magBits_packSign _ _ (by omega)]
  omega

theorem isNaN_roundSigned (neg : Bool) (num den : Nat) : isNaN (roundSigned neg num den) = false :=
  isNaN_packSign (roundMag_le_inf num den)

theorem magBits_fabs (v : F32) : magBits (fabs v) = magBits v := by
  have bound := v.isLt
  rw [magBits_eq, magBits_eq, fabs_eq, BitVec.toNat_append, BitVec.extractLsb'_toNat]
  simp

theorem isNaN_fabs (v : F32) : isNaN (fabs v) = isNaN v := by
  rw [Bool.eq_iff_iff, isNaN_iff, isNaN_iff, magBits_fabs]

theorem fKey_fabs (v : F32) : fKey (fabs v) = magBits v := by
  have sign : signBit (fabs v) = false := by
    rw [signBit_eq_getLsbD, fabs_eq, BitVec.getLsbD_append]
    simp
  rw [fKey, sign, magBits_fabs]
  rfl

/-- Magnitudes compare as their bits. -/
theorem fle_fabs_iff (a b : F32) :
    fle (fabs a) (fabs b) = true ↔ isNaN a = false ∧ isNaN b = false ∧ magBits a ≤ magBits b := by
  rw [fle_iff, isNaN_fabs, isNaN_fabs, fKey_fabs, fKey_fabs, Int.ofNat_le]

theorem magBits_le_of_in_range {v : F32} (lower : fle fNegOne v = true) (upper : fle v fOne = true) :
    magBits v ≤ magBits fOne := by
  obtain ⟨-, -, below⟩ := (fle_iff _ _).mp lower
  obtain ⟨-, -, above⟩ := (fle_iff _ _).mp upper
  have one : fKey fOne = magBits fOne := by decide
  have negOne : fKey fNegOne = -magBits fOne := by decide
  rw [negOne] at below
  rw [one] at above
  unfold fKey at below above
  split at below <;> rename_i sign
  · rw [if_pos sign] at above
    omega
  · rw [if_neg sign] at above
    omega

/-- A factor of magnitude at most 1 does not enlarge a finite number. -/
theorem magBits_fmul_le {a b : F32} (small : magBits a ≤ magBits fOne) (finite : isFinite b = true) :
    isNaN (fmul a b) = false ∧ magBits (fmul a b) ≤ magBits b := by
  have one : magBits fOne = 0x3F800000 := by decide
  have finiteA : isFinite a = true := (isFinite_iff a).mpr (by omega)
  have above := roundMag_le_inf (fMag a * fMag b) fUnit
  rw [fmul_of_finite finiteA finite]
  refine ⟨isNaN_roundSigned _ _ _, ?_⟩
  rw [roundSigned, magBits_packSign _ _ (by omega)]
  calc roundMag (fMag a * fMag b) fUnit
      ≤ roundMag (fMag b * fUnit) fUnit := by
        refine roundMag_mono _ _ _ _ fUnit_pos fUnit_pos (Nat.mul_le_mul_right _ ?_)
        rw [mul_comm, ← fMag_fOne]
        exact Nat.mul_le_mul_left _ (fMag_mono _ _ small)
    _ = magBits b := by rw [fMag_eq_magOf, roundMag_exact fUnit_pos ((isFinite_iff b).mp finite)]

/-- The gain stage makes no NaN: of an infinite sample because the gain is not 0. -/
theorem isNaN_gain {x drive : F32} (finite : isFinite drive = true)
    (sample : isFinite x = true ∨ (isInf x = true ∧ flt fZero drive = true)) : isNaN (fmul x drive) = false := by
  rcases sample with finiteX | ⟨inf, above⟩
  · rw [fmul_of_finite finiteX finite]
    exact isNaN_roundSigned _ _ _
  · have nonzero : fVal drive ≠ 0 := by
      have gain := (flt_iff_fVal (by decide) finite).mp above
      have zero : fVal fZero = 0 := by decide
      omega
    obtain ⟨-, -, -, -, product, -⟩ := operations_of_infOf (signBit x) finite
    rw [eq_infOf_of_isInf inf, product, if_neg nonzero]
    exact (infOf_fields _).1

theorem isNaN_fdiv {v c : F32} (nan : isNaN v = false) (finite : isFinite c = true) (nonzero : isZero c = false) :
    isNaN (fdiv v c) = false := by
  rcases (isNaN_eq_false_iff v).mp nan with finiteV | inf
  · rw [fdiv_finite v c finiteV finite nonzero]
    exact isNaN_roundSigned _ _ _
  · obtain ⟨-, -, -, -, -, -, quotient, -⟩ := operations_of_infOf (signBit v) finite
    rw [eq_infOf_of_isInf inf, quotient]
    exact (infOf_fields _).1

/-- Settles O47: clip bounds the sample by 1, the tone stage keeps that bound, and the level scales it. -/
theorem waveshaperOutputIsBounded : Obligations.WaveshaperOutputIsBounded := by
  intro tone drive wet x d divisor finiteDrive _ toneSmall finiteLevel sample
  have divisors : ∀ k ∈ [fTen, fTwenty, fThirty], isFinite k = true ∧ isZero k = false := by
    simp only [List.mem_cons, List.not_mem_nil, or_false]
    rintro k (rfl | rfl | rfl) <;> decide
  obtain ⟨finiteKf, nonzeroKf⟩ := divisors _ divisor
  obtain ⟨lower, upper⟩ := clip_in_range (isNaN_fdiv (isNaN_gain finiteDrive sample) finiteKf nonzeroKf)
  have clipped := magBits_le_of_in_range lower upper
  have toned : magBits (if tone = true then fmul (clip (fdiv (fmul x drive) d.kf)) d.ts
      else clip (fdiv (fmul x drive) d.kf)) ≤ magBits fOne := by
    split
    · rename_i on
      have one : fabs fOne = fOne ∧ magBits fOne = 0x3F800000 := by decide
      obtain ⟨fabsOne, bitsOne⟩ := one
      obtain ⟨-, -, small⟩ := (fle_fabs_iff d.ts fOne).mp (by rw [fabsOne]; exact toneSmall on)
      exact (magBits_fmul_le clipped ((isFinite_iff _).mpr (by omega))).2.trans small
    · exact clipped
  obtain ⟨nan, bounded⟩ := magBits_fmul_le toned finiteLevel
  simp only [shapeSample, if_true, Bool.false_eq_true, if_false]
  exact (fle_fabs_iff _ _).mpr ⟨nan, isNaN_of_finite _ finiteLevel, bounded⟩

/-! ### The dry Delay (R101) -/

/-- With the mix +0.0 an output of the recurrence is the input as a number. -/
theorem dry_output {x delayed : F32} (finiteX : isFinite x = true) (finiteDelayed : isFinite delayed = true) :
    isFinite (fadd (fmul x (fsub fOne fZero)) (fmul delayed fZero)) = true ∧
      fVal (fadd (fmul x (fsub fOne fZero)) (fmul delayed fZero)) = fVal x := by
  obtain ⟨finiteZero, isZeroZero, -⟩ := zeroOf_fields (signBit delayed != signBit fZero)
  rw [show fsub fOne fZero = fOne by decide, fmul_fOne (isNaN_of_finite x finiteX),
    fmul_of_isZero finiteDelayed (by decide) (.inr (by decide))]
  exact fadd_zero_right finiteX finiteZero isZeroZero

theorem delayedIn_congr {w w' : Nat → F32} {c j : Nat} (positive : 0 < c) (agree : ∀ k, k < j → w k = w' k) :
    delayedIn w c j = delayedIn w' c j := by
  unfold delayedIn
  split
  · rfl
  · exact agree _ (by omega)

/-- The recurrence of R92 has one solution over a frame. -/
theorem delay_recurrence_unique {x x' w w' : Nat → F32} {fb : F32} {c n : Nat} (positive : 0 < c)
    (samples : ∀ j, j < n → x j = x' j)
    (recurrence : ∀ j, j < n → w j = fadd (x j) (fmul (delayedIn w c j) fb))
    (recurrence' : ∀ j, j < n → w' j = fadd (x' j) (fmul (delayedIn w' c j) fb)) :
    ∀ j, j < n → w j = w' j := by
  intro j
  induction j using Nat.strong_induction_on with
  | _ j ih =>
    intro hj
    rw [recurrence j hj, recurrence' j hj, samples j hj,
      delayedIn_congr positive fun k hk => ih k hk (hk.trans hj)]

/-- Settles O48. -/
theorem dryDelayIsTheInput : Obligations.DryDelayIsTheInput := by
  refine ⟨fun i x fb s => dry_output, fun s c x w len three dry cap input recurrence => ?_⟩
  obtain ⟨t, x', w', run, ⟨reads, -⟩, recurrence', -, ⟨words, -⟩, -⟩ :=
    (delayAndReverbRunTheRecurrence s c len three).1 cap
  have positive : 0 < c.toNat := capacityOf_pos (i := .delay) cap
  have samples : ∀ j, j < s.len.toNat → x' j = x j := fun j hj => by
    have read := reads j hj
    rwa [input j hj] at read
  have same := delay_recurrence_unique positive samples recurrence' recurrence
  refine ⟨t, run, fun j hj finiteX finiteDelayed => ?_⟩
  have word := words j hj
  dsimp only at word
  rw [samples j hj, dry, delayedIn_congr positive fun k hk => same k (hk.trans hj)] at word
  exact ⟨_, word, dry_output finiteX finiteDelayed⟩

end Sys2Proof.Proofs
end
